-- ==== Sys2Proof/Word.lean ====
section
/-! DEFINITION. The word types of QRE: bytes, 32-bit registers and command words, 16-bit bus addresses. -/

namespace Sys2Proof

/-- A byte: a buffer cell, a codeword, an element of GF(256) (R9, R140). -/
abbrev Byte := BitVec 8

/-- A 32-bit register or command word (R110; 10_state.md section 2). -/
abbrev Word := BitVec 32

/-- A bus address: one space of 16-bit byte addresses (R80). -/
abbrev Addr := BitVec 16

end Sys2Proof
end

