-- ==== Sys2Proof/Syntax.lean ====
section
/-! DEFINITION. The instruction set: the 22 commands of the opcode map (30_encoding.md R111), one constructor for
each row of spec/opcode_table.json. -/

namespace Sys2Proof

/-- A command. The immediate IMM is "always the unsigned 8-bit value w[15:8] of the command word" (R112), used as an
unbounded non-negative integer (R7): hence a natural number, whose bound is `Instr.WellFormed`. Commands of class NONE
take none. -/
inductive Instr where
  /-- `nop` (R370). -/
  | nop
  /-- `encode` (R371). -/
  | encode
  /-- `gf.mul` (R146). -/
  | gfMul
  /-- `gf.pow` (R147). -/
  | gfPow
  /-- `gf.log` (R148). -/
  | gfLog
  /-- `gf.exp` (R149). -/
  | gfExp
  /-- `vsel` (R181). -/
  | vsel
  /-- `bs.clear` (R202). -/
  | bsClear
  /-- `bs.append n` (R203), class NBITS. -/
  | bsAppend (n : Nat)
  /-- `bs.seg i` (R209), class SEGIDX. -/
  | bsSeg (i : Nat)
  /-- `bs.finish` (R210). -/
  | bsFinish
  /-- `rs.gen` (R233). -/
  | rsGen
  /-- `rs.enc` (R235). -/
  | rsEnc
  /-- `ileave` (R263). -/
  | ileave
  /-- `mx.init` (R282). -/
  | mxInit
  /-- `mx.func` (R291). -/
  | mxFunc
  /-- `mx.place` (R299). -/
  | mxPlace
  /-- `bch.fmt sel` (R295), class FMTSEL. -/
  | bchFmt (sel : Nat)
  /-- `bch.ver v` (R296), class VERNUM. -/
  | bchVer (v : Nat)
  /-- `mask.eval m` (R339), class MASK. -/
  | maskEval (m : Nat)
  /-- `mask.select` (R340). -/
  | maskSelect
  /-- `mask.apply m` (R341), class MASK. -/
  | maskApply (m : Nat)
  deriving DecidableEq, Repr

/-- The immediate classes of R112. -/
inductive ImmClass where
  | none | nbits | segIdx | fmtSel | verNum | mask
  deriving DecidableEq, Repr

/-- The immediate class of each command (R111). -/
def Instr.immClass : Instr → ImmClass
  | .bsAppend _ => .nbits
  | .bsSeg _ => .segIdx
  | .bchFmt _ => .fmtSel
  | .bchVer _ => .verNum
  | .maskEval _ => .mask
  | .maskApply _ => .mask
  | .nop | .encode | .gfMul | .gfPow | .gfLog | .gfExp | .vsel | .bsClear | .bsFinish | .rsGen | .rsEnc
  | .ileave | .mxInit | .mxFunc | .mxPlace | .maskSelect => .none

/-- The value of the IMM field of a command (0 for class NONE, R112). -/
def Instr.imm : Instr → Nat
  | .bsAppend n => n
  | .bsSeg i => i
  | .bchFmt sel => sel
  | .bchVer v => v
  | .maskEval m => m
  | .maskApply m => m
  | .nop | .encode | .gfMul | .gfPow | .gfLog | .gfExp | .vsel | .bsClear | .bsFinish | .rsGen | .rsEnc
  | .ileave | .mxInit | .mxFunc | .mxPlace | .maskSelect => 0

end Sys2Proof
end

