-- ==== Sys2Proof/WellFormed.lean ====
section
/-! DEFINITION. Which terms of `Instr` a command word can hold. A well-formed command may still have an operand its
rule refuses (R112: an out-of-range IMM decodes, and the command fails with BAD_OPERAND); `Instr.ImmLegal` is the
static part of that range. -/

namespace Sys2Proof

/-- A command is well-formed when its immediate fits the 8-bit IMM field (R110, R112). -/
abbrev Instr.WellFormed (i : Instr) : Prop := i.imm < 256

/-- The "legal IMM" column of R112, less what depends on the state: SEGIDX is 0..NSEG-1 and NSEG at most 16. -/
abbrev Instr.ImmLegal (i : Instr) : Prop :=
  match i.immClass with
  | .none => i.imm = 0
  | .nbits => 1 ≤ i.imm ∧ i.imm ≤ 32
  | .segIdx => i.imm < 16
  | .fmtSel => i.imm / 64 = 0 ∧ i.imm / 8 % 2 = 0
  | .verNum => 7 ≤ i.imm ∧ i.imm ≤ 40
  | .mask => i.imm ≤ 7

end Sys2Proof
end

