-- ==== Sys2Proof/Decode.lean ====
section
/-! DEFINITION. Decoding (30_encoding.md R113) and encoding (R110, R111) of command words. Decoding is total on all
2^32 words and names why a word is illegal (R114). -/

namespace Sys2Proof

/-- Why a word is illegal (R114). All three complete with ILLEGAL_COMMAND, ERRINFO = the word. -/
inductive IllegalReason where
  /-- RSV, bits [31:16], is not 0. -/
  | reservedField
  /-- OPC is not one of the 22 values of R111. -/
  | unknownOpcode
  /-- OPC has class NONE and IMM is not 0. -/
  | immediateNotZero
  deriving DecidableEq, Repr

/-- OPC, bits [7:0] of a command word (R110). -/
def opcField (w : Word) : Nat := (w.extractLsb' 0 8).toNat

/-- IMM, bits [15:8] of a command word (R110). -/
def immField (w : Word) : Nat := (w.extractLsb' 8 8).toNat

/-- RSV, bits [31:16] of a command word (R110). -/
def rsvField (w : Word) : Nat := (w.extractLsb' 16 16).toNat

/-- The opcode map (R111): the command an OPC and an IMM name; `none` for the reserved OPC values of R115. -/
def commandOf (opc imm : Nat) : Option Instr :=
  match opc with
  | 0x00 => some .nop
  | 0x01 => some .encode
  | 0x10 => some .gfMul
  | 0x11 => some .gfPow
  | 0x12 => some .gfLog
  | 0x13 => some .gfExp
  | 0x20 => some .vsel
  | 0x30 => some .bsClear
  | 0x31 => some (.bsAppend imm)
  | 0x32 => some (.bsSeg imm)
  | 0x33 => some .bsFinish
  | 0x40 => some .rsGen
  | 0x41 => some .rsEnc
  | 0x42 => some .ileave
  | 0x50 => some .mxInit
  | 0x51 => some .mxFunc
  | 0x52 => some .mxPlace
  | 0x53 => some (.bchFmt imm)
  | 0x54 => some (.bchVer imm)
  | 0x60 => some (.maskEval imm)
  | 0x61 => some .maskSelect
  | 0x62 => some (.maskApply imm)
  | _ => none

/-- `decode(w)` of R113: the checks in its order. Range checks of a class's IMM are the command's own. -/
def decode (w : Word) : Except IllegalReason Instr :=
  if rsvField w ≠ 0 then .error .reservedField
  else
    match commandOf (opcField w) (immField w) with
    | none => .error .unknownOpcode
    | some i => if i.immClass = .none ∧ immField w ≠ 0 then .error .immediateNotZero else .ok i

/-- The OPC of each command (R111). -/
def opcodeOf : Instr → Nat
  | .nop => 0x00
  | .encode => 0x01
  | .gfMul => 0x10
  | .gfPow => 0x11
  | .gfLog => 0x12
  | .gfExp => 0x13
  | .vsel => 0x20
  | .bsClear => 0x30
  | .bsAppend _ => 0x31
  | .bsSeg _ => 0x32
  | .bsFinish => 0x33
  | .rsGen => 0x40
  | .rsEnc => 0x41
  | .ileave => 0x42
  | .mxInit => 0x50
  | .mxFunc => 0x51
  | .mxPlace => 0x52
  | .bchFmt _ => 0x53
  | .bchVer _ => 0x54
  | .maskEval _ => 0x60
  | .maskSelect => 0x61
  | .maskApply _ => 0x62

/-- The command word of a command: RSV = 0, IMM, OPC (R110; R117 writes it `(imm << 8) | OPC`). -/
def encode (i : Instr) : Word :=
  BitVec.ofNat 16 0 ++ BitVec.ofNat 8 i.imm ++ BitVec.ofNat 8 (opcodeOf i)

/-- What the decoder reads from an instruction of the opcode table: one 32-bit word, whose bits above `nbits` are 0. -/
def decodeTableWord (nbits w : Nat) : Option Instr :=
  match decode (BitVec.ofNat 32 (w % 2 ^ nbits)) with
  | .ok i => some i
  | .error _ => none

end Sys2Proof
end

