-- ==== Sys2Proof/Config.lean ====
section
/-! DEFINITION. What an implementation of QRE fixes (the parameters of 00_scope.md R6) and the free values: the
draws of R443, R451 and R90, as constants without a body. -/

namespace Sys2Proof.Config

/-- The two readings of the finder-like penalty (R335, D36). -/
inductive N3Variant where
  /-- Every 11-module window inside the line. -/
  | window11
  /-- The same over the line extended by four LIGHT modules on each side. -/
  | quietZone11
  deriving DecidableEq, Repr

/-- N3_VARIANT: R6 gives the value QRE takes, WINDOW11 (log 9). -/
def n3Variant : N3Variant := .window11

/-- VMIN and VMAX, the smallest and the largest symbol version (R6). -/
def vMin : Nat := 1
def vMax : Nat := 40

/-- INBUF_SIZE, the bytes of the input buffer (R6, R65). -/
def inbufSize : Nat := 8192

/-- NSEG_MAX, the number of segment descriptors (R6, R64). -/
def nsegMax : Nat := 16

/-- DCW_SIZE and FCW_SIZE, the bytes of the data and of the final codeword buffer (R6, R66, R67). -/
def dcwSize : Nat := 4096
def fcwSize : Nat := 4096

/-- EC_MAX_DEG, the largest Reed-Solomon degree (R6, R49). -/
def ecMaxDeg : Nat := 30

/-- MX_STRIDE, the row stride of MX = N(40) (R6, R70). -/
def mxStride : Nat := 177

/-- The draw of a RAM byte (R443, R451): FREE VALUE, one for each draw generation of the byte's buffer and each bus
address (log 3, log 5). Nothing constrains it. -/
opaque ramDraw : Nat → Nat → BitVec 8

/-- The draw a read while BUSY is answered with (R90): FREE VALUE, a fresh one for each such read, counted by the
state's counter `draws` (log 6). Nothing constrains it. -/
opaque busyRead : Nat → BitVec 32

end Sys2Proof.Config
end

