-- ==== Sys2Proof/Machine/State.lean ====
section
/-! DEFINITION. The state of QRE as plain data (10_state.md), the reasons a step can stop, and the state after reset
(70_reset_and_hazards.md R441). -/

namespace Sys2Proof.Machine

open Sys2Proof

/-- The access widths of the bus: 1, 2 or 4 bytes (R82). -/
inductive Width where
  | one | two | four
  deriving DecidableEq, Repr

/-- What stops the machine. No command does (R406): a failed command completes (R402). -/
inductive Fault where
  /-- Raised by `step` for a host access that the bus answers with an error (R84, R88, R89): it is misaligned, or
  narrower than a word in the register block. R89: "A model treats a bus error as a fault of the host agent." SAFE:
  the machine stops where the hardware would serve the host's next access (log 7). -/
  | busError (addr : Addr) (width : Width)
  deriving DecidableEq, Repr

/-- Why an instruction has no meaning. -/
inductive Refusal where
  /-- An instruction of the opcode table that the model does not model yet; raised by `exec` only. SAFE. No arm of
  `exec` uses it: every command has its meaning. -/
  | notModelled (mnemonic : String)
  deriving DecidableEq, Repr

/-- RAM: a list of (bus address, byte) pairs, one for each byte written since its last draw, in the canonical form
`Memory.wf`: addresses strictly rising. An address that is not listed holds no written value: it reads as its draw
(R443; log 3). -/
abbrev Memory := List Host.Cell

/-- The RAM buffers (10_state.md section 6). -/
inductive Region where
  /-- The last RS_ENC result (R68). -/
  | ecb
  /-- The last RS_GEN result (R69). -/
  | genb
  /-- The 16 segment descriptors (R64). -/
  | segtab
  /-- The input characters (R65). -/
  | inbuf
  /-- The bit buffer and data codewords (R66). -/
  | dcw
  /-- The final codeword sequence (R67). -/
  | fcw
  /-- The module matrix (R70). -/
  | mx
  deriving DecidableEq, Repr

/-- The draw generation of each buffer: the model's own counters (log 5). A buffer whose bytes become fresh draws
(power-on, R443; an abandoned command, R451) moves on to its next generation. -/
structure DrawEpochs where
  ecb : Nat
  genb : Nat
  segtab : Nat
  inbuf : Nat
  dcw : Nat
  fcw : Nat
  mx : Nat
  deriving DecidableEq, Repr

/-- The operand registers: written by the host only, read by the commands that name them (R38). -/
structure OperandRegs where
  /-- GF_A (R41). -/
  gfA : Byte
  /-- GF_B (R42). -/
  gfB : Byte
  /-- GF_E (R43). -/
  gfE : Byte
  /-- CFG_LEVEL (R45). -/
  cfgLevel : BitVec 2
  /-- CFG_VERSION (R46). -/
  cfgVersion : BitVec 6
  /-- NSEG (R47). -/
  nseg : BitVec 5
  /-- BS_VALUE (R48). -/
  bsValue : Word
  /-- RS_DEG (R49). -/
  rsDeg : Byte
  /-- RS_LEN (R50). -/
  rsLen : Byte
  /-- RS_SRC (R51). -/
  rsSrc : BitVec 12
  deriving DecidableEq, Repr

/-- The result registers: written only by commands that complete without error (R38). -/
structure ResultRegs where
  /-- GF_R (R44). -/
  gfR : Byte
  /-- BCH_R (R52). -/
  bchR : BitVec 18
  /-- VERSION (R53). -/
  version : BitVec 6
  /-- SIZE (R54). -/
  size : BitVec 8
  /-- DATA_CW (R55). -/
  dataCw : BitVec 12
  /-- TOTAL_CW (R56). -/
  totalCw : BitVec 12
  /-- BITLEN (R57). -/
  bitLen : BitVec 16
  /-- REQ_BITS (R58). -/
  reqBits : BitVec 16
  /-- MASKID (R59). -/
  maskId : BitVec 3
  /-- LEVEL (R60). -/
  level : BitVec 2
  /-- PEN_N1 to PEN_N4 (R61). -/
  penN1 : Word
  penN2 : Word
  penN3 : Word
  penN4 : Word
  /-- PEN_DARK (R61). -/
  penDark : Word
  /-- PENALTY[0..7] (R62). -/
  penalty : Vector Word 8
  deriving DecidableEq, Repr

/-- The phase flags of PHASE (R37, R39). -/
structure Phase where
  /-- V: the version and level registers are valid. -/
  v : Bool
  /-- F: the bitstream is finished. -/
  f : Bool
  /-- C: FCW holds the interleaved codewords. -/
  c : Bool
  /-- M: MX holds an initialised matrix. -/
  m : Bool
  /-- P: the function patterns are placed. -/
  p : Bool
  /-- D: the data modules are placed. -/
  d : Bool
  /-- K: a mask is applied and the format information written. -/
  k : Bool
  deriving DecidableEq, Repr

/-- What the outside world does next (R30, R92; R440): an entry of the model's list of events (log 1). -/
inductive BusEvent where
  /-- `MemRead(addr, n)` by the host (R88). -/
  | read (addr : Addr) (width : Width)
  /-- `MemWrite(addr, n, v)` by the host (R88); the bits of `value` above the access's 8n are not used. -/
  | write (addr : Addr) (width : Width) (value : Word)
  /-- No access: the engine takes its turn, so a command in flight completes (R400). -/
  | engine
  /-- The platform asserts the hard reset, not at power-on (R440, R443, D60). -/
  | hardReset
  /-- Power-on: a hard reset with fresh RAM contents (R440, R443). -/
  | powerOn
  deriving DecidableEq, Repr

/-- The state of QRE. BUSY is not a field: it is 1 exactly while the latch holds a word (R71; log 11). -/
structure State where
  /-- The operand registers (R38). -/
  operand : OperandRegs
  /-- The result registers (R38). -/
  result : ResultRegs
  /-- PHASE (R37). -/
  phase : Phase
  /-- CTRL.IRQ_EN (R32). -/
  irqEn : Bool
  /-- STATUS.DONE (R33). -/
  done : Bool
  /-- STATUS.ERR (R33). -/
  err : Bool
  /-- STATUS.OVR (R33). -/
  ovr : Bool
  /-- ERRCODE (R35). -/
  errCode : Byte
  /-- ERRINFO (R36). -/
  errInfo : Word
  /-- The pending command latch (R71). -/
  latch : Option Word
  /-- RAM: SEGTAB, INBUF, DCW, FCW, ECB, GENB and MX (10_state.md section 6). -/
  mem : Memory
  /-- The draw generation of each RAM buffer (the model's own, log 5). -/
  epoch : DrawEpochs
  /-- What the host and the platform do next (the model's own, log 1). -/
  inbox : List BusEvent
  /-- The data the bus answered the last access with; `none` after a write or a reset (the model's own, log 8). -/
  port : Option Word
  /-- The number of reads answered with a draw so far (the model's own, log 6). -/
  draws : Nat
  deriving DecidableEq, Repr

/-- Every operand register at its reset value, 0 (R73, R441). -/
def OperandRegs.reset : OperandRegs :=
  { gfA := 0, gfB := 0, gfE := 0, cfgLevel := 0, cfgVersion := 0, nseg := 0, bsValue := 0, rsDeg := 0, rsLen := 0,
    rsSrc := 0 }

/-- Every result register at its reset value, 0 (R73, R441). -/
def ResultRegs.reset : ResultRegs :=
  { gfR := 0, bchR := 0, version := 0, size := 0, dataCw := 0, totalCw := 0, bitLen := 0, reqBits := 0, maskId := 0,
    level := 0, penN1 := 0, penN2 := 0, penN3 := 0, penN4 := 0, penDark := 0, penalty := #v[0, 0, 0, 0, 0, 0, 0, 0] }

/-- Every phase flag 0 (R39: "Reset clears all seven"). -/
def Phase.reset : Phase :=
  { v := false, f := false, c := false, m := false, p := false, d := false, k := false }

/-- The state after a hard reset at power-on (R441, R443): registers at their reset values, the latch invalid, every
RAM byte a draw. The model's own fields start empty (log 20). -/
def State.reset : State :=
  { operand := .reset, result := .reset, phase := .reset, irqEn := false, done := false, err := false, ovr := false,
    errCode := 0, errInfo := 0, latch := none, mem := [],
    epoch := { ecb := 0, genb := 0, segtab := 0, inbuf := 0, dcw := 0, fcw := 0, mx := 0 }, inbox := [], port := none,
    draws := 0 }

end Sys2Proof.Machine
end

