-- ==== Sys2Proof/Machine/Ops.lean ====
section
/-! DEFINITION. The named operations over memory and over the state: the canonical memory, the RAM buffers, raising an
error (the one shared operation that ends a failed command, 60_exceptions.md R402), acceptance and completion of a
command (R400, R405), and the two resets (70_reset_and_hazards.md R441 to R443, R451). -/

namespace Sys2Proof.Machine

open Sys2Proof

/-! ### Bit sequences and bytes (R7, R8) -/

/-- `bits(v, n)`: the n-bit sequence of v, most significant bit first (R8). -/
def bitSeq (v : Nat) : Nat → List Bool
  | 0 => []
  | n + 1 => v.testBit n :: bitSeq v n

/-- Byte j of a 32-bit word, `v[8j+7:8j]` (R83). -/
def byteOfWord (v : Word) (j : Nat) : Byte := v.extractLsb' (8 * j) 8

/-- The little-endian value of a byte list, byte 0 lowest (R83). -/
def leValue : List Byte → Nat
  | [] => 0
  | b :: bs => b.toNat + 256 * leValue bs

/-- The number of bytes of an access (R82). -/
def Width.bytes : Width → Nat
  | .one => 1
  | .two => 2
  | .four => 4

/-! ### The memory list -/

/-- The written byte at an address, or `none` where nothing is listed. -/
def Memory.read : Memory → Nat → Option Byte
  | [], _ => none
  | (b, v) :: m, a => if b = a then some v else Memory.read m a

/-- Store cells given at strictly rising addresses. -/
def Memory.store : List Host.Cell → Memory → Memory
  | [], m => m
  | (a, v) :: ws, m => m.takeWhile (·.1 < a) ++ (a, v) :: Memory.store ws (m.dropWhile (·.1 ≤ a))

/-- Forget the cells at `base .. base + size - 1`. -/
def Memory.erase (base size : Nat) (m : Memory) : Memory :=
  m.filter fun cell => !(decide (base ≤ cell.1) && decide (cell.1 < base + size))

/-- Cells for a run of bytes from an address. -/
def cellsFrom : Nat → List Byte → List Host.Cell
  | _, [] => []
  | a, b :: bs => (a, b) :: cellsFrom (a + 1) bs

/-! ### The buffers (10_state.md section 6; the address map is R81) -/

/-- The bus address of a buffer's first byte (R81). -/
def Region.base : Region → Nat
  | .ecb => 0x0300
  | .genb => 0x0320
  | .segtab => 0x0400
  | .inbuf => 0x1000
  | .dcw => 0x3000
  | .fcw => 0x4000
  | .mx => 0x8000

/-- The number of bytes of a buffer (10_state.md section 6). -/
def Region.size : Region → Nat
  | .ecb => 32
  | .genb => 32
  | .segtab => 128
  | .inbuf => 8192
  | .dcw => 4096
  | .fcw => 4096
  | .mx => 31329

/-- The buffer that holds a bus address, if one does (R81). -/
def regionAt (a : Nat) : Option Region :=
  if 0x0300 ≤ a ∧ a < 0x0320 then some .ecb
  else if 0x0320 ≤ a ∧ a < 0x0340 then some .genb
  else if 0x0400 ≤ a ∧ a < 0x0480 then some .segtab
  else if 0x1000 ≤ a ∧ a < 0x3000 then some .inbuf
  else if 0x3000 ≤ a ∧ a < 0x4000 then some .dcw
  else if 0x4000 ≤ a ∧ a < 0x5000 then some .fcw
  else if 0x8000 ≤ a ∧ a < 0xFA61 then some .mx
  else none

/-- The canonical form of memory: addresses strictly rising, and every one an address of RAM. (An unlisted address
holds no written value, so no entry equals what it reads as.) -/
abbrev Memory.wf (m : Memory) : Prop :=
  m.Pairwise (fun x y => x.1 < y.1) ∧ ∀ x ∈ m, (regionAt x.1).isSome = true

/-- The draw generation of a buffer. -/
def DrawEpochs.get (e : DrawEpochs) : Region → Nat
  | .ecb => e.ecb
  | .genb => e.genb
  | .segtab => e.segtab
  | .inbuf => e.inbuf
  | .dcw => e.dcw
  | .fcw => e.fcw
  | .mx => e.mx

/-- The buffer's bytes become fresh draws: its next generation (log 5). -/
def DrawEpochs.next (e : DrawEpochs) : Region → DrawEpochs
  | .ecb => { e with ecb := e.ecb + 1 }
  | .genb => { e with genb := e.genb + 1 }
  | .segtab => { e with segtab := e.segtab + 1 }
  | .inbuf => { e with inbuf := e.inbuf + 1 }
  | .dcw => { e with dcw := e.dcw + 1 }
  | .fcw => { e with fcw := e.fcw + 1 }
  | .mx => { e with mx := e.mx + 1 }

/-- What a byte of a buffer reads as while nothing is written to it: its draw (R443). An MX byte's bits [7:3] are
"always 0" (R70), so its draw is one of bits [2:0] only (log 4). -/
def State.draw (s : State) (g : Region) (a : Nat) : Byte :=
  match g with
  | .mx => Config.ramDraw s.epoch.mx a &&& 7
  | .ecb | .genb | .segtab | .inbuf | .dcw | .fcw => Config.ramDraw (s.epoch.get g) a

/-- `BUF[i]` (R10): byte i of a buffer. -/
def State.buf (s : State) (g : Region) (i : Nat) : Byte :=
  (s.mem.read (g.base + i)).getD (s.draw g (g.base + i))

/-- The bytes at n addresses in a row, read off a memory whose listed addresses below the first are already passed. -/
def Memory.walk (draw : Nat → Byte) : Nat → Nat → Memory → List Byte
  | 0, _, _ => []
  | n + 1, a, [] => draw a :: Memory.walk draw n (a + 1) []
  | n + 1, a, (b, v) :: m =>
    if b = a then v :: Memory.walk draw n (a + 1) m else draw a :: Memory.walk draw n (a + 1) ((b, v) :: m)

/-- `BUF[i .. i+n-1]`: n bytes of a buffer, read in one pass. On a canonical memory it is `buf` at each index
(`State.bytes_eq_map_buf` of Laws). -/
def State.bytes (s : State) (g : Region) (i n : Nat) : List Byte :=
  Memory.walk (s.draw g) n (g.base + i) (s.mem.dropWhile (·.1 < g.base + i))

/-- Write cells at strictly rising bus addresses. -/
def State.store (s : State) (ws : List Host.Cell) : State := { s with mem := s.mem.store ws }

/-- `BUF[i ..] <- bs`: write a run of bytes into a buffer. -/
def State.setBytes (s : State) (g : Region) (i : Nat) (bs : List Byte) : State := s.store (cellsFrom (g.base + i) bs)

/-- Every byte of a buffer becomes a fresh draw (R443, R451). -/
def State.redraw (s : State) (g : Region) : State :=
  { s with mem := s.mem.erase g.base g.size, epoch := s.epoch.next g }

/-- The same for several buffers. -/
def State.redrawAll (s : State) : List Region → State
  | [] => s
  | g :: gs => (s.redraw g).redrawAll gs

/-! ### Errors (60_exceptions.md) -/

/-- The errors of R401. -/
inductive ErrorKind where
  | unsupportedCharacter | dataTooLong | invalidMode | invalidVersion | gfLogZero | overlap | illegalCommand
  | badOperand | sequence
  deriving DecidableEq, Repr

/-- The code of an error (R401). -/
def ErrorKind.code : ErrorKind → Byte
  | .unsupportedCharacter => 0x01
  | .dataTooLong => 0x02
  | .invalidMode => 0x03
  | .invalidVersion => 0x04
  | .gfLogZero => 0x10
  | .overlap => 0x11
  | .illegalCommand => 0x20
  | .badOperand => 0x21
  | .sequence => 0x22

/-- `raise E(info)` (R10): the error a command ends with. -/
structure CommandError where
  kind : ErrorKind
  info : Word
  deriving DecidableEq, Repr

/-- An error whose detail word is a number (R403). -/
def raise (e : ErrorKind) (info : Nat) : CommandError := { kind := e, info := BitVec.ofNat 32 info }

/-! ### The life of a command (R400) -/

/-- STATUS.BUSY (R33): 1 from the acceptance of a command to its completion, which is while the latch is valid (R71). -/
def State.busy (s : State) : Bool := s.latch.isSome

/-- Acceptance (R400 step 1): latch the word, BUSY = 1, clear DONE, ERR, ERRCODE and ERRINFO; OVR is unchanged. -/
def State.accept (s : State) (w : Word) : State :=
  { s with latch := some w, done := false, err := false, errCode := 0, errInfo := 0 }

/-- Completion without error (R405): DONE = 1 and BUSY = 0. ERRCODE and ERRINFO keep what acceptance wrote. -/
def State.completeOk (s : State) : State := { s with latch := none, done := true }

/-- Completion with an error (R402): BUSY = 0, ERR = 1, ERRCODE and ERRINFO; everything else as it is. -/
def State.completeError (s : State) (e : CommandError) : State :=
  { s with latch := none, err := true, errCode := e.kind.code, errInfo := e.info }

/-- The completion of a command (R400 step 2) whose body gives `r` at state `s`. On an error the state is `s` itself
with the error record: every write the body made is undone (R402, R372). -/
def finish (s : State) (r : Except CommandError State) : Host.Outcome State Fault Refusal :=
  .next (match r with
    | .ok t => t.completeOk
    | .error e => s.completeError e)

/-! ### Resets (70_reset_and_hazards.md) -/

/-- The buffers a command's rule may write: the table of R451. -/
def mayWrite : Instr → List Region
  | .bsClear | .bsAppend _ | .bsSeg _ | .bsFinish => [.dcw]
  | .rsGen => [.genb]
  | .rsEnc => [.ecb]
  | .ileave => [.fcw]
  | .mxInit | .mxFunc | .mxPlace | .maskSelect | .maskApply _ => [.mx]
  | .encode => [.dcw, .fcw, .mx]
  | .nop | .gfMul | .gfPow | .gfLog | .gfExp | .vsel | .bchFmt _ | .bchVer _ | .maskEval _ => []

/-- The buffers that become draws when the command in flight, if any, is abandoned (R451); none for an illegal word. -/
def abandoned : Option Word → List Region
  | none => []
  | some w =>
    match decode w with
    | .ok i => mayWrite i
    | .error _ => []

/-- Every register takes its reset value, and the latch becomes invalid (R441). RAM is not touched. -/
def State.resetRegisters (s : State) : State :=
  { s with operand := .reset, result := .reset, phase := .reset, irqEn := false, done := false, err := false,
           ovr := false, errCode := 0, errInfo := 0, latch := none }

/-- The soft reset, and the hard reset that is not a power-on (R442, R443, D60): the registers reset, and the buffers
an abandoned command could write become draws (R451). -/
def State.resetKeepingRam (s : State) : State := (s.redrawAll (abandoned s.latch)).resetRegisters

/-- All the RAM buffers. -/
def allRegions : List Region := [.ecb, .genb, .segtab, .inbuf, .dcw, .fcw, .mx]

/-- The hard reset at power-on (R441, R443): every RAM byte a fresh draw. -/
def State.powerOn (s : State) : State := (s.redrawAll allRegions).resetRegisters

end Sys2Proof.Machine
end

