-- ==== Sys2Proof/Machine/Flags.lean ====
section
/-! DEFINITION. The flags: STATUS and CTRL as words, the `irq` output, the phase flags as a word, what sets and clears
them, and the phase prerequisites (10_state.md R32, R33, R37, R39; 60_exceptions.md R408; 70_reset_and_hazards.md R448). -/

namespace Sys2Proof.Machine

open Sys2Proof

/-- A flag at bit i of a word. -/
def flagBit (b : Bool) (i : Nat) : Word := if b then 1#32 <<< i else 0

/-- STATUS as it reads: BUSY, DONE, ERR, OVR in bits 0 to 3 (R33). -/
def State.statusWord (s : State) : Word :=
  flagBit s.busy 0 ||| flagBit s.done 1 ||| flagBit s.err 2 ||| flagBit s.ovr 3

/-- CTRL as it reads: IRQ_EN in bit 0; SRST reads 0 (R32). -/
def State.ctrlWord (s : State) : Word := flagBit s.irqEn 0

/-- PHASE as it reads: V, F, C, M, P, D, K in bits 0 to 6 (R37). -/
def Phase.word (p : Phase) : Word :=
  flagBit p.v 0 ||| flagBit p.f 1 ||| flagBit p.c 2 ||| flagBit p.m 3 ||| flagBit p.p 4 ||| flagBit p.d 5 |||
    flagBit p.k 6

/-- The `irq` output, a function of the state (R72, R408). -/
def State.irq (s : State) : Bool := s.irqEn && (s.done || s.err)

/-- A write to STATUS (R33): writing 1 clears DONE, ERR, OVR; BUSY is read-only. -/
def State.writeStatus (s : State) (v : Word) : State :=
  { s with done := s.done && !v.getLsbD 1, err := s.err && !v.getLsbD 2, ovr := s.ovr && !v.getLsbD 3 }

/-- A write to CTRL (R32): SRST performs the soft reset, which leaves IRQ_EN = 0; otherwise IRQ_EN takes bit 0. -/
def State.writeCtrl (s : State) (v : Word) : State :=
  if v.getLsbD 1 then s.resetKeepingRam else { s with irqEn := v.getLsbD 0 }

/-! ### What sets and clears the phase flags (R39) -/

/-- VSEL success: V alone. -/
def Phase.afterVsel (_ : Phase) : Phase := { Phase.reset with v := true }

/-- BS_CLEAR clears F and C. -/
def Phase.afterClear (p : Phase) : Phase := { p with f := false, c := false }

/-- BS_FINISH success sets F. -/
def Phase.afterFinish (p : Phase) : Phase := { p with f := true }

/-- ILEAVE success sets C. -/
def Phase.afterIleave (p : Phase) : Phase := { p with c := true }

/-- MX_INIT success sets M and clears P, D, K. -/
def Phase.afterInit (p : Phase) : Phase := { p with m := true, p := false, d := false, k := false }

/-- MX_FUNC success sets P. -/
def Phase.afterFunc (p : Phase) : Phase := { p with p := true }

/-- MX_PLACE success sets D. -/
def Phase.afterPlace (p : Phase) : Phase := { p with d := true }

/-- MASK_SELECT or MASK_APPLY success sets K. -/
def Phase.afterMask (p : Phase) : Phase := { p with k := true }

/-! ### The prerequisites (R448) -/

/-- bs.append, bs.seg, bs.finish: V = 1, F = 0. -/
def Phase.canBuild (p : Phase) : Bool := p.v && !p.f

/-- ileave: F = 1. -/
def Phase.canInterleave (p : Phase) : Bool := p.f

/-- mx.init: V = 1. -/
def Phase.canInit (p : Phase) : Bool := p.v

/-- mx.func: M = 1, P = 0. -/
def Phase.canFunc (p : Phase) : Bool := p.m && !p.p

/-- mx.place: P = 1, C = 1, D = 0. -/
def Phase.canPlace (p : Phase) : Bool := p.p && p.c && !p.d

/-- mask.eval, mask.select, mask.apply: D = 1, K = 0. -/
def Phase.canMask (p : Phase) : Bool := p.d && !p.k

/-- `raise SEQUENCE(PHASE)` (R403). -/
def State.sequenceError (s : State) : CommandError := { kind := .sequence, info := s.phase.word }

end Sys2Proof.Machine
end

