-- ==== Sys2Proof/Machine/Tables.lean ====
section
/-! DEFINITION. The fixed tables: the EXP and LOG ROMs (40_gf.md R143, R144) and the ISO tables, which are parameters
with the values of 41_segments_version.md R177, R180 and 45_matrix.md R287 (log 10). -/

namespace Sys2Proof.Machine

open Sys2Proof

/-! ### The EXP ROM (R143), sixteen bytes a row -/

def expRows0 : List Byte :=
  [0x01, 0x02, 0x04, 0x08, 0x10, 0x20, 0x40, 0x80, 0x1D, 0x3A, 0x74, 0xE8, 0xCD, 0x87, 0x13, 0x26,
   0x4C, 0x98, 0x2D, 0x5A, 0xB4, 0x75, 0xEA, 0xC9, 0x8F, 0x03, 0x06, 0x0C, 0x18, 0x30, 0x60, 0xC0,
   0x9D, 0x27, 0x4E, 0x9C, 0x25, 0x4A, 0x94, 0x35, 0x6A, 0xD4, 0xB5, 0x77, 0xEE, 0xC1, 0x9F, 0x23,
   0x46, 0x8C, 0x05, 0x0A, 0x14, 0x28, 0x50, 0xA0, 0x5D, 0xBA, 0x69, 0xD2, 0xB9, 0x6F, 0xDE, 0xA1,
   0x5F, 0xBE, 0x61, 0xC2, 0x99, 0x2F, 0x5E, 0xBC, 0x65, 0xCA, 0x89, 0x0F, 0x1E, 0x3C, 0x78, 0xF0,
   0xFD, 0xE7, 0xD3, 0xBB, 0x6B, 0xD6, 0xB1, 0x7F, 0xFE, 0xE1, 0xDF, 0xA3, 0x5B, 0xB6, 0x71, 0xE2,
   0xD9, 0xAF, 0x43, 0x86, 0x11, 0x22, 0x44, 0x88, 0x0D, 0x1A, 0x34, 0x68, 0xD0, 0xBD, 0x67, 0xCE,
   0x81, 0x1F, 0x3E, 0x7C, 0xF8, 0xED, 0xC7, 0x93, 0x3B, 0x76, 0xEC, 0xC5, 0x97, 0x33, 0x66, 0xCC]

def expRows1 : List Byte :=
  [0x85, 0x17, 0x2E, 0x5C, 0xB8, 0x6D, 0xDA, 0xA9, 0x4F, 0x9E, 0x21, 0x42, 0x84, 0x15, 0x2A, 0x54,
   0xA8, 0x4D, 0x9A, 0x29, 0x52, 0xA4, 0x55, 0xAA, 0x49, 0x92, 0x39, 0x72, 0xE4, 0xD5, 0xB7, 0x73,
   0xE6, 0xD1, 0xBF, 0x63, 0xC6, 0x91, 0x3F, 0x7E, 0xFC, 0xE5, 0xD7, 0xB3, 0x7B, 0xF6, 0xF1, 0xFF,
   0xE3, 0xDB, 0xAB, 0x4B, 0x96, 0x31, 0x62, 0xC4, 0x95, 0x37, 0x6E, 0xDC, 0xA5, 0x57, 0xAE, 0x41,
   0x82, 0x19, 0x32, 0x64, 0xC8, 0x8D, 0x07, 0x0E, 0x1C, 0x38, 0x70, 0xE0, 0xDD, 0xA7, 0x53, 0xA6,
   0x51, 0xA2, 0x59, 0xB2, 0x79, 0xF2, 0xF9, 0xEF, 0xC3, 0x9B, 0x2B, 0x56, 0xAC, 0x45, 0x8A, 0x09,
   0x12, 0x24, 0x48, 0x90, 0x3D, 0x7A, 0xF4, 0xF5, 0xF7, 0xF3, 0xFB, 0xEB, 0xCB, 0x8B, 0x0B, 0x16,
   0x2C, 0x58, 0xB0, 0x7D, 0xFA, 0xE9, 0xCF, 0x83, 0x1B, 0x36, 0x6C, 0xD8, 0xAD, 0x47, 0x8E, 0x01]

/-- The EXP ROM (R143). -/
def expTable : List Byte := expRows0 ++ expRows1

/-- `EXP[i]` (R143), i in 0..255. -/
def expRom (i : Nat) : Byte := expTable.getD i 0

/-! ### The LOG ROM (R144) -/

def logRows0 : List Byte :=
  [0x00, 0x00, 0x01, 0x19, 0x02, 0x32, 0x1A, 0xC6, 0x03, 0xDF, 0x33, 0xEE, 0x1B, 0x68, 0xC7, 0x4B,
   0x04, 0x64, 0xE0, 0x0E, 0x34, 0x8D, 0xEF, 0x81, 0x1C, 0xC1, 0x69, 0xF8, 0xC8, 0x08, 0x4C, 0x71,
   0x05, 0x8A, 0x65, 0x2F, 0xE1, 0x24, 0x0F, 0x21, 0x35, 0x93, 0x8E, 0xDA, 0xF0, 0x12, 0x82, 0x45,
   0x1D, 0xB5, 0xC2, 0x7D, 0x6A, 0x27, 0xF9, 0xB9, 0xC9, 0x9A, 0x09, 0x78, 0x4D, 0xE4, 0x72, 0xA6,
   0x06, 0xBF, 0x8B, 0x62, 0x66, 0xDD, 0x30, 0xFD, 0xE2, 0x98, 0x25, 0xB3, 0x10, 0x91, 0x22, 0x88,
   0x36, 0xD0, 0x94, 0xCE, 0x8F, 0x96, 0xDB, 0xBD, 0xF1, 0xD2, 0x13, 0x5C, 0x83, 0x38, 0x46, 0x40,
   0x1E, 0x42, 0xB6, 0xA3, 0xC3, 0x48, 0x7E, 0x6E, 0x6B, 0x3A, 0x28, 0x54, 0xFA, 0x85, 0xBA, 0x3D,
   0xCA, 0x5E, 0x9B, 0x9F, 0x0A, 0x15, 0x79, 0x2B, 0x4E, 0xD4, 0xE5, 0xAC, 0x73, 0xF3, 0xA7, 0x57]

def logRows1 : List Byte :=
  [0x07, 0x70, 0xC0, 0xF7, 0x8C, 0x80, 0x63, 0x0D, 0x67, 0x4A, 0xDE, 0xED, 0x31, 0xC5, 0xFE, 0x18,
   0xE3, 0xA5, 0x99, 0x77, 0x26, 0xB8, 0xB4, 0x7C, 0x11, 0x44, 0x92, 0xD9, 0x23, 0x20, 0x89, 0x2E,
   0x37, 0x3F, 0xD1, 0x5B, 0x95, 0xBC, 0xCF, 0xCD, 0x90, 0x87, 0x97, 0xB2, 0xDC, 0xFC, 0xBE, 0x61,
   0xF2, 0x56, 0xD3, 0xAB, 0x14, 0x2A, 0x5D, 0x9E, 0x84, 0x3C, 0x39, 0x53, 0x47, 0x6D, 0x41, 0xA2,
   0x1F, 0x2D, 0x43, 0xD8, 0xB7, 0x7B, 0xA4, 0x76, 0xC4, 0x17, 0x49, 0xEC, 0x7F, 0x0C, 0x6F, 0xF6,
   0x6C, 0xA1, 0x3B, 0x52, 0x29, 0x9D, 0x55, 0xAA, 0xFB, 0x60, 0x86, 0xB1, 0xBB, 0xCC, 0x3E, 0x5A,
   0xCB, 0x59, 0x5F, 0xB0, 0x9C, 0xA9, 0xA0, 0x51, 0x0B, 0xF5, 0x16, 0xEB, 0x7A, 0x75, 0x2C, 0xD7,
   0x4F, 0xAE, 0xD5, 0xE9, 0xE6, 0xE7, 0xAD, 0xE8, 0x74, 0xD6, 0xF4, 0xEA, 0xA8, 0x50, 0x58, 0xAF]

/-- The LOG ROM (R144). Byte 0 is not a logarithm (D23). -/
def logTable : List Byte := logRows0 ++ logRows1

/-- `LOG[i]` (R144), i in 0..255. -/
def logRom (i : Nat) : Byte := logTable.getD i 0

/-! ### Levels and modes -/

/-- The error-correction levels (R6, R45). -/
inductive Level where
  | L | M | Q | H
  deriving DecidableEq, Repr

/-- The CFG_LEVEL encoding: 0 L, 1 M, 2 Q, 3 H (R45). -/
def Level.ofBits (b : BitVec 2) : Level :=
  match b.toNat with
  | 0 => .L
  | 1 => .M
  | 2 => .Q
  | _ => .H

/-- The segment modes (R170). -/
inductive Mode where
  | numeric | alphanumeric | byte | kanji
  deriving DecidableEq, Repr

/-- The number of a mode in SEGTAB: 0 NUMERIC, 1 ALPHANUMERIC, 2 BYTE, 3 KANJI (R170). -/
def Mode.ofBits (b : BitVec 2) : Mode :=
  match b.toNat with
  | 0 => .numeric
  | 1 => .alphanumeric
  | 2 => .byte
  | _ => .kanji

/-- The 4-bit mode indicator (R170). -/
def Mode.indicator : Mode → Nat
  | .numeric => 0b0001
  | .alphanumeric => 0b0010
  | .byte => 0b0100
  | .kanji => 0b1000

/-- CCI_WIDTH(mode, v): the width of the character-count indicator (R177). -/
def cciWidth (mode : Mode) (v : Nat) : Nat :=
  if v ≤ 9 then
    match mode with
    | .numeric => 10
    | .alphanumeric => 9
    | .byte => 8
    | .kanji => 8
  else if v ≤ 26 then
    match mode with
    | .numeric => 12
    | .alphanumeric => 11
    | .byte => 16
    | .kanji => 10
  else
    match mode with
    | .numeric => 14
    | .alphanumeric => 13
    | .byte => 16
    | .kanji => 12

/-! ### The codeword table (R180): ECC_PER_BLOCK and NUM_BLOCKS -/

/-- A version's row of R180: for each level, EC codewords per block and number of blocks. -/
structure EccRow where
  l : Nat × Nat
  m : Nat × Nat
  q : Nat × Nat
  h : Nat × Nat
  deriving DecidableEq, Repr

def eccRows0 : List EccRow :=
  [{ l := (7, 1), m := (10, 1), q := (13, 1), h := (17, 1) },
   { l := (10, 1), m := (16, 1), q := (22, 1), h := (28, 1) },
   { l := (15, 1), m := (26, 1), q := (18, 2), h := (22, 2) },
   { l := (20, 1), m := (18, 2), q := (26, 2), h := (16, 4) },
   { l := (26, 1), m := (24, 2), q := (18, 4), h := (22, 4) },
   { l := (18, 2), m := (16, 4), q := (24, 4), h := (28, 4) },
   { l := (20, 2), m := (18, 4), q := (18, 6), h := (26, 5) },
   { l := (24, 2), m := (22, 4), q := (22, 6), h := (26, 6) },
   { l := (30, 2), m := (22, 5), q := (20, 8), h := (24, 8) },
   { l := (18, 4), m := (26, 5), q := (24, 8), h := (28, 8) }]

def eccRows1 : List EccRow :=
  [{ l := (20, 4), m := (30, 5), q := (28, 8), h := (24, 11) },
   { l := (24, 4), m := (22, 8), q := (26, 10), h := (28, 11) },
   { l := (26, 4), m := (22, 9), q := (24, 12), h := (22, 16) },
   { l := (30, 4), m := (24, 9), q := (20, 16), h := (24, 16) },
   { l := (22, 6), m := (24, 10), q := (30, 12), h := (24, 18) },
   { l := (24, 6), m := (28, 10), q := (24, 17), h := (30, 16) },
   { l := (28, 6), m := (28, 11), q := (28, 16), h := (28, 19) },
   { l := (30, 6), m := (26, 13), q := (28, 18), h := (28, 21) },
   { l := (28, 7), m := (26, 14), q := (26, 21), h := (26, 25) },
   { l := (28, 8), m := (26, 16), q := (30, 20), h := (28, 25) }]

def eccRows2 : List EccRow :=
  [{ l := (28, 8), m := (26, 17), q := (28, 23), h := (30, 25) },
   { l := (28, 9), m := (28, 17), q := (30, 23), h := (24, 34) },
   { l := (30, 9), m := (28, 18), q := (30, 25), h := (30, 30) },
   { l := (30, 10), m := (28, 20), q := (30, 27), h := (30, 32) },
   { l := (26, 12), m := (28, 21), q := (30, 29), h := (30, 35) },
   { l := (28, 12), m := (28, 23), q := (28, 34), h := (30, 37) },
   { l := (30, 12), m := (28, 25), q := (30, 34), h := (30, 40) },
   { l := (30, 13), m := (28, 26), q := (30, 35), h := (30, 42) },
   { l := (30, 14), m := (28, 28), q := (30, 38), h := (30, 45) },
   { l := (30, 15), m := (28, 29), q := (30, 40), h := (30, 48) }]

def eccRows3 : List EccRow :=
  [{ l := (30, 16), m := (28, 31), q := (30, 43), h := (30, 51) },
   { l := (30, 17), m := (28, 33), q := (30, 45), h := (30, 54) },
   { l := (30, 18), m := (28, 35), q := (30, 48), h := (30, 57) },
   { l := (30, 19), m := (28, 37), q := (30, 51), h := (30, 60) },
   { l := (30, 19), m := (28, 38), q := (30, 53), h := (30, 63) },
   { l := (30, 20), m := (28, 40), q := (30, 56), h := (30, 66) },
   { l := (30, 21), m := (28, 43), q := (30, 59), h := (30, 70) },
   { l := (30, 22), m := (28, 45), q := (30, 62), h := (30, 74) },
   { l := (30, 24), m := (28, 47), q := (30, 65), h := (30, 77) },
   { l := (30, 25), m := (28, 49), q := (30, 68), h := (30, 81) }]

/-- The rows of versions 1 to 40. -/
def eccTable : List EccRow := eccRows0 ++ eccRows1 ++ eccRows2 ++ eccRows3

/-- The row of a version; outside 1..40, where R180 has none, all zero (log 13). -/
def eccRow (v : Nat) : EccRow :=
  if v = 0 then { l := (0, 0), m := (0, 0), q := (0, 0), h := (0, 0) }
  else eccTable.getD (v - 1) { l := (0, 0), m := (0, 0), q := (0, 0), h := (0, 0) }

/-- A level's entry of a row. -/
def EccRow.entry (r : EccRow) : Level → Nat × Nat
  | .L => r.l
  | .M => r.m
  | .Q => r.q
  | .H => r.h

/-- ECC_PER_BLOCK(v, level) (R180). -/
def eccPerBlock (v : Nat) (l : Level) : Nat := ((eccRow v).entry l).1

/-- NUM_BLOCKS(v, level) (R180). -/
def numBlocks (v : Nat) (l : Level) : Nat := ((eccRow v).entry l).2

/-- N(v) = 4v + 17, the side of the matrix (R6, R280). -/
def sideOf (v : Nat) : Nat := 4 * v + 17

/-- A(v) of R301: the modules of the alignment patterns, less those shared with the timing patterns. -/
def alignModules (v : Nat) : Nat := if v ≤ 1 then 0 else (25 * (v / 7 + 2) - 10) * (v / 7 + 2) - 55

/-- V(v) of R301: the modules of the version information. -/
def versionModules (v : Nat) : Nat := if 7 ≤ v then 36 else 0

/-- RAW(v), the number of data modules (R300), by the closed form of R301. -/
def rawModules (v : Nat) : Nat := (16 * v + 128) * v + 64 - alignModules v - versionModules v

/-- TOTAL_CW(v) = RAW(v) div 8 (R179). -/
def totalCodewords (v : Nat) : Nat := rawModules v / 8

/-- REM(v) = RAW(v) mod 8, the number of remainder bits (R179, R264). -/
def remainderBits (v : Nat) : Nat := rawModules v % 8

/-- DATA_CW(v, level) = TOTAL_CW(v) - ECC_PER_BLOCK · NUM_BLOCKS (R179). -/
def dataCodewords (v : Nat) (l : Level) : Nat := totalCodewords v - eccPerBlock v l * numBlocks v l

/-! ### The alignment coordinates (R287) -/

def alignRows0 : List (List Nat) :=
  [[],
   [6, 18],
   [6, 22],
   [6, 26],
   [6, 30],
   [6, 34],
   [6, 22, 38],
   [6, 24, 42],
   [6, 26, 46],
   [6, 28, 50],
   [6, 30, 54],
   [6, 32, 58],
   [6, 34, 62],
   [6, 26, 46, 66]]

def alignRows1 : List (List Nat) :=
  [[6, 26, 48, 70],
   [6, 26, 50, 74],
   [6, 30, 54, 78],
   [6, 30, 56, 82],
   [6, 30, 58, 86],
   [6, 34, 62, 90],
   [6, 28, 50, 72, 94],
   [6, 26, 50, 74, 98],
   [6, 30, 54, 78, 102],
   [6, 28, 54, 80, 106],
   [6, 32, 58, 84, 110],
   [6, 30, 58, 86, 114],
   [6, 34, 62, 90, 118],
   [6, 26, 50, 74, 98, 122]]

def alignRows2 : List (List Nat) :=
  [[6, 30, 54, 78, 102, 126],
   [6, 26, 52, 78, 104, 130],
   [6, 30, 56, 82, 108, 134],
   [6, 34, 60, 86, 112, 138],
   [6, 30, 58, 86, 114, 142],
   [6, 34, 62, 90, 118, 146],
   [6, 30, 54, 78, 102, 126, 150],
   [6, 24, 50, 76, 102, 128, 154],
   [6, 28, 54, 80, 106, 132, 158],
   [6, 32, 58, 84, 110, 136, 162],
   [6, 26, 54, 82, 110, 138, 166],
   [6, 30, 58, 86, 114, 142, 170]]

/-- The rows of versions 1 to 40. -/
def alignTable : List (List Nat) := alignRows0 ++ alignRows1 ++ alignRows2

/-- ALIGN_POS(v) (R287); no coordinates outside 1..40 (log 13). -/
def alignPos (v : Nat) : List Nat := if v = 0 then [] else alignTable.getD (v - 1) []

end Sys2Proof.Machine
end

