-- ==== Sys2Proof/Machine/Operands.lean ====
section
/-! DEFINITION. The operand forms: the immediate classes (30_encoding.md R112), the operand registers as numbers, and
the segment descriptors with their characters (41_segments_version.md R171 to R174). -/

namespace Sys2Proof.Machine

open Sys2Proof

/-! ### Immediate classes (R112): BAD_OPERAND(IMM) outside the legal range -/

/-- NBITS: 1..32. -/
def checkNbits (n : Nat) : Except CommandError Unit :=
  if n < 1 ∨ 32 < n then .error (raise .badOperand n) else .ok ()

/-- FMTSEL: IMM[7:6] = 0 and IMM[3] = 0. -/
def checkFmtSel (sel : Nat) : Except CommandError Unit :=
  if sel / 64 ≠ 0 ∨ sel / 8 % 2 ≠ 0 then .error (raise .badOperand sel) else .ok ()

/-- VERNUM: 7..40. -/
def checkVerNum (v : Nat) : Except CommandError Unit :=
  if v < 7 ∨ Config.vMax < v then .error (raise .badOperand v) else .ok ()

/-- MASK: 0..7. -/
def checkMask (m : Nat) : Except CommandError Unit :=
  if 7 < m then .error (raise .badOperand m) else .ok ()

/-- NSEG, at most 16 (R47). -/
def State.checkNseg (s : State) : Except CommandError Unit :=
  if Config.nsegMax < s.operand.nseg.toNat then .error (raise .badOperand s.operand.nseg.toNat) else .ok ()

/-- SEGIDX: 0..NSEG-1. -/
def State.checkSegIdx (s : State) (i : Nat) : Except CommandError Unit :=
  if s.operand.nseg.toNat ≤ i then .error (raise .badOperand i) else .ok ()

/-- RS_DEG, 1..30 (R49). -/
def State.checkDegree (s : State) : Except CommandError Unit :=
  let d := s.operand.rsDeg.toNat
  if d < 1 ∨ Config.ecMaxDeg < d then .error (raise .badOperand d) else .ok ()

/-- RS_LEN, 1..255 - RS_DEG, and RS_SRC + RS_LEN at most 4096, in that order (R50, R51, R235). -/
def State.checkBlock (s : State) : Except CommandError Unit :=
  let d := s.operand.rsDeg.toNat
  let k := s.operand.rsLen.toNat
  let src := s.operand.rsSrc.toNat
  if k < 1 ∨ 255 - d < k then .error (raise .badOperand k)
  else if Config.dcwSize < src + k then .error (raise .badOperand src)
  else .ok ()

/-! ### Segment descriptors (R171) -/

/-- A descriptor as it stands in SEGTAB: two words. -/
structure Descriptor where
  word0 : Word
  word1 : Word
  deriving DecidableEq, Repr

/-- Descriptor i: SEGTAB bytes 8i .. 8i+7, two little-endian words (R64, R171). -/
def State.descriptor (s : State) (i : Nat) : Descriptor :=
  { word0 := BitVec.ofNat 32 (leValue (s.bytes .segtab (8 * i) 4))
    word1 := BitVec.ofNat 32 (leValue (s.bytes .segtab (8 * i + 4) 4)) }

/-- MODE = word0[1:0] (R171). -/
def Descriptor.mode (d : Descriptor) : Mode := .ofBits (d.word0.extractLsb' 0 2)

/-- word0[31:2], which must be 0 (R171). -/
def Descriptor.reserved (d : Descriptor) : Nat := (d.word0.extractLsb' 2 30).toNat

/-- START = word1[15:0], the offset of the first byte in INBUF (R171). -/
def Descriptor.start (d : Descriptor) : Nat := (d.word1.extractLsb' 0 16).toNat

/-- LEN = word1[31:16], the length in INBUF bytes (R171). -/
def Descriptor.len (d : Descriptor) : Nat := (d.word1.extractLsb' 16 16).toNat

/-- The character count: LEN, or LEN / 2 for KANJI (R173). -/
def Descriptor.count (d : Descriptor) : Nat :=
  match d.mode with
  | .numeric | .alphanumeric | .byte => d.len
  | .kanji => d.len / 2

/-- The bytes of a segment: INBUF[START .. START+LEN-1] (R171). -/
def State.segmentBytes (s : State) (d : Descriptor) : List Byte := s.bytes .inbuf d.start d.len

/-- The detail word `(i << 16) | j` of segment i and byte offset j (R403). -/
def segmentInfo (i j : Nat) : Nat := (i <<< 16) ||| j

/-- `checkDesc(i)` (R172). -/
def checkDesc (d : Descriptor) (i : Nat) : Except CommandError Unit :=
  if d.reserved ≠ 0 then .error (raise .badOperand i)
  else if Config.inbufSize < d.start + d.len then .error (raise .badOperand i)
  else if d.mode = .kanji ∧ d.len % 2 = 1 then .error (raise .unsupportedCharacter (segmentInfo i (d.len - 1)))
  else .ok ()

/-! ### Characters (R174, R175) -/

/-- A NUMERIC character: '0'..'9' (R174). -/
def isDigit (b : Byte) : Bool := decide (0x30 ≤ b.toNat) && decide (b.toNat ≤ 0x39)

/-- The value of an ALPHANUMERIC character, `none` outside the 45-character set (R175). -/
def alnumValue (b : Byte) : Option Nat :=
  let c := b.toNat
  if 0x30 ≤ c ∧ c ≤ 0x39 then some (c - 0x30)
  else if 0x41 ≤ c ∧ c ≤ 0x5A then some (c - 0x41 + 10)
  else
    match c with
    | 0x20 => some 36
    | 0x24 => some 37
    | 0x25 => some 38
    | 0x2A => some 39
    | 0x2B => some 40
    | 0x2D => some 41
    | 0x2E => some 42
    | 0x2F => some 43
    | 0x3A => some 44
    | _ => none

/-- The codes of a KANJI segment: pairs of bytes, high byte first (R174). -/
def kanjiCodes : List Byte → List Nat
  | hi :: lo :: rest => (hi.toNat * 256 + lo.toNat) :: kanjiCodes rest
  | [_] => []
  | [] => []

/-- An accepted KANJI code (R174, D53). -/
def isKanji (w : Nat) : Bool :=
  (decide (0x8140 ≤ w ∧ w ≤ 0x9FFC) || decide (0xE040 ≤ w ∧ w ≤ 0xEBBF)) &&
    decide (0x40 ≤ w % 256 ∧ w % 256 ≤ 0xFC) && decide (w % 256 ≠ 0x7F)

/-- The byte offset of a segment's first bad character (R174): each byte, or each even offset for KANJI. -/
def firstBadOffset (mode : Mode) (chars : List Byte) : Option Nat :=
  match mode with
  | .numeric => chars.findIdx? fun b => !isDigit b
  | .alphanumeric => chars.findIdx? fun b => (alnumValue b).isNone
  | .byte => none
  | .kanji => ((kanjiCodes chars).findIdx? fun w => !isKanji w).map (2 * ·)

/-- The error a bad character of a mode raises (R174, D28). -/
def badCharacterError : Mode → ErrorKind
  | .numeric | .alphanumeric | .byte => .invalidMode
  | .kanji => .unsupportedCharacter

/-- `checkChars(i)` (R174). -/
def checkChars (d : Descriptor) (i : Nat) (chars : List Byte) : Except CommandError Unit :=
  match firstBadOffset d.mode chars with
  | some j => .error (raise (badCharacterError d.mode) (segmentInfo i j))
  | none => .ok ()

/-- `checkDesc(i); checkChars(i)`: the descriptor before the characters (R181, R209, R404). -/
def State.checkSegment (s : State) (i : Nat) : Except CommandError Unit :=
  let d := s.descriptor i
  match checkDesc d i with
  | .error e => .error e
  | .ok () => checkChars d i (s.segmentBytes d)

/-- The check of several segments, in order; the first failure is reported (R404). -/
def State.checkSegments (s : State) : List Nat → Except CommandError Unit
  | [] => .ok ()
  | i :: is =>
    match s.checkSegment i with
    | .error e => .error e
    | .ok () => s.checkSegments is

end Sys2Proof.Machine
end

