-- ==== Sys2Proof/Machine/Gf.lean ====
section
/-! DEFINITION. The GF(256) arithmetic unit (40_gf.md): field multiplication and the commands gf.mul, gf.pow, gf.log
and gf.exp. -/

namespace Sys2Proof.Machine

open Sys2Proof

/-- `r << 1` reduced by p(x) = 0x11D when the coefficient of x^7 was 1: the low 8 bits of XOR with 0x11D (R142). -/
def timesAlpha (r : Byte) : Byte := (r <<< 1) ^^^ (if r.getLsbD 7 then 0x1D else 0)

/-- One turn of R142's loop: shift and reduce, then add a when bit i of b is 1. -/
def mulStep (a b r : Byte) (i : Nat) : Byte := timesAlpha r ^^^ (if b.getLsbD i then a else 0)

/-- `a ⊗ b`, field multiplication by shift and reduce (R9, R142): i from 7 down to 0. -/
def mulp (a b : Byte) : Byte := [7, 6, 5, 4, 3, 2, 1, 0].foldl (mulStep a b) 0

/-- `α^i = EXP[i mod 255]` (R9). -/
def alphaPow (i : Nat) : Byte := expRom (i % 255)

/-- The product of gf.mul, through the tables (R146). -/
def gfProduct (a b : Byte) : Byte :=
  if a = 0 ∨ b = 0 then 0 else expRom (((logRom a.toNat).toNat + (logRom b.toNat).toNat) % 255)

/-- The multiplicative inverse of a non-zero byte, EXP[(255 - LOG[a]) mod 255] (R150 law 3). No command computes it. -/
def gfInverse (a : Byte) : Byte := expRom ((255 - (logRom a.toNat).toNat) % 255)

/-- The power of gf.pow (R147). -/
def gfPower (a e : Byte) : Byte :=
  if e = 0 then 1 else if a = 0 then 0 else expRom (((logRom a.toNat).toNat * e.toNat) % 255)

/-- `GF_R <- r`. -/
def State.setGfR (s : State) (r : Byte) : State := { s with result := { s.result with gfR := r } }

/-- The body of `gf.mul` (R146). -/
def gfMulBody (s : State) : Except CommandError State := .ok (s.setGfR (gfProduct s.operand.gfA s.operand.gfB))

/-- `gf.mul` (R146). -/
def execGfMul (s : State) : Host.Outcome State Fault Refusal := finish s (gfMulBody s)

/-- The body of `gf.pow` (R147). -/
def gfPowBody (s : State) : Except CommandError State := .ok (s.setGfR (gfPower s.operand.gfA s.operand.gfE))

/-- `gf.pow` (R147). -/
def execGfPow (s : State) : Host.Outcome State Fault Refusal := finish s (gfPowBody s)

/-- The body of `gf.log` (R148): log(0) raises GF_LOG_ZERO. -/
def gfLogBody (s : State) : Except CommandError State :=
  if s.operand.gfA = 0 then .error (raise .gfLogZero 0) else .ok (s.setGfR (logRom s.operand.gfA.toNat))

/-- `gf.log` (R148). -/
def execGfLog (s : State) : Host.Outcome State Fault Refusal := finish s (gfLogBody s)

/-- The body of `gf.exp` (R149). -/
def gfExpBody (s : State) : Except CommandError State := .ok (s.setGfR (expRom s.operand.gfA.toNat))

/-- `gf.exp` (R149). -/
def execGfExp (s : State) : Host.Outcome State Fault Refusal := finish s (gfExpBody s)

end Sys2Proof.Machine
end

