-- ==== Sys2Proof/Machine/Ecc.lean ====
section
/-! DEFINITION. The Reed-Solomon encoder (43_ecc.md): the commands rs.gen and rs.enc. Polynomials are coefficient
lists, highest degree first. -/

namespace Sys2Proof.Machine

open Sys2Proof

/-- Multiply a polynomial by (x ⊕ a): c'[j] = c[j] ⊕ (c[j-1] ⊗ a) (R231). -/
def timesLinear (c : List Byte) (a : Byte) : List Byte :=
  List.zipWith (· ^^^ ·) (c ++ [0]) (0 :: c.map fun x => mulp x a)

/-- `genPoly(d)`: the product of (x ⊕ α^i) for i = 0..d-1 (R231). -/
def genPoly : Nat → List Byte
  | 0 => [1]
  | d + 1 => timesLinear (genPoly d) (alphaPow d)

/-- One turn of the division register: f = D_j ⊕ r_0, shift, and r_t ⊕ (c_{t+1} ⊗ f) (R234). -/
def divStep (c r : List Byte) (x : Byte) : List Byte :=
  let f := x ^^^ r.headD 0
  List.zipWith (fun t g => t ^^^ mulp g f) (r.tail ++ [0]) c.tail

/-- `rsRemainder(D, d)`: the EC codewords of a data block (R234). -/
def rsRemainder (block : List Byte) (d : Nat) : List Byte :=
  block.foldl (divStep (genPoly d)) (List.replicate d 0)

/-- A list of bytes cut or filled with 0 to 32 bytes, as GENB and ECB are written (R68, R69). -/
def fill32 (bs : List Byte) : List Byte := (bs ++ List.replicate 32 0).take 32

/-- The body of `rs.gen` (R233). -/
def rsGenBody (s : State) : Except CommandError State :=
  match s.checkDegree with
  | .error e => .error e
  | .ok () => .ok (s.setBytes .genb 0 (fill32 (genPoly s.operand.rsDeg.toNat)))

/-- `rs.gen` (R233). -/
def execRsGen (s : State) : Host.Outcome State Fault Refusal := finish s (rsGenBody s)

/-- The body of `rs.enc` (R235). -/
def rsEncBody (s : State) : Except CommandError State :=
  match s.checkDegree with
  | .error e => .error e
  | .ok () =>
    match s.checkBlock with
    | .error e => .error e
    | .ok () =>
      let block := s.bytes .dcw s.operand.rsSrc.toNat s.operand.rsLen.toNat
      .ok (s.setBytes .ecb 0 (fill32 (rsRemainder block s.operand.rsDeg.toNat)))

/-- `rs.enc` (R235). -/
def execRsEnc (s : State) : Host.Outcome State Fault Refusal := finish s (rsEncBody s)

end Sys2Proof.Machine
end

