-- ==== Sys2Proof/Machine/Interleave.lean ====
section
/-! DEFINITION. Block split and codeword interleaver (44_interleave.md): the command ileave. -/

namespace Sys2Proof.Machine

open Sys2Proof

/-- The data length of a short block, T div nb - ec (R260). -/
def shortLen (v : Nat) (l : Level) : Nat := totalCodewords v / numBlocks v l - eccPerBlock v l

/-- The data lengths of the blocks: short blocks first, long blocks one codeword longer (R260). -/
def blockLengths (v : Nat) (l : Level) : List Nat :=
  let nlong := totalCodewords v % numBlocks v l
  List.replicate (numBlocks v l - nlong) (shortLen v l) ++ List.replicate nlong (shortLen v l + 1)

/-- Cut a sequence into blocks of given lengths, in order (R260). -/
def splitBlocks (bytes : List Byte) : List Nat → List (List Byte)
  | [] => []
  | n :: ns => bytes.take n :: splitBlocks (bytes.drop n) ns

/-- Column i of a list of blocks: the i-th codeword of each block that has one, in block order (R262). -/
def column (blocks : List (List Byte)) (i : Nat) : List Byte := blocks.filterMap (·[i]?)

/-- Round-robin over all blocks for the first n columns (R262). -/
def roundRobin (blocks : List (List Byte)) (n : Nat) : List Byte := (List.range n).flatMap (column blocks)

/-- The final codeword sequence of the data codewords of a version and level (R262, R263). -/
def finalCodewords (v : Nat) (l : Level) (data : List Byte) : List Byte :=
  let blocks := splitBlocks data (blockLengths v l)
  let ecs := blocks.map fun b => rsRemainder b (eccPerBlock v l)
  roundRobin blocks (shortLen v l + 1) ++ roundRobin ecs (eccPerBlock v l)

/-- LEVEL as a level (R60). -/
def State.level (s : State) : Level := .ofBits s.result.level

/-- The body of `ileave` (R263). -/
def ileaveBody (s : State) : Except CommandError State :=
  if !s.phase.canInterleave then .error s.sequenceError
  else
    let data := s.bytes .dcw 0 s.result.dataCw.toNat
    let s' := s.setBytes .fcw 0 (finalCodewords s.result.version.toNat s.level data)
    .ok { s' with phase := s.phase.afterIleave }

/-- `ileave` (R263). -/
def execIleave (s : State) : Host.Outcome State Fault Refusal := finish s (ileaveBody s)

end Sys2Proof.Machine
end

