-- ==== Sys2Proof/Machine/Matrix.lean ====
section
/-! DEFINITION. The matrix builder (45_matrix.md): the module matrix, the commands mx.init, mx.func, mx.place, bch.fmt
and bch.ver, and the format write of R302. -/

namespace Sys2Proof.Machine

open Sys2Proof

/-! ### Modules and the grid (R70, R280) -/

/-- The role of a module (R281). -/
inductive Role where
  | empty | function | data | reserved
  deriving DecidableEq, Repr

/-- A module: its colour (DARK or LIGHT) and its role (R280). -/
structure Module where
  dark : Bool
  role : Role
  deriving DecidableEq, Repr

/-- The number of a role in bits [2:1] (R70). -/
def Role.toBits : Role → BitVec 2
  | .empty => 0
  | .function => 1
  | .data => 2
  | .reserved => 3

/-- The role of bits [2:1] (R70). -/
def Role.ofBits (b : BitVec 2) : Role :=
  match b.toNat with
  | 0 => .empty
  | 1 => .function
  | 2 => .data
  | _ => .reserved

/-- The byte of a module: bit 0 colour, bits [2:1] role, bits [7:3] 0 (R70). -/
def Module.toByte (m : Module) : Byte := (0#5 ++ m.role.toBits) ++ BitVec.ofBool m.dark

/-- The module a byte of MX holds (R70). -/
def Module.ofByte (b : Byte) : Module := { dark := b.getLsbD 0, role := .ofBits (b.extractLsb' 1 2) }

/-- LIGHT and EMPTY: the module MX_INIT writes (R282). -/
def Module.blank : Module := { dark := false, role := .empty }

/-- A module written by a function pattern (R281). -/
def functionModule (dark : Bool) : Module := { dark := dark, role := .function }

/-- The index of module (r, c) in MX: 177·r + c (R70, R280). -/
def moduleIndex (r c : Nat) : Nat := Config.mxStride * r + c

/-- `MX[r][c]` (R10). -/
def State.moduleAt (s : State) (r c : Nat) : Module := .ofByte (s.buf .mx (moduleIndex r c))

/-- The symbol part of the matrix as a command works on it: N rows of N modules. -/
abbrev Grid := List (List Module)

/-- A module of a grid. -/
def Grid.get (g : Grid) (r c : Nat) : Module := (g.getD r []).getD c .blank

/-- A grid with module (r, c) written. -/
def Grid.set (g : Grid) (r c : Nat) (m : Module) : Grid := g.modify r fun row => row.set c m

/-- Cut a row-major byte sequence of stride 177 into `rows` rows of n modules. -/
def gridRows (n : Nat) : Nat → List Byte → Grid
  | 0, _ => []
  | rows + 1, bs => (bs.take n).map Module.ofByte :: gridRows n rows (bs.drop Config.mxStride)

/-- The side N of the current symbol, 4·VERSION + 17 (R11). -/
def State.side (s : State) : Nat := sideOf s.result.version.toNat

/-- The modules (r, c), r, c < N, of MX. -/
def State.grid (s : State) : Grid := gridRows s.side s.side (s.bytes .mx 0 (Config.mxStride * s.side))

/-- The cells of a row where the new modules differ from the old ones. -/
def changedCells : Nat → List Module → List Module → List Host.Cell
  | a, old :: olds, new :: news =>
    if old = new then changedCells (a + 1) olds news else (a, new.toByte) :: changedCells (a + 1) olds news
  | _, _, _ => []

/-- The cells of a grid where the new modules differ from the old ones, rows from `a` on at stride 177. -/
def changedRows : Nat → Grid → Grid → List Host.Cell
  | a, old :: olds, new :: news => changedCells a old new ++ changedRows (a + Config.mxStride) olds news
  | _, _, _ => []

/-- Write a changed grid back to MX: a module that keeps its colour and role is not written (log 16). -/
def State.setGrid (s : State) (g : Grid) : State := s.store (changedRows (Region.base .mx) s.grid g)

/-! ### Function patterns (R283 to R294) -/

/-- A module to be written and what to write. -/
structure Placement where
  row : Nat
  col : Nat
  mod : Module
  deriving DecidableEq, Repr

/-- |a - b|. -/
def distance (a b : Nat) : Nat := (a - b) + (b - a)

/-- One finder pattern with its separator, centre (cr, cc), clipped to the matrix (R284). Offset dr is i - 4. -/
def finderAt (n cr cc : Nat) : List Placement :=
  (List.range 9).flatMap fun i => (List.range 9).filterMap fun j =>
    if 4 ≤ cr + i ∧ cr + i < n + 4 ∧ 4 ≤ cc + j ∧ cc + j < n + 4 then
      let d := max (distance i 4) (distance j 4)
      some ⟨cr + i - 4, cc + j - 4, functionModule (decide (d ≤ 1 ∨ d = 3))⟩
    else none

/-- The three finder patterns: centres (3, 3), (3, N-4), (N-4, 3) (R284). -/
def finderPatterns (n : Nat) : List Placement :=
  finderAt n 3 3 ++ finderAt n 3 (n - 4) ++ finderAt n (n - 4) 3

/-- The centres of the alignment patterns: all pairs of coordinates but the three that fall on finders (R286). -/
def alignCentres (v : Nat) : List (Nat × Nat) :=
  let ps := alignPos v
  let first := ps.headD 0
  let last := ps.getLastD 0
  (ps.flatMap fun a => ps.map fun b => (a, b)).filter fun p =>
    !(decide (p = (first, first)) || decide (p = (first, last)) || decide (p = (last, first)))

/-- Module (r, c) lies in an alignment pattern's 5×5 footprint (R286). -/
def inAlignment (v r c : Nat) : Bool :=
  (alignCentres v).any fun p => decide (distance r p.1 ≤ 2) && decide (distance c p.2 ≤ 2)

/-- The timing patterns: row 6 and column 6, k = 8 .. N-9, dark at even k, less the alignment footprints (R285). -/
def timingPatterns (v : Nat) : List Placement :=
  (List.range' 8 (sideOf v - 16)).flatMap fun k =>
    (if inAlignment v 6 k then [] else [⟨6, k, functionModule (decide (k % 2 = 0))⟩]) ++
      (if inAlignment v k 6 then [] else [⟨k, 6, functionModule (decide (k % 2 = 0))⟩])

/-- One alignment pattern (R286). Offset dr is i - 2. -/
def alignmentAt (p : Nat × Nat) : List Placement :=
  (List.range 5).flatMap fun i => (List.range 5).map fun j =>
    ⟨p.1 + i - 2, p.2 + j - 2, functionModule (decide (max (distance i 2) (distance j 2) ≠ 1))⟩

/-- All alignment patterns (R286). -/
def alignmentPatterns (v : Nat) : List Placement := (alignCentres v).flatMap alignmentAt

/-- The dark module (N-8, 8) (R289). -/
def darkModule (n : Nat) : Placement := ⟨n - 8, 8, functionModule true⟩

/-- FPOS1(i) (R290). -/
def formatPos1 (i : Nat) : Nat × Nat :=
  if i ≤ 5 then (i, 8) else if i = 6 then (7, 8) else if i = 7 then (8, 8) else if i = 8 then (8, 7) else (8, 14 - i)

/-- FPOS2(i) (R290). -/
def formatPos2 (n i : Nat) : Nat × Nat := if i ≤ 7 then (8, n - 1 - i) else (n - 15 + i, 8)

/-- The reservation of the 30 format modules: LIGHT, RESERVED (R281, R290). -/
def formatReservation (n : Nat) : List Placement :=
  (List.range 15).flatMap fun i =>
    [⟨(formatPos1 i).1, (formatPos1 i).2, ⟨false, .reserved⟩⟩,
     ⟨(formatPos2 n i).1, (formatPos2 n i).2, ⟨false, .reserved⟩⟩]

/-- One turn of a BCH reduction: shift left and XOR the generator when bit `top` was 1 (R292, R294). -/
def bchStep (generator : BitVec 18) (top : Nat) (r : BitVec 18) : BitVec 18 :=
  (r <<< 1) ^^^ (if r.getLsbD top then generator else 0)

/-- n turns of a BCH reduction. -/
def bchReduce (generator : BitVec 18) (top : Nat) : Nat → BitVec 18 → BitVec 18
  | 0, r => r
  | n + 1, r => bchReduce generator top n (bchStep generator top r)

/-- The level bits of the format word: L '01', M '00', Q '11', H '10' (R292). -/
def Level.formatBits : Level → Nat
  | .L => 1
  | .M => 0
  | .Q => 3
  | .H => 2

/-- `fmtWord(level, m)` (R292). -/
def fmtWord (l : Level) (m : Nat) : BitVec 18 :=
  let d := BitVec.ofNat 18 (l.formatBits * 8 + m)
  ((d <<< 10) ||| bchReduce 0x537 9 10 d) ^^^ 0x5412

/-- `verWord(v)` (R294). -/
def verWord (v : Nat) : BitVec 18 :=
  let d := BitVec.ofNat 18 v
  (d <<< 12) ||| bchReduce 0x1F25 11 12 d

/-- The version information, for v ≥ 7 only: bit i at (i div 3, N-11 + i mod 3) and mirrored (R294). -/
def versionInformation (v : Nat) : List Placement :=
  if v < 7 then []
  else
    let n := sideOf v
    (List.range 18).flatMap fun i =>
      let b := functionModule ((verWord v).getLsbD i)
      [⟨i / 3, n - 11 + i % 3, b⟩, ⟨n - 11 + i % 3, i / 3, b⟩]

/-- Everything MX_FUNC writes, in its order (R283). -/
def functionPlacements (v : Nat) : List Placement :=
  let n := sideOf v
  finderPatterns n ++ timingPatterns v ++ alignmentPatterns v ++ darkModule n :: formatReservation n ++
    versionInformation v

/-- `setF` and the reservation, one after another (R281): a module that is not EMPTY raises OVERLAP((r << 8) | c). -/
def placeAll (g : Grid) : List Placement → Except CommandError Grid
  | [] => .ok g
  | p :: ps =>
    if (g.get p.row p.col).role ≠ .empty then .error (raise .overlap ((p.row <<< 8) ||| p.col))
    else placeAll (g.set p.row p.col p.mod) ps

/-! ### Data placement (R297, R298) -/

/-- The right columns of the two-column strips: from N-1 down by two, column 6 never a strip column (R297's loop; the
first argument bounds its turns). -/
def stripColumns : Nat → Nat → List Nat
  | 0, _ => []
  | turns + 1, right =>
    if right < 1 then []
    else
      let right := if right = 6 then 5 else right
      right :: stripColumns turns (right - 2)

/-- The modules of a strip in order: upward when (right + 1) AND 2 is 0, right column first (R297). -/
def stripModules (n right : Nat) : List (Nat × Nat) :=
  (List.range n).flatMap fun vert =>
    let r := if (right + 1) &&& 2 = 0 then n - 1 - vert else vert
    [(r, right), (r, right - 1)]

/-- `zigzag(N)` before the EMPTY test (R297). -/
def zigzagAll (n : Nat) : List (Nat × Nat) := (stripColumns n (n - 1)).flatMap (stripModules n)

/-- `zigzag(N)`: the EMPTY modules of a grid in order (R297). Each is visited once, so the test sees it unwritten. -/
def zigzag (n : Nat) (g : Grid) : List (Nat × Nat) :=
  (zigzagAll n).filter fun p => decide ((g.get p.1 p.2).role = .empty)

/-- The placement bits: the codewords, each MSB first, then REM(v) zeros (R298). -/
def placementBits (codewords : List Byte) (rem : Nat) : List Bool :=
  (codewords.flatMap fun b => bitSeq b.toNat 8) ++ List.replicate rem false

/-- Write one bit into each module of a sequence, as role DATA (R299). There are as many bits as EMPTY modules (R300);
a module beyond them would get a further zero (log 15). -/
def placeBits (g : Grid) : List (Nat × Nat) → List Bool → Grid
  | [], _ => g
  | p :: ps, [] => placeBits (g.set p.1 p.2 ⟨false, .data⟩) ps []
  | p :: ps, b :: bs => placeBits (g.set p.1 p.2 ⟨b, .data⟩) ps bs

/-! ### The format write (R302) -/

/-- The placements of `writeFormat(level, m)` (R302). -/
def formatPlacements (n : Nat) (l : Level) (m : Nat) : List Placement :=
  (List.range 15).flatMap fun i =>
    let b := functionModule ((fmtWord l m).getLsbD i)
    [⟨(formatPos1 i).1, (formatPos1 i).2, b⟩, ⟨(formatPos2 n i).1, (formatPos2 n i).2, b⟩]

/-- Write modules without the EMPTY test (R281: the format write makes none). -/
def overwriteAll (g : Grid) : List Placement → Grid
  | [] => g
  | p :: ps => overwriteAll (g.set p.row p.col p.mod) ps

/-! ### The commands -/

/-- The body of `mx.init` (R282): all 31,329 bytes 0. -/
def mxInitBody (s : State) : Except CommandError State :=
  if !s.phase.canInit then .error s.sequenceError
  else .ok { s.setBytes .mx 0 (List.replicate (Region.size .mx) 0) with phase := s.phase.afterInit }

/-- `mx.init` (R282). -/
def execMxInit (s : State) : Host.Outcome State Fault Refusal := finish s (mxInitBody s)

/-- The body of `mx.func` (R291). -/
def mxFuncBody (s : State) : Except CommandError State :=
  if !s.phase.canFunc then .error s.sequenceError
  else
    match placeAll s.grid (functionPlacements s.result.version.toNat) with
    | .error e => .error e
    | .ok g => .ok { s.setGrid g with phase := s.phase.afterFunc }

/-- `mx.func` (R291). -/
def execMxFunc (s : State) : Host.Outcome State Fault Refusal := finish s (mxFuncBody s)

/-- The body of `mx.place` (R299). -/
def mxPlaceBody (s : State) : Except CommandError State :=
  if !s.phase.canPlace then .error s.sequenceError
  else
    let codewords := s.bytes .fcw 0 s.result.totalCw.toNat
    let bits := placementBits codewords (remainderBits s.result.version.toNat)
    .ok { s.setGrid (placeBits s.grid (zigzag s.side s.grid) bits) with phase := s.phase.afterPlace }

/-- `mx.place` (R299). -/
def execMxPlace (s : State) : Host.Outcome State Fault Refusal := finish s (mxPlaceBody s)

/-- `BCH_R <- r`. -/
def State.setBchR (s : State) (r : BitVec 18) : State := { s with result := { s.result with bchR := r } }

/-- The body of `bch.fmt sel` (R295): level = sel[5:4], mask = sel[2:0]. -/
def bchFmtBody (sel : Nat) (s : State) : Except CommandError State :=
  match checkFmtSel sel with
  | .error e => .error e
  | .ok () => .ok (s.setBchR (fmtWord (.ofBits (BitVec.ofNat 2 (sel / 16))) (sel % 8)))

/-- `bch.fmt sel` (R295). -/
def execBchFmt (sel : Nat) (s : State) : Host.Outcome State Fault Refusal := finish s (bchFmtBody sel s)

/-- The body of `bch.ver v` (R296). -/
def bchVerBody (v : Nat) (s : State) : Except CommandError State :=
  match checkVerNum v with
  | .error e => .error e
  | .ok () => .ok (s.setBchR (verWord v))

/-- `bch.ver v` (R296). -/
def execBchVer (v : Nat) (s : State) : Host.Outcome State Fault Refusal := finish s (bchVerBody v s)

end Sys2Proof.Machine
end

