-- ==== Sys2Proof/Machine/Bus.lean ====
section
/-! DEFINITION. The host's bus (20_memory.md): the register map as it reads and as it is written, and the access
primitives MemRead and MemWrite of R88. -/

namespace Sys2Proof.Machine

open Sys2Proof

/-- The constant of the ID register (R31). -/
def idWord : Word := 0x51524531

/-- A register as it reads, by its offset in the register block (10_state.md section 2). Unused bits, CMD and the
reserved offsets read 0 (R34, R85). -/
def State.readRegister (s : State) (offset : Nat) : Word :=
  match offset with
  | 0x000 => idWord
  | 0x004 => s.ctrlWord
  | 0x008 => s.statusWord
  | 0x010 => s.errCode.setWidth 32
  | 0x014 => s.errInfo
  | 0x018 => s.phase.word
  | 0x020 => s.operand.gfA.setWidth 32
  | 0x024 => s.operand.gfB.setWidth 32
  | 0x028 => s.operand.gfE.setWidth 32
  | 0x02C => s.result.gfR.setWidth 32
  | 0x030 => s.operand.cfgLevel.setWidth 32
  | 0x034 => s.operand.cfgVersion.setWidth 32
  | 0x038 => s.operand.nseg.setWidth 32
  | 0x03C => s.operand.bsValue
  | 0x040 => s.operand.rsDeg.setWidth 32
  | 0x044 => s.operand.rsLen.setWidth 32
  | 0x048 => s.operand.rsSrc.setWidth 32
  | 0x04C => s.result.bchR.setWidth 32
  | 0x050 => s.result.version.setWidth 32
  | 0x054 => s.result.size.setWidth 32
  | 0x058 => s.result.dataCw.setWidth 32
  | 0x05C => s.result.totalCw.setWidth 32
  | 0x060 => s.result.bitLen.setWidth 32
  | 0x064 => s.result.reqBits.setWidth 32
  | 0x068 => s.result.maskId.setWidth 32
  | 0x06C => s.result.level.setWidth 32
  | 0x070 => s.result.penN1
  | 0x074 => s.result.penN2
  | 0x078 => s.result.penN3
  | 0x07C => s.result.penN4
  | 0x080 => s.result.penDark
  | 0x0A0 => s.result.penalty[0]
  | 0x0A4 => s.result.penalty[1]
  | 0x0A8 => s.result.penalty[2]
  | 0x0AC => s.result.penalty[3]
  | 0x0B0 => s.result.penalty[4]
  | 0x0B4 => s.result.penalty[5]
  | 0x0B8 => s.result.penalty[6]
  | 0x0BC => s.result.penalty[7]
  | _ => 0

/-- Update the operand registers. -/
def State.setOperand (s : State) (o : OperandRegs) : State := { s with operand := o }

/-- A word written to a register, by its offset: the effect of the register's rule (R88). Bits a register does not use
are not stored (10_state.md section 2); read-only and reserved offsets ignore the write (R85, R86). A CMD write while
idle is an acceptance (R34). -/
def State.writeRegister (s : State) (offset : Nat) (v : Word) : State :=
  match offset with
  | 0x004 => s.writeCtrl v
  | 0x008 => s.writeStatus v
  | 0x00C => s.accept v
  | 0x020 => s.setOperand { s.operand with gfA := v.setWidth 8 }
  | 0x024 => s.setOperand { s.operand with gfB := v.setWidth 8 }
  | 0x028 => s.setOperand { s.operand with gfE := v.setWidth 8 }
  | 0x030 => s.setOperand { s.operand with cfgLevel := v.setWidth 2 }
  | 0x034 => s.setOperand { s.operand with cfgVersion := v.setWidth 6 }
  | 0x038 => s.setOperand { s.operand with nseg := v.setWidth 5 }
  | 0x03C => s.setOperand { s.operand with bsValue := v }
  | 0x040 => s.setOperand { s.operand with rsDeg := v.setWidth 8 }
  | 0x044 => s.setOperand { s.operand with rsLen := v.setWidth 8 }
  | 0x048 => s.setOperand { s.operand with rsSrc := v.setWidth 12 }
  | _ => s

/-- `byteRead` outside the register block (R88): the ROMs, the buffers, and 0 for a reserved byte (R81, R85). -/
def State.readByte (s : State) (a : Nat) : Byte :=
  if 0x0100 ≤ a ∧ a < 0x0200 then expRom (a - 0x0100)
  else if 0x0200 ≤ a ∧ a < 0x0300 then logRom (a - 0x0200)
  else
    match regionAt a with
    | some g => s.buf g (a - g.base)
    | none => 0

/-- The host may write this buffer (D46, R86). -/
def Region.hostWritable : Region → Bool
  | .segtab | .inbuf | .dcw => true
  | .ecb | .genb | .fcw | .mx => false

/-- `byteWrite` outside the register block (R88): ignored unless the buffer is host-writable (R85, R86). -/
def State.writeByte (s : State) (a : Nat) (b : Byte) : State :=
  match regionAt a with
  | some g => if g.hostWritable then s.store [(a, b)] else s
  | none => s

/-- The n bytes at an address, little-endian (R83). -/
def State.readBytes (s : State) (a : Nat) : Nat → List Byte
  | 0 => []
  | n + 1 => s.readByte a :: s.readBytes (a + 1) n

/-- Write bytes at addresses in a row (R83, R88). -/
def State.writeBytes (s : State) (a : Nat) : List Byte → State
  | [] => s
  | b :: bs => (s.writeByte a b).writeBytes (a + 1) bs

/-- The access is answered with a bus error: misaligned, or narrower than a word in the register block (R84, R88). -/
def accessError (a : Addr) (n : Width) : Bool :=
  decide (a.toNat % n.bytes ≠ 0) || (decide (a.toNat < 0x100) && decide (n ≠ .four))

/-- The registers a read reaches while BUSY: ID, CTRL and STATUS (R90). -/
def readableWhileBusy (a : Nat) : Bool := decide (a = 0x000) || decide (a = 0x004) || decide (a = 0x008)

/-- The registers a write reaches while BUSY: CTRL and STATUS (R90). -/
def writableWhileBusy (a : Nat) : Bool := decide (a = 0x004) || decide (a = 0x008)

/-- The low 8n bits of a word. -/
def lowBytes (n : Width) (v : Word) : Word :=
  match n with
  | .one => (v.setWidth 8).setWidth 32
  | .two => (v.setWidth 16).setWidth 32
  | .four => v

/-- What the bus answers the host with (log 8). -/
def State.setPort (s : State) (p : Option Word) : State := { s with port := p }

/-- The value a host read at `a` of width n returns outside BUSY (R88). -/
def State.busValue (s : State) (a : Nat) (n : Width) : Word :=
  if a < 0x100 then s.readRegister a else BitVec.ofNat 32 (leValue (s.readBytes a n.bytes))

/-- `MemRead(a, n)` (R88), for an access that is no bus error: the answer goes to the port. While BUSY, a read of
anything but ID, CTRL and STATUS is answered with a fresh draw of 8n bits (R90; log 6). -/
def State.busRead (s : State) (a : Addr) (n : Width) : State :=
  if s.busy && !readableWhileBusy a.toNat then
    { s.setPort (some (lowBytes n (Config.busyRead s.draws))) with draws := s.draws + 1 }
  else s.setPort (some (s.busValue a.toNat n))

/-- The bytes of a write of width n (R83). -/
def writtenBytes (n : Width) (v : Word) : List Byte := (List.range n.bytes).map (byteOfWord v)

/-- `MemWrite(a, n, v)` (R88), for an access that is no bus error. While BUSY, a write to anything but CTRL and STATUS
is dropped and sets OVR (R90). -/
def State.busWrite (s : State) (a : Addr) (n : Width) (v : Word) : State :=
  if s.busy && !writableWhileBusy a.toNat then { s.setPort none with ovr := true }
  else if a.toNat < 0x100 then (s.writeRegister a.toNat v).setPort none
  else (s.writeBytes a.toNat (writtenBytes n v)).setPort none

end Sys2Proof.Machine
end

