-- ==== Sys2Proof/Machine/Segments.lean ====
section
/-! DEFINITION. Capacity and version selection (41_segments_version.md): the command vsel. -/

namespace Sys2Proof.Machine

open Sys2Proof

/-- The number of data bits of n characters (R176). -/
def dataBits (mode : Mode) (n : Nat) : Nat :=
  match mode with
  | .numeric => 10 * (n / 3) + (if n % 3 = 0 then 0 else if n % 3 = 1 then 4 else 7)
  | .alphanumeric => 11 * (n / 2) + 6 * (n % 2)
  | .byte => 8 * n
  | .kanji => 13 * n

/-- `segBits(i, v)`, the cost of a segment at a version (R178). -/
def segBits (d : Descriptor) (v : Nat) : Nat := 4 + cciWidth d.mode v + dataBits d.mode d.count

/-- The segment fits the version: its count fits the indicator (R178). -/
def segFits (d : Descriptor) (v : Nat) : Bool := decide (d.count < 2 ^ cciWidth d.mode v)

/-- The bits of all segments at a version (R181). -/
def totalBits (ds : List Descriptor) (v : Nat) : Nat := (ds.map fun d => segBits d v).sum

/-- A version is acceptable: every count fits, and the bits do not exceed the capacity (R179, R181). -/
def acceptable (ds : List Descriptor) (lvl : Level) (v : Nat) : Bool :=
  (ds.all fun d => segFits d v) && decide (totalBits ds v ≤ 8 * dataCodewords v lvl)

/-- The candidates: 1..40, or the forced version alone (R181). -/
def versionCandidates (vf : Nat) : List Nat := if vf = 0 then List.range' 1 40 else [vf]

/-- The search of R181: the first acceptable candidate, or DATA_TOO_LONG with the bits of the last one examined. -/
def searchVersion (ds : List Descriptor) (lvl : Level) : List Nat → Nat → Except CommandError Nat
  | [], lastBits => .error (raise .dataTooLong (min lastBits (2 ^ 32 - 1)))
  | v :: vs, _ => if acceptable ds lvl v then .ok v else searchVersion ds lvl vs (totalBits ds v)

/-- The descriptors 0..NSEG-1 (R64). -/
def State.descriptors (s : State) : List Descriptor := (List.range s.operand.nseg.toNat).map s.descriptor

/-- CFG_VERSION, at most 40 (R46). -/
def State.checkCfgVersion (s : State) : Except CommandError Unit :=
  if Config.vMax < s.operand.cfgVersion.toNat then .error (raise .invalidVersion s.operand.cfgVersion.toNat)
  else .ok ()

/-- What VSEL writes when it chooses version v (R181). -/
def State.selectVersion (s : State) (v : Nat) : State :=
  { s with
    result :=
      { s.result with
        version := BitVec.ofNat 6 v
        level := s.operand.cfgLevel
        size := BitVec.ofNat 8 (sideOf v)
        dataCw := BitVec.ofNat 12 (dataCodewords v (.ofBits s.operand.cfgLevel))
        totalCw := BitVec.ofNat 12 (totalCodewords v)
        reqBits := BitVec.ofNat 16 (totalBits s.descriptors v) }
    phase := s.phase.afterVsel }

/-- The version VSEL chooses, or its error: the checks in R181's order. -/
def State.chooseVersion (s : State) : Except CommandError Nat :=
  match s.checkNseg with
  | .error e => .error e
  | .ok () =>
    match s.checkCfgVersion with
    | .error e => .error e
    | .ok () =>
      match s.checkSegments (List.range s.operand.nseg.toNat) with
      | .error e => .error e
      | .ok () =>
        searchVersion s.descriptors (.ofBits s.operand.cfgLevel) (versionCandidates s.operand.cfgVersion.toNat) 0

/-- The body of `vsel` (R181). -/
def vselBody (s : State) : Except CommandError State :=
  match s.chooseVersion with
  | .error e => .error e
  | .ok v => .ok (s.selectVersion v)

/-- `vsel` (R181). -/
def execVsel (s : State) : Host.Outcome State Fault Refusal := finish s (vselBody s)

end Sys2Proof.Machine
end

