-- ==== Sys2Proof/Machine/Bitstream.lean ====
section
/-! DEFINITION. The bitstream builder (42_bitstream.md): the commands bs.clear, bs.append, bs.seg and bs.finish. -/

namespace Sys2Proof.Machine

open Sys2Proof

/-! ### The append primitive (R200, R201) -/

/-- A byte with its bit i written 0 or 1, the others unchanged. -/
def setBit (x : Byte) (i : Nat) (b : Bool) : Byte :=
  if b then x ||| (1#8 <<< i) else x &&& ~~~(1#8 <<< i)

/-- Write stream bit k: bit (7 - k mod 8) of byte k div 8 (R200). -/
def putBit (buf : List Byte) (k : Nat) (b : Bool) : List Byte :=
  buf.modify (k / 8) fun x => setBit x (7 - k % 8) b

/-- Write a bit sequence from stream bit k on (R201's loop). -/
def putBits (buf : List Byte) (k : Nat) : List Bool → List Byte
  | [] => buf
  | b :: bs => putBits (putBit buf k b) (k + 1) bs

/-- `BITLEN <- n`. -/
def State.setBitLen (s : State) (n : Nat) : State := { s with result := { s.result with bitLen := BitVec.ofNat 16 n } }

/-- Append a bit sequence to the bit buffer (R201): the bytes of DCW it falls in are rewritten, and BITLEN moves on. -/
def State.appendBits (s : State) (bs : List Bool) : State :=
  match bs with
  | [] => s
  | _ :: _ =>
    let k := s.result.bitLen.toNat
    let first := k / 8
    let count := (k + bs.length + 7) / 8 - first
    let s := s.setBytes .dcw first (putBits (s.bytes .dcw first count) (k % 8) bs)
    s.setBitLen (k + bs.length)

/-! ### Segment serialisation (R204 to R208) -/

/-- The value of a digit character: its code less 0x30 (R204). -/
def digitValue (b : Byte) : Nat := b.toNat - 0x30

/-- NUMERIC data bits: groups of 3 digits in 10 bits, a last group of 2 in 7 or of 1 in 4 (R204). -/
def numericBits : List Byte → List Bool
  | a :: b :: c :: rest => bitSeq (100 * digitValue a + 10 * digitValue b + digitValue c) 10 ++ numericBits rest
  | [a, b] => bitSeq (10 * digitValue a + digitValue b) 7
  | [a] => bitSeq (digitValue a) 4
  | [] => []

/-- The value of an ALPHANUMERIC character that has passed the character check (R175). -/
def alnumCode (b : Byte) : Nat := (alnumValue b).getD 0

/-- ALPHANUMERIC data bits: pairs as 45a + b in 11 bits, a last single value in 6 (R205). -/
def alnumBits : List Byte → List Bool
  | a :: b :: rest => bitSeq (45 * alnumCode a + alnumCode b) 11 ++ alnumBits rest
  | [a] => bitSeq (alnumCode a) 6
  | [] => []

/-- BYTE data bits: 8 for each byte (R206). -/
def byteBits : List Byte → List Bool
  | [] => []
  | b :: rest => bitSeq b.toNat 8 ++ byteBits rest

/-- The 13-bit value of a KANJI code (R207). -/
def kanjiValue (w : Nat) : Nat :=
  let t := if w ≤ 0x9FFC then w - 0x8140 else w - 0xC140
  t / 256 * 0xC0 + t % 256

/-- KANJI data bits: 13 for each pair (R207). -/
def kanjiBits : List Nat → List Bool
  | [] => []
  | w :: rest => bitSeq (kanjiValue w) 13 ++ kanjiBits rest

/-- The data bits of a segment by its mode (R204 to R207). -/
def segmentDataBits (mode : Mode) (chars : List Byte) : List Bool :=
  match mode with
  | .numeric => numericBits chars
  | .alphanumeric => alnumBits chars
  | .byte => byteBits chars
  | .kanji => kanjiBits (kanjiCodes chars)

/-- `emitSegment(i, v)`: mode indicator, count indicator, data bits (R208). -/
def emitSegment (d : Descriptor) (v : Nat) (chars : List Byte) : List Bool :=
  bitSeq d.mode.indicator 4 ++ bitSeq d.count (cciWidth d.mode v) ++ segmentDataBits d.mode chars

/-! ### The commands -/

/-- The capacity in bits, 8 · DATA_CW (R179). -/
def State.capacity (s : State) : Nat := 8 * s.result.dataCw.toNat

/-- The body of `bs.clear` (R202). -/
def bsClearBody (s : State) : Except CommandError State :=
  let s := (s.setBytes .dcw 0 (List.replicate Config.dcwSize 0)).setBitLen 0
  .ok { s with phase := s.phase.afterClear }

/-- `bs.clear` (R202). -/
def execBsClear (s : State) : Host.Outcome State Fault Refusal := finish s (bsClearBody s)

/-- The body of `bs.append n` (R203). -/
def bsAppendBody (n : Nat) (s : State) : Except CommandError State :=
  if !s.phase.canBuild then .error s.sequenceError
  else
    match checkNbits n with
    | .error e => .error e
    | .ok () =>
      if s.capacity < s.result.bitLen.toNat + n then .error (raise .dataTooLong (s.result.bitLen.toNat + n))
      else .ok (s.appendBits (bitSeq (s.operand.bsValue.toNat % 2 ^ n) n))

/-- `bs.append n` (R203). -/
def execBsAppend (n : Nat) (s : State) : Host.Outcome State Fault Refusal := finish s (bsAppendBody n s)

/-- The body of `bs.seg i` (R209). -/
def bsSegBody (i : Nat) (s : State) : Except CommandError State :=
  if !s.phase.canBuild then .error s.sequenceError
  else
    match s.checkNseg with
    | .error e => .error e
    | .ok () =>
      match s.checkSegIdx i with
      | .error e => .error e
      | .ok () =>
        match s.checkSegment i with
        | .error e => .error e
        | .ok () =>
          let d := s.descriptor i
          let v := s.result.version.toNat
          if !segFits d v then .error (raise .dataTooLong d.count)
          else if s.capacity < s.result.bitLen.toNat + segBits d v then
            .error (raise .dataTooLong (s.result.bitLen.toNat + segBits d v))
          else .ok (s.appendBits (emitSegment d v (s.segmentBytes d)))

/-- `bs.seg i` (R209). -/
def execBsSeg (i : Nat) (s : State) : Host.Outcome State Fault Refusal := finish s (bsSegBody i s)

/-- The pad codewords, 0xEC and 0x11 in turn, 0xEC first (R210). -/
def padBits : Nat → Bool → List Bool
  | 0, _ => []
  | n + 1, odd => bitSeq (if odd then 0x11 else 0xEC) 8 ++ padBits n (!odd)

/-- What BS_FINISH appends to a stream of `len` bits with capacity `cap`: the terminator, the zero bits up to a byte
boundary, the pad codewords (R210). -/
def finishBits (len cap : Nat) : List Bool :=
  let terminator := min 4 (cap - len)
  let zeros := (8 - (len + terminator) % 8) % 8
  List.replicate (terminator + zeros) false ++ padBits ((cap - (len + terminator + zeros)) / 8) false

/-- The body of `bs.finish` (R210). -/
def bsFinishBody (s : State) : Except CommandError State :=
  if !s.phase.canBuild then .error s.sequenceError
  else if s.capacity < s.result.bitLen.toNat then .error (raise .dataTooLong s.result.bitLen.toNat)
  else
    let s := s.appendBits (finishBits s.result.bitLen.toNat s.capacity)
    .ok { s with phase := s.phase.afterFinish }

/-- `bs.finish` (R210). -/
def execBsFinish (s : State) : Host.Outcome State Fault Refusal := finish s (bsFinishBody s)

end Sys2Proof.Machine
end

