-- ==== Sys2Proof/Machine/Mask.lean ====
section
/-! DEFINITION. The mask-penalty evaluator and mask selector (46_mask.md): the commands mask.eval, mask.select and
mask.apply. -/

namespace Sys2Proof.Machine

open Sys2Proof

/-! ### Masks and candidates (R330 to R332) -/

/-- `mask_m(i, j)`: the module at row i, column j is inverted (R330). -/
def maskCondition (m i j : Nat) : Bool :=
  match m with
  | 0 => decide ((i + j) % 2 = 0)
  | 1 => decide (i % 2 = 0)
  | 2 => decide (j % 3 = 0)
  | 3 => decide ((i + j) % 3 = 0)
  | 4 => decide ((i / 2 + j / 3) % 2 = 0)
  | 5 => decide (i * j % 2 + i * j % 3 = 0)
  | 6 => decide ((i * j % 2 + i * j % 3) % 2 = 0)
  | _ => decide (((i + j) % 2 + i * j % 3) % 2 = 0)

/-- A module with mask m applied: only DATA modules change (R331). -/
def maskModule (m i j : Nat) (x : Module) : Module :=
  if x.role = .data ∧ maskCondition m i j then { x with dark := !x.dark } else x

/-- Apply mask m to a grid (R331). -/
def applyMask (m : Nat) (g : Grid) : Grid := g.mapIdx fun i row => row.mapIdx fun j x => maskModule m i j x

/-- The grid after mask m and the format write (R340, R341). Its colours are those of candidate m (R332). -/
def maskedGrid (n : Nat) (l : Level) (m : Nat) (g : Grid) : Grid :=
  overwriteAll (applyMask m g) (formatPlacements n l m)

/-- The colours of a grid, true for DARK. -/
def colours (g : Grid) : List (List Bool) := g.map fun row => row.map Module.dark

/-! ### The penalty rules (R333 to R337) -/

/-- The columns of an n-column colour matrix. -/
def columnsOf (n : Nat) (rows : List (List Bool)) : List (List Bool) :=
  (List.range n).map fun c => rows.map fun row => row.getD c false

/-- The 2N lines: rows, then columns. -/
def linesOf (n : Nat) (rows : List (List Bool)) : List (List Bool) := rows ++ columnsOf n rows

/-- The cost of a maximal run of length len (R333). -/
def runCost (len : Nat) : Nat := if 5 ≤ len then 3 + (len - 5) else 0

/-- The cost of the runs of a line, given the colour and the length so far of the run that is open. -/
def runsFrom (colour : Bool) (len : Nat) : List Bool → Nat
  | [] => runCost len
  | b :: bs => if b = colour then runsFrom colour (len + 1) bs else runCost len + runsFrom b 1 bs

/-- The N1 cost of a line (R333). -/
def lineN1 : List Bool → Nat
  | [] => 0
  | b :: bs => runsFrom b 1 bs

/-- N1 (R333). -/
def penaltyN1 (lines : List (List Bool)) : Nat := (lines.map lineN1).sum

/-- The number of uniform 2×2 blocks between two neighbouring rows. -/
def uniformBlocks : List Bool → List Bool → Nat
  | a :: b :: as, c :: d :: cs =>
    (if a = b ∧ c = d ∧ a = c then 1 else 0) + uniformBlocks (b :: as) (d :: cs)
  | _, _ => 0

/-- N2: 3 for each of the overlapping 2×2 blocks of one colour (R334). -/
def penaltyN2 : List (List Bool) → Nat
  | r1 :: r2 :: rows => 3 * uniformBlocks r1 r2 + penaltyN2 (r2 :: rows)
  | _ => 0

/-- P1 = 1,0,1,1,1,0,1,0,0,0,0 (R335). -/
def finderLike1 : List Bool := [true, false, true, true, true, false, true, false, false, false, false]

/-- P2 = 0,0,0,0,1,0,1,1,1,0,1 (R335). -/
def finderLike2 : List Bool := [false, false, false, false, true, false, true, true, true, false, true]

/-- The number of windows of a line equal to P1 or to P2: each start t whose window lies in the line (R335). -/
def finderWindows : List Bool → Nat
  | [] => 0
  | b :: bs =>
    (if finderLike1.isPrefixOf (b :: bs) then 1 else 0) + (if finderLike2.isPrefixOf (b :: bs) then 1 else 0) +
      finderWindows bs

/-- The N3 cost of a line under a variant (R335). -/
def lineN3 (variant : Config.N3Variant) (line : List Bool) : Nat :=
  match variant with
  | .window11 => 40 * finderWindows line
  | .quietZone11 => 40 * finderWindows (List.replicate 4 false ++ line ++ List.replicate 4 false)

/-- N3 (R335). -/
def penaltyN3 (variant : Config.N3Variant) (lines : List (List Bool)) : Nat := (lines.map (lineN3 variant)).sum

/-- The number of DARK modules. -/
def darkCount (rows : List (List Bool)) : Nat := (rows.map fun row => row.count true).sum

/-- N4 = 10 · floor(|20·dark - 10·N²| / N²) (R336). -/
def penaltyN4 (n dark : Nat) : Nat := 10 * (distance (20 * dark) (10 * (n * n)) / (n * n))

/-- score(m) = (N1, N2, N3, N4, dark) (R337). -/
structure Score where
  n1 : Nat
  n2 : Nat
  n3 : Nat
  n4 : Nat
  dark : Nat
  deriving DecidableEq, Repr

/-- penalty(m) = N1 + N2 + N3 + N4 (R337). -/
def Score.total (x : Score) : Nat := x.n1 + x.n2 + x.n3 + x.n4

/-- The score of an N×N colour matrix (R333 to R337). -/
def scoreColours (variant : Config.N3Variant) (n : Nat) (rows : List (List Bool)) : Score :=
  let lines := linesOf n rows
  { n1 := penaltyN1 lines, n2 := penaltyN2 rows, n3 := penaltyN3 variant lines, n4 := penaltyN4 n (darkCount rows),
    dark := darkCount rows }

/-- `score(candidate(m))` on the current matrix (R332, R337). -/
def State.score (s : State) (m : Nat) : Score :=
  scoreColours Config.n3Variant s.side (colours (maskedGrid s.side s.level m s.grid))

/-- The index of the smallest of a list, the lowest one among equals, given the best so far (R338). -/
def argMinFrom (best bestVal : Nat) : Nat → List Nat → Nat
  | _, [] => best
  | i, x :: xs => if x < bestVal then argMinFrom i x (i + 1) xs else argMinFrom best bestVal (i + 1) xs

/-- Selection: the mask with the lowest total, ties to the lowest id (R338). -/
def selectMask (scores : List Score) : Nat :=
  match scores.map Score.total with
  | [] => 0
  | x :: xs => argMinFrom 0 x 1 xs

/-! ### The commands -/

/-- Write PEN_N1 to PEN_N4 and PEN_DARK (R61). -/
def ResultRegs.withScore (r : ResultRegs) (x : Score) : ResultRegs :=
  { r with penN1 := BitVec.ofNat 32 x.n1, penN2 := BitVec.ofNat 32 x.n2, penN3 := BitVec.ofNat 32 x.n3,
           penN4 := BitVec.ofNat 32 x.n4, penDark := BitVec.ofNat 32 x.dark }

/-- The body of `mask.eval m` (R339). -/
def maskEvalBody (m : Nat) (s : State) : Except CommandError State :=
  if !s.phase.canMask then .error s.sequenceError
  else
    match checkMask m with
    | .error e => .error e
    | .ok () =>
      let x := s.score m
      .ok { s with
        result := { s.result.withScore x with
          penalty := s.result.penalty.setIfInBounds m (BitVec.ofNat 32 x.total) } }

/-- `mask.eval m` (R339). -/
def execMaskEval (m : Nat) (s : State) : Host.Outcome State Fault Refusal := finish s (maskEvalBody m s)

/-- Apply mask m, write its format information, MASKID and K: the common part of MASK_SELECT and MASK_APPLY
(R340, R341). -/
def State.commitMask (s : State) (m : Nat) : State :=
  let s' := s.setGrid (maskedGrid s.side s.level m s.grid)
  { s' with result := { s'.result with maskId := BitVec.ofNat 3 m }, phase := s'.phase.afterMask }

/-- The body of `mask.select` (R340). -/
def maskSelectBody (s : State) : Except CommandError State :=
  if !s.phase.canMask then .error s.sequenceError
  else
    let scores := (List.range 8).map s.score
    let best := selectMask scores
    let s' := s.commitMask best
    .ok { s' with
      result := { s'.result.withScore (s.score best) with
        penalty := Vector.ofFn fun m : Fin 8 => BitVec.ofNat 32 (s.score m.val).total } }

/-- `mask.select` (R340). -/
def execMaskSelect (s : State) : Host.Outcome State Fault Refusal := finish s (maskSelectBody s)

/-- The body of `mask.apply m` (R341). -/
def maskApplyBody (m : Nat) (s : State) : Except CommandError State :=
  if !s.phase.canMask then .error s.sequenceError
  else
    match checkMask m with
    | .error e => .error e
    | .ok () => .ok (s.commitMask m)

/-- `mask.apply m` (R341). -/
def execMaskApply (m : Nat) (s : State) : Host.Outcome State Fault Refusal := finish s (maskApplyBody m s)

end Sys2Proof.Machine
end

