-- ==== Sys2Proof/Machine/Control.lean ====
section
/-! DEFINITION. Symbol assembler and control (47_control.md): the commands nop and encode. -/

namespace Sys2Proof.Machine

open Sys2Proof

/-- The body of `nop`: skip (R370). -/
def nopBody (s : State) : Except CommandError State := .ok s

/-- `nop` (R370). -/
def execNop (s : State) : Host.Outcome State Fault Refusal := finish s (nopBody s)

/-- `step X` (R371): perform a body, then go on; an error stops the sequence. -/
def andThen (r : Except CommandError State) (f : State → Except CommandError State) : Except CommandError State :=
  match r with
  | .error e => .error e
  | .ok s => f s

/-- `for i in ...: step bs.seg i` (R371). -/
def bsSegAll : List Nat → State → Except CommandError State
  | [], s => .ok s
  | i :: is, s => andThen (bsSegBody i s) (bsSegAll is)

/-- The body of `encode`: the fixed sequence of R371. Its undo is `finish`'s (R372). -/
def encodeBody (s : State) : Except CommandError State :=
  andThen (vselBody s) fun s =>
  andThen (bsClearBody s) fun s =>
  andThen (bsSegAll (List.range s.operand.nseg.toNat) s) fun s =>
  andThen (bsFinishBody s) fun s =>
  andThen (ileaveBody s) fun s =>
  andThen (mxInitBody s) fun s =>
  andThen (mxFuncBody s) fun s =>
  andThen (mxPlaceBody s) fun s =>
  maskSelectBody s

/-- `encode` (R371). -/
def execEncode (s : State) : Host.Outcome State Fault Refusal := finish s (encodeBody s)

end Sys2Proof.Machine
end

