-- ==== Sys2Proof/Machine/Dispatch.lean ====
section
/-! DEFINITION. The dispatch: one arm for each command, each one direct call of its meaning. -/

namespace Sys2Proof.Machine

def exec (i : Instr) (s : State) : Host.Outcome State Fault Refusal :=
  match i with
  | .nop => Sys2Proof.Machine.execNop s
  | .encode => Sys2Proof.Machine.execEncode s
  | .gfMul => Sys2Proof.Machine.execGfMul s
  | .gfPow => Sys2Proof.Machine.execGfPow s
  | .gfLog => Sys2Proof.Machine.execGfLog s
  | .gfExp => Sys2Proof.Machine.execGfExp s
  | .vsel => Sys2Proof.Machine.execVsel s
  | .bsClear => Sys2Proof.Machine.execBsClear s
  | .bsAppend n => Sys2Proof.Machine.execBsAppend n s
  | .bsSeg idx => Sys2Proof.Machine.execBsSeg idx s
  | .bsFinish => Sys2Proof.Machine.execBsFinish s
  | .rsGen => Sys2Proof.Machine.execRsGen s
  | .rsEnc => Sys2Proof.Machine.execRsEnc s
  | .ileave => Sys2Proof.Machine.execIleave s
  | .mxInit => Sys2Proof.Machine.execMxInit s
  | .mxFunc => Sys2Proof.Machine.execMxFunc s
  | .mxPlace => Sys2Proof.Machine.execMxPlace s
  | .bchFmt sel => Sys2Proof.Machine.execBchFmt sel s
  | .bchVer v => Sys2Proof.Machine.execBchVer v s
  | .maskEval m => Sys2Proof.Machine.execMaskEval m s
  | .maskSelect => Sys2Proof.Machine.execMaskSelect s
  | .maskApply m => Sys2Proof.Machine.execMaskApply m s

end Sys2Proof.Machine
end

