-- ==== Sys2Proof/Machine/Turn.lean ====
section
/-! DEFINITION. The turns of the two agents (10_state.md R30): the engine completes a command in flight (R400 step 2),
and the host or the platform makes its next event happen. -/

namespace Sys2Proof.Machine

open Sys2Proof

/-- The engine's turn: decode the latched word and execute it (R400); an illegal word completes with ILLEGAL_COMMAND,
ERRINFO = the word (R114). With no command in flight it is idle, which changes no state (R415). -/
def engineTurn (s : State) : Host.Outcome State Fault Refusal :=
  match s.latch with
  | none => .next s
  | some w =>
    match decode w with
    | .ok i => exec i s
    | .error _ => finish s (.error { kind := .illegalCommand, info := w })

/-- An event at the head of the list, already taken off it. A bus error is a fault of the host agent (R89). A reset
also empties the port (log 18). -/
def eventTurn (e : BusEvent) (s : State) : Host.Outcome State Fault Refusal :=
  match e with
  | .engine => engineTurn s
  | .read a n => if accessError a n then .fault (.busError a n) else .next (s.busRead a n)
  | .write a n v => if accessError a n then .fault (.busError a n) else .next (s.busWrite a n v)
  | .hardReset => .next (s.resetKeepingRam.setPort none)
  | .powerOn => .next (s.powerOn.setPort none)

end Sys2Proof.Machine
end

