-- ==== Sys2Proof/Machine/Step.lean ====
section
/-! DEFINITION. One step of the machine, and how an instruction is put where the next step runs it. -/

namespace Sys2Proof.Machine

open Sys2Proof

/-- One step: the next event of the list; the engine's turn when the list is empty (log 1). -/
def step (s : State) : Host.Outcome State Fault Refusal :=
  match s.inbox with
  | [] => engineTurn s
  | e :: rest => eventTurn e { s with inbox := rest }

/-- The state with a command word accepted (R400 step 1) and the engine's turn next: QRE fetches nothing (R96), and the
command to execute is the latched one (R71), so this is where the next step takes its instruction (log 2). -/
def State.withFetchWord (s : State) (nbits w : Nat) : State :=
  { s.accept (BitVec.ofNat 32 (w % 2 ^ nbits)) with inbox := .engine :: s.inbox }

end Sys2Proof.Machine
end

