-- ==== Sys2Proof/Safety.lean ====
section
/-! DEFINITION. The words the statements use, and what holds in every state a run reaches: the invariant `State.Inv` and its
parts. A statement that needs a reachable state names the parts it needs. -/

namespace Sys2Proof.Machine

open Sys2Proof

/-! ### Words the statements use -/

/-- The value at x of a polynomial given by its coefficients, highest degree first (R231, R234). -/
def evalPoly (c : List Byte) (x : Byte) : Byte := c.foldl (fun acc k => mulp acc x ^^^ k) 0

/-- The bits of the segments 0..NSEG-1 at version v (R181). -/
def State.bitsAt (s : State) (v : Nat) : Nat :=
  ((List.range s.operand.nseg.toNat).map fun i => segBits (s.descriptor i) v).sum

/-- VSEL's test of version v at level CFG_LEVEL: every count fits its indicator, and the bits fit the capacity (R181). -/
abbrev State.Acceptable (s : State) (v : Nat) : Prop :=
  (∀ i, i < s.operand.nseg.toNat → (s.descriptor i).count < 2 ^ cciWidth (s.descriptor i).mode v) ∧
  s.bitsAt v ≤ 8 * dataCodewords v (.ofBits s.operand.cfgLevel)

/-- The versions VSEL examines: 1..40, or the forced one alone (R181). -/
abbrev State.Candidate (s : State) (v : Nat) : Prop :=
  1 ≤ v ∧ v ≤ 40 ∧ (s.operand.cfgVersion.toNat = 0 ∨ v = s.operand.cfgVersion.toNat)

/-- The host issues commands one at a time, each to a successful completion (R374): accept, complete, go on. -/
def runCommands : List Instr → State → Option State
  | [], s => some s
  | i :: is, s =>
    match exec i (s.accept (encode i)) with
    | .next t => if t.err then none else runCommands is t
    | .fault _ => none
    | .refused _ => none

/-- Stream bit k: bit (7 - k mod 8) of DCW[k div 8] (R200). -/
def State.streamBit (s : State) (k : Nat) : Bool := (s.buf .dcw (k / 8)).getLsbD (7 - k % 8)

/-! ### The invariant -/

/-- Memory is in canonical form, and a written MX byte has bits [7:3] = 0 (R70). -/
abbrev State.MemoryOk (s : State) : Prop :=
  s.mem.wf ∧ ∀ x ∈ s.mem, regionAt x.1 = some .mx → x.2.toNat < 8

/-- The error codes of R401, and 0 for none. -/
def errorCodes : List Byte := [0x00, 0x01, 0x02, 0x03, 0x04, 0x10, 0x11, 0x20, 0x21, 0x22]

/-- The status record: while a command is in flight the record is clear (R400), a command ends in one way (R402, R405),
and ERRCODE is a code of R401. -/
abbrev State.StatusOk (s : State) : Prop :=
  (s.busy = true → s.done = false ∧ s.err = false ∧ s.errCode = 0 ∧ s.errInfo = 0) ∧
  (s.done = true → s.err = false ∧ s.errCode = 0 ∧ s.errInfo = 0) ∧
  (s.err = true → s.errCode ≠ 0) ∧
  s.errCode ∈ errorCodes

/-- The phase invariants of R40: C ⇒ F ⇒ V and K ⇒ D ⇒ P ⇒ M ⇒ V. -/
abbrev Phase.Ok (p : Phase) : Prop :=
  (p.c = true → p.f = true) ∧ (p.f = true → p.v = true) ∧ (p.k = true → p.d = true) ∧ (p.d = true → p.p = true) ∧
  (p.p = true → p.m = true) ∧ (p.m = true → p.v = true)

/-- The symbol registers: the values VSEL wrote for one version and level (R181), or 0 before any VSEL (R53 to R56). -/
abbrev State.SymbolOk (s : State) : Prop :=
  if s.phase.v then
    1 ≤ s.result.version.toNat ∧ s.result.version.toNat ≤ 40 ∧
    s.result.size.toNat = sideOf s.result.version.toNat ∧
    s.result.dataCw.toNat = dataCodewords s.result.version.toNat s.level ∧
    s.result.totalCw.toNat = totalCodewords s.result.version.toNat ∧
    s.result.reqBits.toNat ≤ s.capacity
  else s.result.version = 0 ∧ s.result.size = 0 ∧ s.result.dataCw = 0 ∧ s.result.totalCw = 0 ∧ s.result.reqBits = 0

/-- The bit buffer: BITLEN is at most 32768 (R57), and a finished stream fills the capacity (R210). -/
abbrev State.StreamOk (s : State) : Prop :=
  s.result.bitLen.toNat ≤ 32768 ∧ (s.phase.f = true → s.result.bitLen.toNat = s.capacity)

/-- What MX_FUNC puts at module (r, c) of version v: a function pattern's module, a reserved one, or none (blank)
(R283 to R294). -/
def placedModule (v r c : Nat) : Module :=
  match (functionPlacements v).find? fun p => decide (p.row = r) && decide (p.col = c) with
  | some p => p.mod
  | none => .blank

/-- What a module may be, by the phase, where MX_FUNC puts `placed`: blank before MX_FUNC; then as placed, but that
MX_PLACE makes the EMPTY ones DATA and a mask command makes the RESERVED ones FUNCTION (R281, R299, R302). -/
abbrev ModuleOk (p : Phase) (placed m : Module) : Prop :=
  (p.p = false → m = .blank) ∧
  (p.p = true → placed.role = .function → m = placed) ∧
  (p.p = true → placed.role = .reserved → (p.k = false → m = placed) ∧ (p.k = true → m.role = .function)) ∧
  (p.p = true → placed.role = .empty → (p.d = false → m = .blank) ∧ (p.d = true → m.role = .data))

/-- The matrix of the current symbol is at the stage the phase says. -/
abbrev State.MatrixOk (s : State) : Prop :=
  s.phase.m = true →
    ∀ r, r < s.side → ∀ c, c < s.side → ModuleOk s.phase (placedModule s.result.version.toNat r c) (s.moduleAt r c)

/-- Byte i of MX lies outside the symbol's N×N modules. -/
abbrev State.outside (s : State) (i : Nat) : Prop := ¬ (i / 177 < s.side ∧ i % 177 < s.side)

/-- Once MX_INIT has run, the modules outside N×N read as 0 (R282). -/
abbrev State.MarginOk (s : State) : Prop :=
  s.phase.m = true → ∀ i, i < 31329 → s.outside i → s.buf .mx i = 0

/-- The invariant: every step keeps it, and the reset state has it. -/
structure State.Inv (s : State) : Prop where
  memory : s.MemoryOk
  status : s.StatusOk
  phase : s.phase.Ok
  symbol : s.SymbolOk
  stream : s.StreamOk
  matrix : s.MatrixOk
  margin : s.MarginOk

end Sys2Proof.Machine
end

