-- ==== Sys2Proof/Certificates/Slice0/Obligations.lean ====
section
/-! DEFINITION. The statements about the model, one definition each, in the order of OBLIGATIONS.json. Memory is read
through `State.readByte`, the model's read of one byte at a bus address. A statement about one command says what it
writes and that everything else stays: the fields it does not name are those of the state before. -/

open Sys2Proof Sys2Proof.Machine

/-! ### Reset, step, decoding -/

/-- R441: after a hard reset ID reads 0x51524531, every other register reads 0, no command is pending, `irq` is 0; the
ROMs hold their tables, and every RAM byte is its draw (R443; the draws are free values, log 3). -/
def Obligations.ResetState : Prop :=
  (∀ offset, State.reset.readRegister offset = if offset = 0 then 0x51524531 else 0) ∧
  State.reset.latch = none ∧ State.reset.irq = false ∧
  (∀ i, i < 256 → State.reset.readByte (0x100 + i) = expRom i ∧ State.reset.readByte (0x200 + i) = logRom i) ∧
  (∀ g : Region, ∀ i, i < g.size → State.reset.readByte (g.base + i) = State.reset.draw g (g.base + i))

/-- The reset state has the invariant. -/
def Obligations.ResetHasInvariant : Prop := State.reset.Inv

/-- Every step keeps the invariant: canonical memory, the status record, the phase invariants of R40, the symbol
registers, the bit buffer, and the matrix at the stage the phase says. -/
def Obligations.StepKeepsInvariant : Prop :=
  ∀ s t : State, s.Inv → step s = .next t → t.Inv

/-- R400: a step with the engine's turn runs the command the latched word decodes to; and an accepted command word is
what the next step after `withFetchWord` runs (log 1, log 2). -/
def Obligations.StepRunsLatchedCommand : Prop :=
  (∀ (s : State) (w : Word) (i : Instr), s.latch = some w → decode w = .ok i →
    (s.inbox = [] → step s = exec i s) ∧
    (∀ rest, s.inbox = .engine :: rest → step s = exec i { s with inbox := rest })) ∧
  (∀ (s : State) (w : Word) (i : Instr), decode w = .ok i → step (s.withFetchWord 32 w.toNat) = exec i (s.accept w))

/-- R34, R400 step 1: a CMD write while BUSY = 0 latches the word, sets BUSY and clears DONE, ERR, ERRCODE and ERRINFO;
while BUSY = 1 it is dropped and sets OVR; CMD reads 0. Nothing else changes. -/
def Obligations.CmdWriteIssuesCommand : Prop :=
  ∀ (s : State) (w : Word) (rest : List BusEvent), s.inbox = .write 0x00C .four w :: rest →
    (s.busy = false → ∃ t, step s = .next t ∧ t.busy = true ∧
      t = { s with inbox := rest, port := none, latch := some w, done := false, err := false, errCode := 0,
                   errInfo := 0 }) ∧
    (s.busy = true → step s = .next { s with inbox := rest, port := none, ovr := true }) ∧
    s.readRegister 0x00C = 0

/-- R114: a word is illegal iff RSV ≠ 0, or OPC is not one of the 22 values, or OPC has class NONE and IMM ≠ 0; an
accepted illegal word completes with ILLEGAL_COMMAND, ERRINFO = the word, and has no other effect. -/
def Obligations.IllegalWordCompletes : Prop :=
  (∀ w : Word, (∀ i, decode w ≠ .ok i) ↔
    w.toNat / 65536 ≠ 0 ∨
    w.toNat % 256 ∉ [0x00, 0x01, 0x10, 0x11, 0x12, 0x13, 0x20, 0x30, 0x31, 0x32, 0x33, 0x40, 0x41, 0x42, 0x50, 0x51,
      0x52, 0x53, 0x54, 0x60, 0x61, 0x62] ∨
    (w.toNat % 256 ∈ [0x00, 0x01, 0x10, 0x11, 0x12, 0x13, 0x20, 0x30, 0x33, 0x40, 0x41, 0x42, 0x50, 0x51, 0x52, 0x61] ∧
      w.toNat / 256 % 256 ≠ 0)) ∧
  (∀ (s : State) (w : Word) (rest : List BusEvent), (∀ i, decode w ≠ .ok i) → s.busy = false →
    s.inbox = .write 0x00C .four w :: .engine :: rest →
    ∃ t, step s = .next t ∧ t.busy = true ∧
      step t = .next { s with inbox := rest, port := none, latch := none, done := false, err := true, errCode := 0x20,
                              errInfo := w })

/-- R119: the command-word examples. -/
def Obligations.CommandWordExamples : Prop :=
  decode 0x00000010 = .ok .gfMul ∧ decode 0x00000D31 = .ok (.bsAppend 13) ∧ decode 0x00000232 = .ok (.bsSeg 2) ∧
  decode 0x00001553 = .ok (.bchFmt 0x15) ∧ decode 0x00000754 = .ok (.bchVer 7) ∧
  decode 0x00000660 = .ok (.maskEval 6) ∧ decode 0x00000001 = .ok .encode ∧
  decode 0x00010010 = .error .reservedField ∧ decode 0x00000110 = .error .immediateNotZero ∧
  decode 0x00000014 = .error .unknownOpcode

/-- Every well-formed command, with every immediate its field admits, is read back from its word (R110, R111, R113). -/
def Obligations.DecodeOfEncode : Prop :=
  ∀ i : Instr, i.WellFormed → decode (encode i) = .ok i

/-- Every word that decodes is the one word of its command, and the command is well-formed (R110 to R113). -/
def Obligations.EncodeOfDecode : Prop :=
  ∀ (w : Word) (i : Instr), decode w = .ok i →
    encode i = w ∧ i.WellFormed ∧ (i.immClass = .none → w.toNat / 256 = 0)

/-! ### The bus -/

/-- R84: an access to the register block must be a 4-byte access at a 4-aligned address; any other one there is answered
with a bus error, which stops the model (R89; log 7). No other access is one but a misaligned one. -/
def Obligations.RegisterBlockBusErrors : Prop :=
  ∀ (s : State) (a : Addr) (n : Width) (rest : List BusEvent),
    (s.inbox = .read a n :: rest ∨ ∃ v, s.inbox = .write a n v :: rest) →
    (a.toNat < 0x100 → (n ≠ .four ∨ a.toNat % 4 ≠ 0) → step s = .fault (.busError a n)) ∧
    (a.toNat < 0x100 → n = .four → a.toNat % 4 = 0 → ∃ t, step s = .next t) ∧
    (0x100 ≤ a.toNat → a.toNat % n.bytes ≠ 0 → step s = .fault (.busError a n)) ∧
    (0x100 ≤ a.toNat → a.toNat % n.bytes = 0 → ∃ t, step s = .next t)

/-- R90: while BUSY = 1 a read of ID, CTRL or STATUS returns its value, any other read a fresh draw; a write to STATUS
or CTRL takes effect, any other write is dropped and sets OVR; bus errors take priority. (The draw is the free value
`Config.busyRead`, log 6: whatever it is, each read takes the next one.) -/
def Obligations.AccessWhileBusy : Prop :=
  ∀ (s : State) (a : Addr) (n : Width) (v : Word) (rest : List BusEvent), s.busy = true →
    (s.inbox = .read a n :: rest →
      (accessError a n = true → step s = .fault (.busError a n)) ∧
      (accessError a n = false → a.toNat ∈ [0x000, 0x004, 0x008] →
        step s = .next { s with inbox := rest, port := some (s.readRegister a.toNat) }) ∧
      (accessError a n = false → a.toNat ∉ [0x000, 0x004, 0x008] →
        step s = .next { s with inbox := rest, port := some (lowBytes n (Config.busyRead s.draws)),
                                draws := s.draws + 1 })) ∧
    (s.inbox = .write a n v :: rest →
      (accessError a n = true → step s = .fault (.busError a n)) ∧
      (accessError a n = false → a.toNat = 0x004 →
        step s = .next { { s with inbox := rest }.writeCtrl v with port := none }) ∧
      (accessError a n = false → a.toNat = 0x008 →
        step s = .next { { s with inbox := rest }.writeStatus v with port := none }) ∧
      (accessError a n = false → a.toNat ∉ [0x004, 0x008] →
        step s = .next { s with inbox := rest, port := none, ovr := true }))

/-- R83: an n-byte read at a outside the register block returns Σ byte(a + j)·2^(8j), and changes nothing (R87); an
n-byte write of v writes byte(a + j) ← v[8j+7:8j] where the byte is host-writable, SEGTAB, INBUF or DCW (R81, R86), and
leaves every other byte and every register unchanged. -/
def Obligations.HostAccessIsLittleEndian : Prop :=
  (∀ (s : State) (a : Addr) (n : Width) (rest : List BusEvent), s.busy = false → 0x100 ≤ a.toNat →
    a.toNat % n.bytes = 0 → s.inbox = .read a n :: rest →
    ∃ v : Word, step s = .next { s with inbox := rest, port := some v } ∧
      v.toNat = ((List.range n.bytes).map fun j => (s.readByte (a.toNat + j)).toNat * 2 ^ (8 * j)).sum) ∧
  (∀ (s : State) (a : Addr) (n : Width) (v : Word) (rest : List BusEvent), s.MemoryOk → s.busy = false →
    0x100 ≤ a.toNat → a.toNat % n.bytes = 0 → s.inbox = .write a n v :: rest →
    ∃ t, step s = .next t ∧ t = { s with inbox := rest, port := none, mem := t.mem } ∧
      ∀ x, t.readByte x =
        if a.toNat ≤ x ∧ x < a.toNat + n.bytes ∧
          ((0x400 ≤ x ∧ x < 0x480) ∨ (0x1000 ≤ x ∧ x < 0x3000) ∨ (0x3000 ≤ x ∧ x < 0x4000))
        then v.extractLsb' (8 * (x - a.toNat)) 8 else s.readByte x)

/-- R38 and the register map: while BUSY = 0 a write to an operand register stores the bits the register uses, so that
it reads them back, and changes no other register and no byte of memory. -/
def Obligations.OperandRegisterWrites : Prop :=
  ∀ (s : State) (a : Addr) (v : Word) (rest : List BusEvent) (bits : Nat),
    (a.toNat, bits) ∈ [(0x020, 8), (0x024, 8), (0x028, 8), (0x030, 2), (0x034, 6), (0x038, 5), (0x03C, 32), (0x040, 8),
      (0x044, 8), (0x048, 12)] →
    s.busy = false → s.inbox = .write a .four v :: rest →
    ∃ t, step s = .next t ∧ (t.readRegister a.toNat).toNat = v.toNat % 2 ^ bits ∧
      (∀ offset, offset ≠ a.toNat → t.readRegister offset = s.readRegister offset) ∧
      t = { s with inbox := rest, port := none, operand := t.operand }

/-- R85, R86: while BUSY = 0 a write to a read-only or reserved offset of the register block, to a ROM, to ECB, GENB, FCW
or MX, or to a reserved address is ignored, without a bus error and without setting OVR; a reserved byte or register
offset reads 0. -/
def Obligations.ReadOnlyWritesAreIgnored : Prop :=
  (∀ (s : State) (a : Addr) (n : Width) (v : Word) (rest : List BusEvent), s.busy = false → accessError a n = false →
    a.toNat ∉ [0x004, 0x008, 0x00C, 0x020, 0x024, 0x028, 0x030, 0x034, 0x038, 0x03C, 0x040, 0x044, 0x048] →
    ¬ (0x400 ≤ a.toNat ∧ a.toNat < 0x480) → ¬ (0x1000 ≤ a.toNat ∧ a.toNat < 0x4000) →
    s.inbox = .write a n v :: rest → step s = .next { s with inbox := rest, port := none }) ∧
  (∀ (s : State) (x : Nat), (0x340 ≤ x ∧ x < 0x400) ∨ (0x480 ≤ x ∧ x < 0x1000) ∨ (0x5000 ≤ x ∧ x < 0x8000) ∨
    0xFA61 ≤ x → s.readByte x = 0) ∧
  (∀ (s : State) (offset : Nat), offset ∈ [0x01C, 0x084, 0x088, 0x08C, 0x090, 0x094, 0x098, 0x09C] ∨
    (0x0C0 ≤ offset ∧ offset < 0x100) → s.readRegister offset = 0)

/-- R33: STATUS reads BUSY, DONE, ERR and OVR in bits 0 to 3; writing 1 to DONE, ERR or OVR clears it, also while BUSY;
writing 0 has no effect, and writing BUSY has none. Nothing else changes. -/
def Obligations.StatusIsWriteOneToClear : Prop :=
  ∀ (s : State) (v : Word) (rest : List BusEvent), s.inbox = .write 0x008 .four v :: rest →
    (s.readRegister 0x008).toNat =
      s.busy.toNat + 2 * s.done.toNat + 4 * s.err.toNat + 8 * s.ovr.toNat ∧
    ∃ t, step s = .next t ∧ t.busy = s.busy ∧
      (t.done = true ↔ s.done = true ∧ v.toNat / 2 % 2 = 0) ∧
      (t.err = true ↔ s.err = true ∧ v.toNat / 4 % 2 = 0) ∧
      (t.ovr = true ↔ s.ovr = true ∧ v.toNat / 8 % 2 = 0) ∧
      t = { s with inbox := rest, port := none, done := t.done, err := t.err, ovr := t.ovr }

/-! ### Resets and the interrupt -/

/-- R442, R451: a write to CTRL with bit 1 = 1 resets every register at once, whether or not BUSY = 1, IRQ_EN = 0
whatever bit 0 was; the command in flight is abandoned, the RAM bytes its rule may write become fresh draws (free values,
log 5), and every other RAM byte keeps its contents. Without bit 1, IRQ_EN takes bit 0 and nothing else changes. -/
def Obligations.SoftReset : Prop :=
  ∀ (s : State) (v : Word) (rest : List BusEvent), s.inbox = .write 0x004 .four v :: rest →
    let lost : Region → Bool := fun g => match s.latch with
      | none => false
      | some w => match g with
        | .dcw => decide (w.toNat ∈ [0x30, 0x33, 0x01]) ||
            (decide (w.toNat < 65536) && decide (w.toNat % 256 ∈ [0x31, 0x32]))
        | .genb => decide (w.toNat = 0x40)
        | .ecb => decide (w.toNat = 0x41)
        | .fcw => decide (w.toNat ∈ [0x42, 0x01])
        | .mx => decide (w.toNat ∈ [0x50, 0x51, 0x52, 0x61, 0x01]) ||
            (decide (w.toNat < 65536) && decide (w.toNat % 256 = 0x62))
        | .segtab | .inbuf => false
    (v.toNat / 2 % 2 = 1 → ∃ t, step s = .next t ∧ t.latch = none ∧ t.irq = false ∧
      (∀ offset, t.readRegister offset = State.reset.readRegister offset) ∧
      ∀ g : Region, t.epoch.get g = (if lost g then s.epoch.get g + 1 else s.epoch.get g) ∧
        ∀ i, i < g.size →
          t.readByte (g.base + i) = if lost g then t.draw g (g.base + i) else s.readByte (g.base + i)) ∧
    (v.toNat / 2 % 2 = 0 → ∃ t, step s = .next t ∧ (t.irqEn = true ↔ v.toNat % 2 = 1) ∧
      t = { s with inbox := rest, port := none, irqEn := t.irqEn })

/-- R441, R443, D60: the hard reset resets every register; at power-on every RAM byte becomes a fresh draw (a free value
of its next draw generation, log 5); at any other time the command in flight is abandoned, the RAM bytes its rule may
write (R451) become fresh draws, and every other RAM byte keeps its contents; all of them do when none is in flight. -/
def Obligations.HardResetAndPowerOn : Prop :=
  ∀ (s : State) (rest : List BusEvent),
    let lost : Region → Bool := fun g => match s.latch with
      | none => false
      | some w => match g with
        | .dcw => decide (w.toNat ∈ [0x30, 0x33, 0x01]) ||
            (decide (w.toNat < 65536) && decide (w.toNat % 256 ∈ [0x31, 0x32]))
        | .genb => decide (w.toNat = 0x40)
        | .ecb => decide (w.toNat = 0x41)
        | .fcw => decide (w.toNat ∈ [0x42, 0x01])
        | .mx => decide (w.toNat ∈ [0x50, 0x51, 0x52, 0x61, 0x01]) ||
            (decide (w.toNat < 65536) && decide (w.toNat % 256 = 0x62))
        | .segtab | .inbuf => false
    (s.inbox = .powerOn :: rest → ∃ t, step s = .next t ∧ t.latch = none ∧ t.irq = false ∧
      (∀ offset, t.readRegister offset = State.reset.readRegister offset) ∧
      ∀ g : Region, t.epoch.get g = s.epoch.get g + 1 ∧
        ∀ i, i < g.size → t.readByte (g.base + i) = t.draw g (g.base + i)) ∧
    (s.inbox = .hardReset :: rest → ∃ t, step s = .next t ∧ t.latch = none ∧ t.irq = false ∧
      (∀ offset, t.readRegister offset = State.reset.readRegister offset) ∧
      (s.latch = none → ∀ x, t.readByte x = s.readByte x) ∧
      ∀ g : Region, t.epoch.get g = (if lost g then s.epoch.get g + 1 else s.epoch.get g) ∧
        ∀ i, i < g.size →
          t.readByte (g.base + i) = if lost g then t.draw g (g.base + i) else s.readByte (g.base + i))

/-- R408: irq = IRQ_EN ∧ (DONE ∨ ERR); accepting the next command clears it, and OVR does not raise it. -/
def Obligations.IrqOutput : Prop :=
  (∀ s : State, s.irq = true ↔ s.irqEn = true ∧ (s.done = true ∨ s.err = true)) ∧
  (∀ (s : State) (w : Word), (s.accept w).irq = false) ∧
  (∀ (s : State) (b : Bool), { s with ovr := b }.irq = s.irq)

/-! ### Every command -/

/-- R402, R405, R406, R38: every command completes, to a next state, in one of two ways. With success: DONE = 1, BUSY = 0,
and of the rest only result registers, PHASE and memory may change. With an error: BUSY = 0, ERR = 1, ERRCODE the number
that the table of R401 gives the error and ERRINFO its detail word, and every other register, every buffer, PHASE and MX
as they were. -/
def Obligations.CommandCompletion : Prop :=
  let code : ErrorKind → Byte := fun kind => match kind with
    | .unsupportedCharacter => 0x01
    | .dataTooLong => 0x02
    | .invalidMode => 0x03
    | .invalidVersion => 0x04
    | .gfLogZero => 0x10
    | .overlap => 0x11
    | .illegalCommand => 0x20
    | .badOperand => 0x21
    | .sequence => 0x22
  ∀ (i : Instr) (s : State), ∃ t, exec i s = .next t ∧
    ((t = { s with latch := none, done := true, result := t.result, phase := t.phase, mem := t.mem }) ∨
      ∃ e : CommandError,
        t = { s with latch := none, err := true, errCode := code e.kind, errInfo := e.info })

/-- R448: a command whose phase prerequisite is false fails with SEQUENCE, ERRINFO = PHASE, and changes nothing else;
a command whose prerequisite holds, or that has none, never reports SEQUENCE. -/
def Obligations.SequencePrerequisites : Prop :=
  ∀ (i : Instr) (s : State),
    let needs : Bool := match i with
      | .bsAppend _ | .bsSeg _ | .bsFinish => s.phase.v && !s.phase.f
      | .ileave => s.phase.f
      | .mxInit => s.phase.v
      | .mxFunc => s.phase.m && !s.phase.p
      | .mxPlace => s.phase.p && s.phase.c && !s.phase.d
      | .maskEval _ | .maskSelect | .maskApply _ => s.phase.d && !s.phase.k
      | .nop | .encode | .gfMul | .gfPow | .gfLog | .gfExp | .vsel | .bsClear | .rsGen | .rsEnc | .bchFmt _
      | .bchVer _ => true
    (needs = false → exec i s = .next { s with latch := none, err := true, errCode := 0x22, errInfo := s.phase.word }) ∧
    (needs = true → s.errCode = 0 → ∃ t, exec i s = .next t ∧ t.errCode ≠ 0x22)

/-- R112: an immediate outside its class's range gives BAD_OPERAND with ERRINFO = IMM, when the command's phase
prerequisite holds and, for SEGIDX, NSEG is legal; nothing else changes. -/
def Obligations.ImmediateRanges : Prop :=
  ∀ s : State,
    let bad : Nat → Host.Outcome State Fault Refusal := fun n =>
      .next { s with latch := none, err := true, errCode := 0x21, errInfo := BitVec.ofNat 32 n }
    (∀ n, s.phase.canBuild = true → (n = 0 ∨ 32 < n) → exec (.bsAppend n) s = bad n) ∧
    (∀ i, s.phase.canBuild = true → s.operand.nseg.toNat ≤ 16 → s.operand.nseg.toNat ≤ i → exec (.bsSeg i) s = bad i) ∧
    (∀ sel, (sel / 64 ≠ 0 ∨ sel / 8 % 2 = 1) → exec (.bchFmt sel) s = bad sel) ∧
    (∀ v, (v < 7 ∨ 40 < v) → exec (.bchVer v) s = bad v) ∧
    (∀ m, s.phase.canMask = true → 7 < m → exec (.maskEval m) s = bad m ∧ exec (.maskApply m) s = bad m)

/-! ### nop and the GF(256) unit -/

/-- R370: nop, the word 0, completes and does nothing beyond the common effects. -/
def Obligations.NopCompletes : Prop :=
  decode 0x00000000 = .ok .nop ∧ ∀ s : State, exec .nop s = .next { s with latch := none, done := true }

/-- R146: gf.mul completes with GF_R the product of GF_A and GF_B through the tables, which is mulp(GF_A, GF_B) of R142
for all 65,536 pairs; nothing else changes but BUSY and DONE. -/
def Obligations.GfMulIsFieldProduct : Prop :=
  decode 0x00000010 = .ok .gfMul ∧
  (∀ s : State, exec .gfMul s =
    .next { s with latch := none, done := true, result := { s.result with gfR := mulp s.operand.gfA s.operand.gfB } }) ∧
  (∀ a b : Byte, mulp a b =
    if a = 0 ∨ b = 0 then 0 else expRom (((logRom a.toNat).toNat + (logRom b.toNat).toNat) % 255))

/-- R147: gf.pow completes with GF_R the GF_E-fold product of GF_A (1 for exponent 0), which is the table formula;
nothing else changes but BUSY and DONE. -/
def Obligations.GfPowIsRepeatedProduct : Prop :=
  decode 0x00000011 = .ok .gfPow ∧
  (∀ s : State, exec .gfPow s =
    .next { s with latch := none, done := true,
                   result := { s.result with gfR := (mulp s.operand.gfA)^[s.operand.gfE.toNat] 1 } }) ∧
  (∀ a e : Byte, (mulp a)^[e.toNat] 1 =
    if e = 0 then 1 else if a = 0 then 0 else expRom (((logRom a.toNat).toNat * e.toNat) % 255))

/-- R148, R149: gf.log of 0 fails with GF_LOG_ZERO(0) and changes nothing else; gf.log of a ≠ 0 completes with LOG[a], the
number below 255 whose power of α is a; gf.exp completes with EXP[GF_A], α to the power GF_A; nothing else changes but
BUSY and DONE. -/
def Obligations.GfLogAndExp : Prop :=
  decode 0x00000012 = .ok .gfLog ∧ decode 0x00000013 = .ok .gfExp ∧
  (∀ s : State, s.operand.gfA = 0 →
    exec .gfLog s = .next { s with latch := none, err := true, errCode := 0x10, errInfo := 0 }) ∧
  (∀ s : State, s.operand.gfA ≠ 0 →
    exec .gfLog s = .next { s with latch := none, done := true,
                                   result := { s.result with gfR := logRom s.operand.gfA.toNat } }) ∧
  (∀ a : Byte, a ≠ 0 → (logRom a.toNat).toNat < 255 ∧ (mulp 2)^[(logRom a.toNat).toNat] 1 = a) ∧
  (∀ s : State, exec .gfExp s =
    .next { s with latch := none, done := true, result := { s.result with gfR := expRom s.operand.gfA.toNat } }) ∧
  (∀ a : Byte, expRom a.toNat = (mulp 2)^[a.toNat] 1)

/-! ### Segments and version selection -/

/-- R171, R173: descriptor i is SEGTAB bytes 8i to 8i + 7, two little-endian words that hold MODE, START and LEN, and its
character count is LEN, or LEN / 2 for KANJI. R172, R174: its check reports, in order, reserved bits, a range past INBUF,
an odd KANJI length, and then the first bad character, of the error its mode raises with (i << 16) | j; a segment without
any of these passes. -/
def Obligations.SegmentCheck : Prop :=
  ∀ (s : State) (i : Nat), s.MemoryOk → i < 16 →
    let cell : Nat → Nat := fun k => (s.buf .segtab (8 * i + k)).toNat
    let word0 : Nat := cell 0 + 256 * cell 1 + 65536 * cell 2 + 16777216 * cell 3
    let mode : Mode := if word0 % 4 = 0 then .numeric else if word0 % 4 = 1 then .alphanumeric
      else if word0 % 4 = 2 then .byte else .kanji
    let start := cell 4 + 256 * cell 5
    let len := cell 6 + 256 * cell 7
    let byte : Nat → Nat := fun j => (s.buf .inbuf (start + j)).toNat
    let badAt : Nat → Bool := fun j => match mode with
      | .numeric => !(decide (0x30 ≤ byte j) && decide (byte j ≤ 0x39))
      | .alphanumeric => decide (byte j ∉ "0123456789ABCDEFGHIJKLMNOPQRSTUVWXYZ $%*+-./:".toList.map Char.toNat)
      | .byte => false
      | .kanji => decide (j % 2 = 0) &&
          !((decide (0x8140 ≤ byte j * 256 + byte (j + 1) ∧ byte j * 256 + byte (j + 1) ≤ 0x9FFC) ||
              decide (0xE040 ≤ byte j * 256 + byte (j + 1) ∧ byte j * 256 + byte (j + 1) ≤ 0xEBBF)) &&
            decide (0x40 ≤ byte (j + 1) ∧ byte (j + 1) ≤ 0xFC ∧ byte (j + 1) ≠ 0x7F))
    let kind : ErrorKind := if mode = .kanji then .unsupportedCharacter else .invalidMode
    ((s.descriptor i).mode = mode ∧ (s.descriptor i).reserved = word0 / 4 ∧ (s.descriptor i).start = start ∧
      (s.descriptor i).len = len ∧ (s.descriptor i).count = match mode with
        | .numeric | .alphanumeric | .byte => len
        | .kanji => len / 2) ∧
    (word0 / 4 ≠ 0 → s.checkSegment i = .error (raise .badOperand i)) ∧
    (word0 / 4 = 0 → 8192 < start + len → s.checkSegment i = .error (raise .badOperand i)) ∧
    (word0 / 4 = 0 → start + len ≤ 8192 → mode = .kanji → len % 2 = 1 →
      s.checkSegment i = .error (raise .unsupportedCharacter (i * 65536 + (len - 1)))) ∧
    (word0 / 4 = 0 → start + len ≤ 8192 → ¬ (mode = .kanji ∧ len % 2 = 1) →
      (∀ j, j < len → badAt j = true → (∀ k, k < j → badAt k = false) →
        s.checkSegment i = .error (raise kind (i * 65536 + j))) ∧
      ((∀ j, j < len → badAt j = false) → s.checkSegment i = .ok ()))

/-- R181, success: when NSEG and CFG_VERSION are legal and every segment passes, vsel completes with the least
acceptable version it examines; the version and level registers hold its values, REQ_BITS the bits, PHASE is V alone,
and nothing else changes but BUSY and DONE. -/
def Obligations.VselChoosesLeastVersion : Prop :=
  ∀ (s : State) (v : Nat), s.operand.nseg.toNat ≤ 16 → s.operand.cfgVersion.toNat ≤ 40 →
    (∀ i, i < s.operand.nseg.toNat → s.checkSegment i = .ok ()) →
    s.Candidate v → s.Acceptable v → (∀ u, s.Candidate u → u < v → ¬ s.Acceptable u) →
    ∃ t, exec .vsel s = .next t ∧
      t.result.version.toNat = v ∧ t.result.level = s.operand.cfgLevel ∧ t.result.size.toNat = 4 * v + 17 ∧
      t.result.dataCw.toNat = dataCodewords v (.ofBits s.operand.cfgLevel) ∧
      t.result.totalCw.toNat = totalCodewords v ∧ t.result.reqBits.toNat = s.bitsAt v ∧
      t = { s with latch := none, done := true,
                   phase := { v := true, f := false, c := false, m := false, p := false, d := false, k := false },
                   result := { s.result with version := t.result.version, level := t.result.level,
                                             size := t.result.size, dataCw := t.result.dataCw,
                                             totalCw := t.result.totalCw, reqBits := t.result.reqBits } }

/-- R181, errors in order: NSEG > 16, CFG_VERSION > 40, the first failing segment, and DATA_TOO_LONG with the bits at
the last version examined when none is acceptable. Nothing else changes. -/
def Obligations.VselErrors : Prop :=
  ∀ s : State,
    (16 < s.operand.nseg.toNat → exec .vsel s = .next (s.completeError (raise .badOperand s.operand.nseg.toNat))) ∧
    (s.operand.nseg.toNat ≤ 16 → 40 < s.operand.cfgVersion.toNat →
      exec .vsel s = .next (s.completeError (raise .invalidVersion s.operand.cfgVersion.toNat))) ∧
    (s.operand.nseg.toNat ≤ 16 → s.operand.cfgVersion.toNat ≤ 40 →
      ∀ i e, i < s.operand.nseg.toNat → (∀ j, j < i → s.checkSegment j = .ok ()) → s.checkSegment i = .error e →
        exec .vsel s = .next (s.completeError e)) ∧
    (s.operand.nseg.toNat ≤ 16 → s.operand.cfgVersion.toNat ≤ 40 →
      (∀ i, i < s.operand.nseg.toNat → s.checkSegment i = .ok ()) → (∀ v, s.Candidate v → ¬ s.Acceptable v) →
      exec .vsel s = .next (s.completeError (raise .dataTooLong
        (min (s.bitsAt (if s.operand.cfgVersion.toNat = 0 then 40 else s.operand.cfgVersion.toNat)) (2 ^ 32 - 1)))))

/-- R182: the single-segment maxima. A segment of n characters fits version 40, or version 1, at a level exactly when n
is at most the tabulated number. -/
def Obligations.CapacityMaxima : Prop :=
  ∀ (d : Descriptor) (l : Level),
    let fits : Nat → Prop := fun v =>
      d.count < 2 ^ cciWidth d.mode v ∧ segBits d v ≤ 8 * dataCodewords v l
    let most : List Nat → Nat := fun row => match l with
      | .L => row.getD 0 0
      | .M => row.getD 1 0
      | .Q => row.getD 2 0
      | .H => row.getD 3 0
    (fits 40 ↔ d.count ≤ match d.mode with
      | .numeric => most [7089, 5596, 3993, 3057]
      | .alphanumeric => most [4296, 3391, 2420, 1852]
      | .byte => most [2953, 2331, 1663, 1273]
      | .kanji => most [1817, 1435, 1024, 784]) ∧
    (fits 1 ↔ d.count ≤ match d.mode with
      | .numeric => most [41, 34, 27, 17]
      | .alphanumeric => most [25, 20, 16, 10]
      | .byte => most [17, 14, 11, 7]
      | .kanji => most [10, 8, 7, 4])

/-! ### The bit buffer -/

/-- R202: bs.clear completes; all 4096 bytes of DCW read 0, BITLEN is 0, F and C are 0; every other byte and register is
unchanged but BUSY and DONE. -/
def Obligations.BsClearEmptiesBuffer : Prop :=
  decode 0x00000030 = .ok .bsClear ∧ ∀ s : State, s.MemoryOk → ∃ t, exec .bsClear s = .next t ∧
    t = { s with latch := none, done := true, result := { s.result with bitLen := 0 },
                 phase := { s.phase with f := false, c := false }, mem := t.mem } ∧
    (∀ x, 0x3000 ≤ x → x < 0x4000 → t.readByte x = 0) ∧
    (∀ x, ¬ (0x3000 ≤ x ∧ x < 0x4000) → t.readByte x = s.readByte x)

/-- R203: bs.append n, with V = 1, F = 0, 1 ≤ n ≤ 32: past the capacity it fails with DATA_TOO_LONG(BITLEN + n) and
changes nothing else; otherwise it completes, the stream bits from BITLEN on are the low n bits of BS_VALUE, most
significant first, BITLEN grows by n, and every other bit of DCW, every other byte and register is unchanged but BUSY
and DONE. -/
def Obligations.BsAppendAppendsBits : Prop :=
  ∀ (s : State) (n : Nat), s.MemoryOk → s.phase.v = true → s.phase.f = false → 1 ≤ n → n ≤ 32 →
    (8 * s.result.dataCw.toNat < s.result.bitLen.toNat + n →
      exec (.bsAppend n) s = .next (s.completeError (raise .dataTooLong (s.result.bitLen.toNat + n)))) ∧
    (s.result.bitLen.toNat + n ≤ 8 * s.result.dataCw.toNat → ∃ t, exec (.bsAppend n) s = .next t ∧
      t.result.bitLen.toNat = s.result.bitLen.toNat + n ∧
      t = { s with latch := none, done := true, result := { s.result with bitLen := t.result.bitLen }, mem := t.mem } ∧
      (∀ j, j < 32768 → t.streamBit j =
        if s.result.bitLen.toNat ≤ j ∧ j < s.result.bitLen.toNat + n
        then s.operand.bsValue.getLsbD (n - 1 - (j - s.result.bitLen.toNat)) else s.streamBit j) ∧
      (∀ x, ¬ (0x3000 ≤ x ∧ x < 0x4000) → t.readByte x = s.readByte x))

/-- R208: the serialised segment of n characters is its mode indicator (R170), its count in CCI_WIDTH bits and its data
bits, segBits(i, v) bits in all. The data bits: NUMERIC, each 3 digits in 10 bits, 2 last ones in 7, 1 in 4 (R204);
ALPHANUMERIC, each pair of the set's values as 45a + b in 11 bits, a last one in 6 (R205, R175); BYTE, each byte in 8
(R206); KANJI, each pair compacted to 13 (R207). Numbers stand most significant bit first (R8). -/
def Obligations.SerialisedSegment : Prop :=
  ∀ (d : Descriptor) (v : Nat) (chars : List Byte), chars.length = d.len → (d.mode = .kanji → d.len % 2 = 0) →
    let w := cciWidth d.mode v
    let n := if d.mode = .kanji then d.len / 2 else d.len
    let bits : Nat → Nat → List Bool := fun x count => (List.range count).map fun k => x.testBit (count - 1 - k)
    let data : Nat → Nat → List Bool := fun k count => ((emitSegment d v chars).drop (4 + w + k)).take count
    let code : Nat → Nat := fun j => (chars.getD j 0).toNat
    let digit : Nat → Nat := fun j => code j - 0x30
    let alphabet := "0123456789ABCDEFGHIJKLMNOPQRSTUVWXYZ $%*+-./:".toList.map Char.toNat
    let value : Nat → Nat := fun j => alphabet.idxOf (code j)
    (emitSegment d v chars).length = segBits d v ∧
    (emitSegment d v chars).take 4 = (match d.mode with
      | .numeric => [false, false, false, true]
      | .alphanumeric => [false, false, true, false]
      | .byte => [false, true, false, false]
      | .kanji => [true, false, false, false]) ∧
    ((emitSegment d v chars).drop 4).take w = bits n w ∧
    match d.mode with
    | .numeric =>
      (∀ j, j < n / 3 →
        data (10 * j) 10 = bits (100 * digit (3 * j) + 10 * digit (3 * j + 1) + digit (3 * j + 2)) 10) ∧
      (n % 3 = 1 → data (10 * (n / 3)) 4 = bits (digit (n - 1)) 4) ∧
      (n % 3 = 2 → data (10 * (n / 3)) 7 = bits (10 * digit (n - 2) + digit (n - 1)) 7)
    | .alphanumeric => (∀ j, j < n → code j ∈ alphabet) →
      (∀ j, j < n / 2 → data (11 * j) 11 = bits (45 * value (2 * j) + value (2 * j + 1)) 11) ∧
      (n % 2 = 1 → data (11 * (n / 2)) 6 = bits (value (n - 1)) 6)
    | .byte => ∀ j, j < n → data (8 * j) 8 = bits (code j) 8
    | .kanji => ∀ j, j < n →
      let pair := code (2 * j) * 256 + code (2 * j + 1)
      let t := if pair ≤ 0x9FFC then pair - 0x8140 else pair - 0xC140
      data (13 * j) 13 = bits (t / 256 * 0xC0 + t % 256) 13

/-- R209: bs.seg i, with V = 1, F = 0: NSEG > 16 gives BAD_OPERAND(NSEG); a failing segment its error; a count past the
indicator DATA_TOO_LONG(n); bits past the capacity DATA_TOO_LONG(BITLEN + len); each changes nothing else. Otherwise it
completes, the stream bits from BITLEN on are the serialised segment, BITLEN grows by segBits(i, VERSION), and every
other bit of DCW, every other byte and register is unchanged but BUSY and DONE. -/
def Obligations.BsSegAppendsSegment : Prop :=
  ∀ (s : State) (i : Nat), s.MemoryOk → s.phase.v = true → s.phase.f = false →
    let d := s.descriptor i
    let v := s.result.version.toNat
    let len := s.result.bitLen.toNat
    (16 < s.operand.nseg.toNat →
      exec (.bsSeg i) s = .next (s.completeError (raise .badOperand s.operand.nseg.toNat))) ∧
    (s.operand.nseg.toNat ≤ 16 → i < s.operand.nseg.toNat → ∀ e, s.checkSegment i = .error e →
      exec (.bsSeg i) s = .next (s.completeError e)) ∧
    (s.operand.nseg.toNat ≤ 16 → i < s.operand.nseg.toNat → s.checkSegment i = .ok () →
      2 ^ cciWidth d.mode v ≤ d.count → exec (.bsSeg i) s = .next (s.completeError (raise .dataTooLong d.count))) ∧
    (s.operand.nseg.toNat ≤ 16 → i < s.operand.nseg.toNat → s.checkSegment i = .ok () →
      d.count < 2 ^ cciWidth d.mode v → 8 * s.result.dataCw.toNat < len + segBits d v →
      exec (.bsSeg i) s = .next (s.completeError (raise .dataTooLong (len + segBits d v)))) ∧
    (s.operand.nseg.toNat ≤ 16 → i < s.operand.nseg.toNat → s.checkSegment i = .ok () →
      d.count < 2 ^ cciWidth d.mode v → len + segBits d v ≤ 8 * s.result.dataCw.toNat →
      ∃ t, exec (.bsSeg i) s = .next t ∧ t.result.bitLen.toNat = len + segBits d v ∧
        t = { s with latch := none, done := true, result := { s.result with bitLen := t.result.bitLen },
                     mem := t.mem } ∧
        (∀ j, j < 32768 → t.streamBit j =
          if len ≤ j ∧ j < len + segBits d v then (emitSegment d v (s.segmentBytes d)).getD (j - len) false
          else s.streamBit j) ∧
        (∀ x, ¬ (0x3000 ≤ x ∧ x < 0x4000) → t.readByte x = s.readByte x))

/-- R210: bs.finish, with V = 1, F = 0: past the capacity it fails with DATA_TOO_LONG(BITLEN) and changes nothing else;
otherwise it completes with BITLEN = 8·DATA_CW and F = 1: the stream is kept, then the terminator, cut to the room, and
zeros to the byte boundary, then the codewords 0xEC and 0x11 in turn; every other byte and register is unchanged but
BUSY and DONE. -/
def Obligations.BsFinishFillsCapacity : Prop :=
  ∀ s : State, s.MemoryOk → s.phase.v = true → s.phase.f = false →
    let len := s.result.bitLen.toNat
    let cw := s.result.dataCw.toNat
    let pad := (len + min 4 (8 * cw - len) + 7) / 8
    (8 * cw < len → exec .bsFinish s = .next (s.completeError (raise .dataTooLong len))) ∧
    (len ≤ 8 * cw → ∃ t, exec .bsFinish s = .next t ∧ t.result.bitLen.toNat = 8 * cw ∧
      t = { s with latch := none, done := true, result := { s.result with bitLen := t.result.bitLen },
                   phase := { s.phase with f := true }, mem := t.mem } ∧
      (∀ j, j < len → t.streamBit j = s.streamBit j) ∧
      (∀ j, len ≤ j → j < 8 * pad → t.streamBit j = false) ∧
      (∀ k, pad ≤ k → k < cw → t.readByte (0x3000 + k) = if (k - pad) % 2 = 0 then 0xEC else 0x11) ∧
      (∀ x, ¬ (0x3000 ≤ x ∧ x < 0x3000 + cw) → t.readByte x = s.readByte x))

/-! ### Reed-Solomon and the interleaver -/

/-- R231: g_d has d + 1 coefficients, the first 1, it is the product of (x ⊕ α^i) for i = 0..d-1 as a function, and its
roots are α^0 to α^(d-1). -/
def Obligations.GeneratorPolynomial : Prop :=
  ∀ d : Nat, (genPoly d).length = d + 1 ∧ (genPoly d).headD 0 = 1 ∧
    (∀ x : Byte, evalPoly (genPoly d) x = (List.range d).foldl (fun acc i => mulp acc (x ^^^ alphaPow i)) 1) ∧
    (∀ i, i < d → evalPoly (genPoly d) (alphaPow i) = 0)

/-- R233: rs.gen with RS_DEG outside 1..30 fails with BAD_OPERAND(RS_DEG) and changes nothing else; otherwise it
completes with GENB[j] the coefficient c_j for j ≤ d and 0 above, and every other byte and register unchanged but BUSY
and DONE. -/
def Obligations.RsGenWritesGenerator : Prop :=
  decode 0x00000040 = .ok .rsGen ∧ ∀ s : State, s.MemoryOk →
    let d := s.operand.rsDeg.toNat
    ((d < 1 ∨ 30 < d) → exec .rsGen s = .next (s.completeError (raise .badOperand d))) ∧
    (1 ≤ d → d ≤ 30 → ∃ t, exec .rsGen s = .next t ∧
      t = { s with latch := none, done := true, mem := t.mem } ∧
      (∀ j, j < 32 → t.readByte (0x320 + j) = if j ≤ d then (genPoly d).getD j 0 else 0) ∧
      (∀ x, ¬ (0x320 ≤ x ∧ x < 0x340) → t.readByte x = s.readByte x))

/-- R235, R234: rs.enc checks RS_DEG, then RS_LEN, then RS_SRC + RS_LEN, each failing with BAD_OPERAND and no other
change; otherwise it completes: ECB[0..d-1] are the remainder of the block's division, ECB[d..31] are 0, the block followed
by ECB[0..d-1] is a polynomial with the roots α^0 .. α^(d-1), and every other byte and register is unchanged but BUSY and
DONE. -/
def Obligations.RsEncMakesCodeword : Prop :=
  decode 0x00000041 = .ok .rsEnc ∧ ∀ s : State, s.MemoryOk →
    let d := s.operand.rsDeg.toNat
    let k := s.operand.rsLen.toNat
    let src := s.operand.rsSrc.toNat
    let block := (List.range k).map fun j => s.readByte (0x3000 + src + j)
    ((d < 1 ∨ 30 < d) → exec .rsEnc s = .next (s.completeError (raise .badOperand d))) ∧
    (1 ≤ d → d ≤ 30 → (k < 1 ∨ 255 - d < k) → exec .rsEnc s = .next (s.completeError (raise .badOperand k))) ∧
    (1 ≤ d → d ≤ 30 → 1 ≤ k → k ≤ 255 - d → 4096 < src + k →
      exec .rsEnc s = .next (s.completeError (raise .badOperand src))) ∧
    (1 ≤ d → d ≤ 30 → 1 ≤ k → k ≤ 255 - d → src + k ≤ 4096 → ∃ t, exec .rsEnc s = .next t ∧
      t = { s with latch := none, done := true, mem := t.mem } ∧
      (∀ j, j < 32 → t.readByte (0x300 + j) = if j < d then (rsRemainder block d).getD j 0 else 0) ∧
      (∀ i, i < d →
        evalPoly (block ++ (List.range d).map fun j => t.readByte (0x300 + j)) (alphaPow i) = 0) ∧
      (∀ x, ¬ (0x300 ≤ x ∧ x < 0x320) → t.readByte x = s.readByte x))

/-- R260, R262: where each codeword stands in the final sequence. Short blocks come first; data codeword i of block b is
at i·nb + b, the extra codeword of a long block after the short columns, and EC codeword i of block b at
DATA_CW + i·nb + b; the sequence has TOTAL_CW codewords. -/
def Obligations.InterleavePositions : Prop :=
  ∀ (v : Nat) (l : Level) (data : List Byte), 1 ≤ v → v ≤ 40 → data.length = dataCodewords v l →
    let nb := numBlocks v l
    let ec := eccPerBlock v l
    let short := totalCodewords v / nb - ec
    let nshort := nb - totalCodewords v % nb
    let start : Nat → Nat := fun b => b * short + (b - nshort)
    let size : Nat → Nat := fun b => if b < nshort then short else short + 1
    let out := finalCodewords v l data
    out.length = totalCodewords v ∧ start (nb - 1) + size (nb - 1) = data.length ∧
    (∀ b i, b < nb → i < short → out[i * nb + b]? = data[start b + i]?) ∧
    (∀ b, nshort ≤ b → b < nb → out[short * nb + (b - nshort)]? = data[start b + short]?) ∧
    (∀ b i, b < nb → i < ec →
      out[dataCodewords v l + i * nb + b]? = (rsRemainder ((data.drop (start b)).take (size b)) ec)[i]?)

/-- R263: ileave with F = 1 completes: FCW[0..TOTAL_CW-1] is the final codeword sequence of DCW[0..DATA_CW-1] at VERSION
and LEVEL, C = 1, and every other byte and register is unchanged but BUSY and DONE. -/
def Obligations.IleaveWritesFinalSequence : Prop :=
  ∀ s : State, s.MemoryOk → s.phase.Ok → s.SymbolOk → s.phase.f = true →
    let total := totalCodewords s.result.version.toNat
    let data := (List.range s.result.dataCw.toNat).map fun j => s.readByte (0x3000 + j)
    ∃ t, exec .ileave s = .next t ∧
      t = { s with latch := none, done := true, phase := { s.phase with c := true }, mem := t.mem } ∧
      (∀ j, j < total →
        t.readByte (0x4000 + j) = (finalCodewords s.result.version.toNat s.level data).getD j 0) ∧
      (∀ x, ¬ (0x4000 ≤ x ∧ x < 0x4000 + total) → t.readByte x = s.readByte x)

/-! ### The matrix -/

/-- R282: mx.init with V = 0 fails with SEQUENCE(PHASE) and changes nothing else; with V = 1 it completes: all 31,329
bytes of MX read 0, M = 1, P = D = K = 0, and every other byte and register is unchanged but BUSY and DONE. -/
def Obligations.MxInitClearsMatrix : Prop :=
  decode 0x00000050 = .ok .mxInit ∧
  (∀ s : State, s.phase.v = false →
    exec .mxInit s = .next { s with latch := none, err := true, errCode := 0x22, errInfo := s.phase.word }) ∧
  ∀ s : State, s.MemoryOk → s.phase.v = true → ∃ t, exec .mxInit s = .next t ∧
    t = { s with latch := none, done := true, phase := { s.phase with m := true, p := false, d := false, k := false },
                 mem := t.mem } ∧
    (∀ x, 0x8000 ≤ x → x < 0xFA61 → t.readByte x = 0) ∧
    (∀ x, ¬ (0x8000 ≤ x ∧ x < 0xFA61) → t.readByte x = s.readByte x)

/-- R291, R281: mx.func on an initialised matrix never raises OVERLAP: with M = 1 and P = 0 it completes, every module of
the N×N symbol is the one the function patterns and the reservation put there and blank where they put none, P = 1, and
every byte outside the symbol and every other register is unchanged but BUSY and DONE. -/
def Obligations.MxFuncPlacesPatterns : Prop :=
  ∀ s : State, s.MemoryOk → s.phase.Ok → s.SymbolOk → s.MatrixOk → s.phase.m = true → s.phase.p = false →
    ∃ t, exec .mxFunc s = .next t ∧
      t = { s with latch := none, done := true, phase := { s.phase with p := true }, mem := t.mem } ∧
      (∀ r c, r < s.side → c < s.side → t.moduleAt r c = placedModule s.result.version.toNat r c) ∧
      (∀ x, ¬ (∃ r c, r < s.side ∧ c < s.side ∧ x = 0x8000 + 177 * r + c) → t.readByte x = s.readByte x)

/-- R303: the role map of version 1 after mx.func, row by row: # dark and o light function modules, r reserved ones,
and . empty ones. -/
def Obligations.RoleMapOfVersionOne : Prop :=
  ((List.range 21).map fun r => String.ofList ((List.range 21).map fun c =>
    match placedModule 1 r c with
    | ⟨true, .function⟩ => '#'
    | ⟨false, .function⟩ => 'o'
    | ⟨false, .reserved⟩ => 'r'
    | ⟨false, .empty⟩ => '.'
    | _ => '?')) =
  ["#######or....o#######", "#ooooo#or....o#ooooo#", "#o###o#or....o#o###o#", "#o###o#or....o#o###o#",
   "#o###o#or....o#o###o#", "#ooooo#or....o#ooooo#", "#######o#o#o#o#######", "oooooooor....oooooooo",
   "rrrrrr#rr....rrrrrrrr", "......o..............", "......#..............", "......o..............",
   "......#..............", "oooooooo#............", "#######or............", "#ooooo#or............",
   "#o###o#or............", "#o###o#or............", "#o###o#or............", "#ooooo#or............",
   "#######or............"]

/-- R300, R301: for every version the modules left EMPTY after mx.func number RAW(v), the closed form. -/
def Obligations.RawModuleCount : Prop :=
  ∀ v, 1 ≤ v → v ≤ 40 →
    (((List.range (sideOf v)).flatMap fun r => (List.range (sideOf v)).map fun c => (placedModule v r c).role).count
        .empty) =
      (16 * v + 128) * v + 64 - (if v = 1 then 0 else (25 * (v / 7 + 2) - 10) * (v / 7 + 2) - 55) -
        (if 7 ≤ v then 36 else 0)

/-- R299, R297, R298: mx.place with P = 1, C = 1, D = 0 completes: the EMPTY modules, in zigzag order, number
8·TOTAL_CW + REM; the k-th gets role DATA and the colour of bit k of FCW[0..TOTAL_CW-1], most significant bit first, and
LIGHT for the remainder bits; no module of the symbol is EMPTY, D = 1, and every other module, byte and register is
unchanged but BUSY and DONE. -/
def Obligations.MxPlaceFillsMatrix : Prop :=
  ∀ s : State, s.MemoryOk → s.phase.Ok → s.SymbolOk → s.MatrixOk → s.phase.p = true → s.phase.c = true →
    s.phase.d = false →
    let path := (zigzagAll s.side).filter fun p => decide ((s.moduleAt p.1 p.2).role = .empty)
    let total := s.result.totalCw.toNat
    ∃ t, exec .mxPlace s = .next t ∧
      t = { s with latch := none, done := true, phase := { s.phase with d := true }, mem := t.mem } ∧
      path.length = 8 * total + remainderBits s.result.version.toNat ∧
      (∀ k p, path[k]? = some p → t.moduleAt p.1 p.2 =
        ⟨decide (k < 8 * total) && (s.readByte (0x4000 + k / 8)).getLsbD (7 - k % 8), .data⟩) ∧
      (∀ r c, r < s.side → c < s.side → (t.moduleAt r c).role ≠ .empty) ∧
      (∀ x, ¬ (∃ p ∈ path, x = 0x8000 + 177 * p.1 + p.2) → t.readByte x = s.readByte x)

/-- R295, R293: bch.fmt with an illegal selector fails with BAD_OPERAND(sel) and changes nothing else; with a legal one it
completes with BCH_R the entry of the format word table, and nothing else changes but BUSY and DONE. -/
def Obligations.BchFmtComputesFormatWord : Prop :=
  (∀ sel, sel < 256 → decode (BitVec.ofNat 32 (sel * 256 + 0x53)) = .ok (.bchFmt sel)) ∧
  (∀ (s : State) (sel : Nat), (sel / 64 ≠ 0 ∨ sel / 8 % 2 ≠ 0) →
    exec (.bchFmt sel) s = .next (s.completeError (raise .badOperand sel))) ∧
  ∀ (s : State) (sel : Nat), sel / 64 = 0 → sel / 8 % 2 = 0 →
    let table : List Nat :=
      [0x77C4, 0x72F3, 0x7DAA, 0x789D, 0x662F, 0x6318, 0x6C41, 0x6976,
        0x5412, 0x5125, 0x5E7C, 0x5B4B, 0x45F9, 0x40CE, 0x4F97, 0x4AA0,
        0x355F, 0x3068, 0x3F31, 0x3A06, 0x24B4, 0x2183, 0x2EDA, 0x2BED,
        0x1689, 0x13BE, 0x1CE7, 0x19D0, 0x0762, 0x0255, 0x0D0C, 0x083B]
    exec (.bchFmt sel) s = .next { s with latch := none, done := true, result := { s.result with
      bchR := BitVec.ofNat 18 (table.getD (8 * (sel / 16) + sel % 8) 0) } }

/-- R296, R294: bch.ver v for v outside 7..40 fails with BAD_OPERAND(v) and changes nothing else; otherwise it completes
with BCH_R the entry of the version word table, and nothing else changes but BUSY and DONE. -/
def Obligations.BchVerComputesVersionWord : Prop :=
  (∀ v, v < 256 → decode (BitVec.ofNat 32 (v * 256 + 0x54)) = .ok (.bchVer v)) ∧
  (∀ (s : State) (v : Nat), (v < 7 ∨ 40 < v) →
    exec (.bchVer v) s = .next (s.completeError (raise .badOperand v))) ∧
  ∀ (s : State) (v : Nat), 7 ≤ v → v ≤ 40 →
    let table : List Nat :=
      [0x07C94, 0x085BC, 0x09A99, 0x0A4D3, 0x0BBF6, 0x0C762, 0x0D847, 0x0E60D, 0x0F928, 0x10B78, 0x1145D, 0x12A17,
        0x13532, 0x149A6, 0x15683, 0x168C9, 0x177EC, 0x18EC4, 0x191E1, 0x1AFAB, 0x1B08E, 0x1CC1A, 0x1D33F, 0x1ED75,
        0x1F250, 0x209D5, 0x216F0, 0x228BA, 0x2379F, 0x24B0B, 0x2542E, 0x26A64, 0x27541, 0x28C69]
    exec (.bchVer v) s = .next { s with latch := none, done := true, result := { s.result with
      bchR := BitVec.ofNat 18 (table.getD (v - 7) 0) } }

/-! ### Masks -/

/-- R339, R332 to R337: mask.eval m with D = 1, K = 0, m ≤ 7 completes, and it scores the colours that mask.apply m leaves
on the same state (candidate m): PEN_N1 and PEN_N3 are the sums of the line costs over all N rows and N columns (N3 under
WINDOW11, log 9), PEN_N2 the cost of its 2×2 blocks, PEN_DARK the number of DARK modules, PEN_N4 the cost of that number,
and PENALTY[m] the total, none of them cut to 32 bits; every other register and all of memory are unchanged but BUSY and
DONE. -/
def Obligations.MaskEvalReportsScore : Prop :=
  ∀ (s : State) (m : Fin 8), s.MemoryOk → s.phase.Ok → s.SymbolOk → s.phase.d = true → s.phase.k = false →
    ∃ t u, exec (.maskEval m.val) s = .next t ∧ exec (.maskApply m.val) s = .next u ∧
      let row : Nat → List Bool := fun r => (List.range s.side).map fun c => (u.moduleAt r c).dark
      let column : Nat → List Bool := fun c => (List.range s.side).map fun r => (u.moduleAt r c).dark
      let overLines : (List Bool → Nat) → Nat := fun cost =>
        ((List.range s.side).map fun r => cost (row r)).sum + ((List.range s.side).map fun c => cost (column c)).sum
      t.result.penN1.toNat = overLines lineN1 ∧
      t.result.penN2.toNat = penaltyN2 ((List.range s.side).map row) ∧
      t.result.penN3.toNat = overLines (lineN3 .window11) ∧
      t.result.penN4.toNat = penaltyN4 s.side t.result.penDark.toNat ∧
      t.result.penDark.toNat = ((List.range s.side).map fun r => (row r).count true).sum ∧
      t.result.penalty[m].toNat =
        t.result.penN1.toNat + t.result.penN2.toNat + t.result.penN3.toNat + t.result.penN4.toNat ∧
      (∀ k : Fin 8, k ≠ m → t.result.penalty[k] = s.result.penalty[k]) ∧
      t = { s with latch := none, done := true,
                   result := { s.result with penN1 := t.result.penN1, penN2 := t.result.penN2,
                                             penN3 := t.result.penN3, penN4 := t.result.penN4,
                                             penDark := t.result.penDark, penalty := t.result.penalty } }

/-- R341, R331, R302: mask.apply m with D = 1, K = 0, m ≤ 7 completes: the format modules hold the bits of
fmtWord(LEVEL, m) with role FUNCTION; every other DATA module for which mask_m holds is inverted, every other module is
unchanged; no module is EMPTY or RESERVED; MASKID = m, K = 1; every byte outside the symbol and every other register is
unchanged but BUSY and DONE. -/
def Obligations.MaskApplyMasksMatrix : Prop :=
  ∀ (s : State) (m : Nat), s.MemoryOk → s.phase.Ok → s.SymbolOk → s.MatrixOk → s.phase.d = true →
    s.phase.k = false → m ≤ 7 →
    let isFormat : Nat → Nat → Prop := fun r c => ∃ i, i < 15 ∧ ((r, c) = formatPos1 i ∨ (r, c) = formatPos2 s.side i)
    ∃ t, exec (.maskApply m) s = .next t ∧ t.result.maskId.toNat = m ∧
      t = { s with latch := none, done := true, phase := { s.phase with k := true },
                   result := { s.result with maskId := t.result.maskId }, mem := t.mem } ∧
      (∀ i, i < 15 →
        t.moduleAt (formatPos1 i).1 (formatPos1 i).2 = ⟨(fmtWord s.level m).getLsbD i, .function⟩ ∧
        t.moduleAt (formatPos2 s.side i).1 (formatPos2 s.side i).2 = ⟨(fmtWord s.level m).getLsbD i, .function⟩) ∧
      (∀ r c, r < s.side → c < s.side → ¬ isFormat r c → t.moduleAt r c =
        if (s.moduleAt r c).role = .data ∧ maskCondition m r c = true
        then ⟨!(s.moduleAt r c).dark, .data⟩ else s.moduleAt r c) ∧
      (∀ r c, r < s.side → c < s.side → (t.moduleAt r c).role = .function ∨ (t.moduleAt r c).role = .data) ∧
      (∀ x, ¬ (∃ r c, r < s.side ∧ c < s.side ∧ x = 0x8000 + 177 * r + c) → t.readByte x = s.readByte x)

/-- R340, R338, R342: mask.select with D = 1, K = 0 completes: PENALTY[m] is for every m what mask.eval m reports on the
same state; the mask chosen has the least penalty, the lowest number among equals; MASKID, MX and PHASE are those
mask.apply of it leaves, and PEN_N1 to PEN_N4 and PEN_DARK those mask.eval of it reports; nothing else changes but BUSY
and DONE. -/
def Obligations.MaskSelectChoosesLeastPenalty : Prop :=
  ∀ s : State, s.phase.Ok → s.SymbolOk → s.phase.d = true → s.phase.k = false →
    ∃ (t u e : State) (best : Fin 8), exec .maskSelect s = .next t ∧ exec (.maskApply best.val) s = .next u ∧
      exec (.maskEval best.val) s = .next e ∧
      (∀ m : Fin 8, ∃ f, exec (.maskEval m.val) s = .next f ∧ f.result.penalty[m] = t.result.penalty[m]) ∧
      (∀ m : Fin 8, t.result.penalty[best].toNat ≤ t.result.penalty[m].toNat) ∧
      (∀ m : Fin 8, m < best → t.result.penalty[best].toNat < t.result.penalty[m].toNat) ∧
      t = { s with latch := none, done := true, phase := u.phase, mem := u.mem,
                   result := { s.result with maskId := u.result.maskId, penN1 := e.result.penN1,
                                             penN2 := e.result.penN2, penN3 := e.result.penN3,
                                             penN4 := e.result.penN4, penDark := e.result.penDark,
                                             penalty := t.result.penalty } }

/-- R333: a line that is cut into maximal runs costs 3 + (L - 5) for each run of length L ≥ 5, and nothing else. -/
def Obligations.RunPenalty : Prop :=
  ∀ runs : List (Bool × Nat), (∀ x ∈ runs, 1 ≤ x.2) → runs.IsChain (fun x y => x.1 ≠ y.1) →
    lineN1 (runs.flatMap fun x => List.replicate x.2 x.1) =
      (runs.map fun x => if 5 ≤ x.2 then 3 + (x.2 - 5) else 0).sum

/-- R334: N2 is 3 for each of the (N-1)² positions whose 2×2 block has one colour. -/
def Obligations.BlockPenalty : Prop :=
  ∀ (n : Nat) (rows : List (List Bool)), rows.length = n → (∀ row ∈ rows, row.length = n) →
    let at' : Nat → Nat → Bool := fun r c => (rows.getD r []).getD c false
    penaltyN2 rows = ((List.range (n - 1)).map fun r => ((List.range (n - 1)).map fun c =>
      if at' r c = at' r (c + 1) ∧ at' r c = at' (r + 1) c ∧ at' r c = at' (r + 1) (c + 1) then 3 else 0).sum).sum

/-- R335: under WINDOW11 each window of eleven modules of a line equal to P1 or to P2 adds 40; under QUIETZONE11 the same
holds of the line with four LIGHT modules added at each end. -/
def Obligations.FinderLikePenalty : Prop :=
  ∀ line : List Bool,
    let p1 := [true, false, true, true, true, false, true, false, false, false, false]
    let windows : List Bool → Nat := fun l => ((List.range (l.length - 10)).map fun t =>
      (if (l.drop t).take 11 = p1 then 40 else 0) + (if (l.drop t).take 11 = p1.reverse then 40 else 0)).sum
    lineN3 .window11 line = windows line ∧
    lineN3 .quietZone11 line = windows (List.replicate 4 false ++ line ++ List.replicate 4 false)

/-- R336: N4 is 10 times the greatest k with k·N² ≤ |20·dark - 10·N²|, that is 10·floor(|20·dark - 10·N²| / N²). -/
def Obligations.DarkPenalty : Prop :=
  ∀ n dark : Nat, 0 < n → ∃ k : Nat, penaltyN4 n dark = 10 * k ∧
    k * (n * n) ≤ ((20 * dark : Int) - 10 * (n * n)).natAbs ∧
    ((20 * dark : Int) - 10 * (n * n)).natAbs < (k + 1) * (n * n)

/-! ### encode -/

/-- R371, R372: encode fails exactly as vsel does, with vsel's error and no other change. When vsel chooses version v it
completes: VERSION, LEVEL, SIZE, DATA_CW, TOTAL_CW and REQ_BITS are vsel's; the stream in DCW is the segments' bits in
order, then the terminator and padding, to the full capacity; FCW holds the final sequence of DCW; every module is what
the function patterns put there, a format bit of (LEVEL, MASKID), or, with role DATA, the bit of FCW the zigzag brings
there, inverted where mask MASKID says so; MX reads 0 outside N×N; PENALTY[MASKID] is the least, at the lowest number
among equals, and the sum of PEN_N1 to PEN_N4; PHASE is 0x7F; GF_R, BCH_R, the operand registers and every byte outside
DCW, FCW[0..TOTAL_CW-1] and MX are unchanged. (What PENALTY and PEN_* are: `MaskSelectChoosesLeastPenalty` and
`MaskEvalReportsScore`, through `EncodeEqualsStepSequence`.) -/
def Obligations.EncodeBuildsSymbol : Prop :=
  ∀ s : State, s.MemoryOk →
    (∀ e, s.chooseVersion = .error e → exec .encode s = .next (s.completeError e)) ∧
    (∀ v, s.chooseVersion = .ok v →
      let l := Level.ofBits s.operand.cfgLevel
      let cw := dataCodewords v l
      let stream := (List.range s.operand.nseg.toNat).flatMap fun i =>
        emitSegment (s.descriptor i) v (s.segmentBytes (s.descriptor i))
      let path := (zigzagAll (4 * v + 17)).filter fun p => decide ((placedModule v p.1 p.2).role = .empty)
      ∃ t, exec .encode s = .next t ∧
        t = { s with latch := none, done := true, result := t.result, mem := t.mem,
                     phase := { v := true, f := true, c := true, m := true, p := true, d := true, k := true } } ∧
        t.phase.word = 0x7F ∧ t.result.version.toNat = v ∧ t.result.level = s.operand.cfgLevel ∧
        t.result.size.toNat = 4 * v + 17 ∧ t.result.dataCw.toNat = cw ∧ t.result.totalCw.toNat = totalCodewords v ∧
        t.result.reqBits.toNat = stream.length ∧ t.result.bitLen.toNat = 8 * cw ∧
        t.result.gfR = s.result.gfR ∧ t.result.bchR = s.result.bchR ∧
        (∀ j, j < 8 * cw → t.streamBit j = (stream ++ finishBits stream.length (8 * cw)).getD j false) ∧
        (∀ j, j < totalCodewords v → t.readByte (0x4000 + j) =
          (finalCodewords v l ((List.range cw).map fun k => t.readByte (0x3000 + k))).getD j 0) ∧
        (∀ r c, r < t.side → c < t.side → (t.moduleAt r c).role = .function ∨ (t.moduleAt r c).role = .data) ∧
        (∀ r c, r < t.side → c < t.side → (placedModule v r c).role = .function →
          t.moduleAt r c = placedModule v r c) ∧
        (∀ i, i < 15 →
          t.moduleAt (formatPos1 i).1 (formatPos1 i).2 =
            ⟨(fmtWord l t.result.maskId.toNat).getLsbD i, .function⟩ ∧
          t.moduleAt (formatPos2 t.side i).1 (formatPos2 t.side i).2 =
            ⟨(fmtWord l t.result.maskId.toNat).getLsbD i, .function⟩) ∧
        (∀ k p, path[k]? = some p → t.moduleAt p.1 p.2 =
          ⟨(decide (k < 8 * totalCodewords v) && (t.readByte (0x4000 + k / 8)).getLsbD (7 - k % 8)) ^^
            maskCondition t.result.maskId.toNat p.1 p.2, .data⟩) ∧
        (∀ best : Fin 8, best.val = t.result.maskId.toNat →
          t.result.penalty[best].toNat =
            t.result.penN1.toNat + t.result.penN2.toNat + t.result.penN3.toNat + t.result.penN4.toNat ∧
          (∀ m : Fin 8, t.result.penalty[best].toNat ≤ t.result.penalty[m].toNat) ∧
          (∀ m : Fin 8, m < best → t.result.penalty[best].toNat < t.result.penalty[m].toNat)) ∧
        t.MatrixOk ∧ t.MarginOk ∧
        (∀ x, ¬ (0x3000 ≤ x ∧ x < 0x4000) → ¬ (0x4000 ≤ x ∧ x < 0x4000 + totalCodewords v) →
          ¬ (0x8000 ≤ x ∧ x < 0xFA61) → t.readByte x = s.readByte x))

/-- R374: the host's sequence vsel, bs.clear, bs.seg 0 .. NSEG-1, bs.finish, ileave, mx.init, mx.func, mx.place,
mask.select, each issued after the one before has completed with success, leaves the same state as encode; and from
every state where vsel succeeds, all of the sequence does. -/
def Obligations.EncodeEqualsStepSequence : Prop :=
  let steps : State → List Instr := fun s =>
    [.vsel, .bsClear] ++ (List.range s.operand.nseg.toNat).map Instr.bsSeg ++
      [.bsFinish, .ileave, .mxInit, .mxFunc, .mxPlace, .maskSelect]
  (∀ s t : State, runCommands (steps s) s = some t → exec .encode (s.accept (encode .encode)) = .next t) ∧
  (∀ s u : State, s.MemoryOk → exec .vsel (s.accept (encode .vsel)) = .next u → u.err = false →
    ∃ t, runCommands (steps s) s = some t ∧ exec .encode (s.accept (encode .encode)) = .next t)

/-! ### The register map as it reads, and the laws of the field -/

/-- R31 to R62, R88: a host read of the register block while BUSY = 0 returns the register at that offset and changes
nothing else (R87); each offset of the register map reads its own register, CMD and every other offset 0. -/
def Obligations.RegisterReads : Prop :=
  (∀ (s : State) (a : Addr) (rest : List BusEvent), s.busy = false → a.toNat < 0x100 → a.toNat % 4 = 0 →
    s.inbox = .read a .four :: rest →
    step s = .next { s with inbox := rest, port := some (s.readRegister a.toNat) }) ∧
  (∀ s : State,
    let map : List (Nat × Nat) :=
      [(0x000, 0x51524531), (0x004, s.irqEn.toNat),
       (0x008, s.busy.toNat + 2 * s.done.toNat + 4 * s.err.toNat + 8 * s.ovr.toNat), (0x00C, 0),
       (0x010, s.errCode.toNat), (0x014, s.errInfo.toNat),
       (0x018, s.phase.v.toNat + 2 * s.phase.f.toNat + 4 * s.phase.c.toNat + 8 * s.phase.m.toNat +
         16 * s.phase.p.toNat + 32 * s.phase.d.toNat + 64 * s.phase.k.toNat),
       (0x020, s.operand.gfA.toNat), (0x024, s.operand.gfB.toNat), (0x028, s.operand.gfE.toNat),
       (0x02C, s.result.gfR.toNat), (0x030, s.operand.cfgLevel.toNat), (0x034, s.operand.cfgVersion.toNat),
       (0x038, s.operand.nseg.toNat), (0x03C, s.operand.bsValue.toNat), (0x040, s.operand.rsDeg.toNat),
       (0x044, s.operand.rsLen.toNat), (0x048, s.operand.rsSrc.toNat), (0x04C, s.result.bchR.toNat),
       (0x050, s.result.version.toNat), (0x054, s.result.size.toNat), (0x058, s.result.dataCw.toNat),
       (0x05C, s.result.totalCw.toNat), (0x060, s.result.bitLen.toNat), (0x064, s.result.reqBits.toNat),
       (0x068, s.result.maskId.toNat), (0x06C, s.result.level.toNat), (0x070, s.result.penN1.toNat),
       (0x074, s.result.penN2.toNat), (0x078, s.result.penN3.toNat), (0x07C, s.result.penN4.toNat),
       (0x080, s.result.penDark.toNat), (0x0A0, s.result.penalty[0].toNat), (0x0A4, s.result.penalty[1].toNat),
       (0x0A8, s.result.penalty[2].toNat), (0x0AC, s.result.penalty[3].toNat), (0x0B0, s.result.penalty[4].toNat),
       (0x0B4, s.result.penalty[5].toNat), (0x0B8, s.result.penalty[6].toNat), (0x0BC, s.result.penalty[7].toNat)]
    (∀ p ∈ map, (s.readRegister p.1).toNat = p.2) ∧
    (∀ offset, (∀ p ∈ map, p.1 ≠ offset) → s.readRegister offset = 0))

/-- R150: the four laws: the result of gf.mul is mulp of its operands; ⊗ is commutative and associative and distributes
over ⊕; every a ≠ 0 has the inverse EXP[(255 - LOG[a]) mod 255], 0x53 and 0x8C among them; and α^8 = 0x1D. -/
def Obligations.FieldLaws : Prop :=
  (∀ s t : State, exec .gfMul s = .next t → t.result.gfR = mulp s.operand.gfA s.operand.gfB) ∧
  (∀ a b c : Byte, mulp a b = mulp b a ∧ mulp (mulp a b) c = mulp a (mulp b c) ∧
    mulp a (b ^^^ c) = mulp a b ^^^ mulp a c ∧ mulp (a ^^^ b) c = mulp a c ^^^ mulp b c) ∧
  (∀ a : Byte, a ≠ 0 → gfInverse a = expRom ((255 - (logRom a.toNat).toNat) % 255) ∧ mulp a (gfInverse a) = 1) ∧
  gfInverse 0x53 = 0x8C ∧ mulp 0x53 0x8C = 1 ∧ (mulp 2)^[8] 1 = 0x1D ∧ expRom 8 = 0x1D
end

