-- ==== Sys2Proof/Laws/Memory.lean ====
section
/-! SUPPORT. The laws of memory: what a byte reads as after each memory operation, and that each keeps the canonical
form. -/

namespace Sys2Proof.Machine

open Sys2Proof

/-! ### The list -/

/-- Cells at strictly rising addresses: the first half of `Memory.wf`. -/
abbrev Memory.Rising (m : Memory) : Prop := m.Pairwise (fun x y => x.1 < y.1)

@[simp] theorem Memory.read_nil (a : Nat) : Memory.read [] a = none := rfl

theorem Memory.read_cons (c : Host.Cell) (m : Memory) (a : Nat) :
    Memory.read (c :: m) a = if c.1 = a then some c.2 else Memory.read m a := rfl

theorem Memory.read_append (l m : Memory) (a : Nat) :
    Memory.read (l ++ m) a = (Memory.read l a).or (Memory.read m a) := by
  induction l with
  | nil => rfl
  | cons c l ih =>
    simp only [List.cons_append, Memory.read_cons, ih]
    split <;> simp

/-- An address below every listed one is not listed. -/
theorem Memory.read_eq_none {m : Memory} {a : Nat} (h : ∀ x ∈ m, x.1 ≠ a) : Memory.read m a = none := by
  induction m with
  | nil => rfl
  | cons c m ih =>
    rw [Memory.read_cons, if_neg (h c (by simp)), ih fun x hx => h x (by simp [hx])]

theorem Memory.mem_of_read {m : Memory} {a : Nat} {v : Byte} (h : Memory.read m a = some v) : (a, v) ∈ m := by
  induction m with
  | nil => simp at h
  | cons c m ih =>
    rw [Memory.read_cons] at h
    split at h
    · next hc => subst hc; cases h; exact List.mem_cons_self
    · simp [ih h]

/-- Reading below the cut of `takeWhile`. -/
theorem Memory.read_takeWhile {m : Memory} (hm : m.Rising) (b a : Nat) :
    Memory.read (m.takeWhile (·.1 < b)) a = if a < b then Memory.read m a else none := by
  induction m with
  | nil => simp
  | cons c m ih =>
    have hc := (List.pairwise_cons.1 hm).1
    have ih := ih hm.of_cons
    by_cases h : c.1 < b
    · simp only [List.takeWhile_cons, h, decide_true, if_true, Memory.read_cons, ih]
      split <;> split <;> simp_all
    · simp only [List.takeWhile_cons, h, decide_false, Bool.false_eq_true, if_false, Memory.read_nil]
      split
      · refine (Memory.read_eq_none fun x hx => ?_).symm
        rcases List.mem_cons.1 hx with rfl | hx
        · omega
        · have := hc _ hx; omega
      · rfl

/-- Reading above the cut of `dropWhile`. -/
theorem Memory.read_dropWhile_le {m : Memory} (hm : m.Rising) (b a : Nat) :
    Memory.read (m.dropWhile (·.1 ≤ b)) a = if b < a then Memory.read m a else none := by
  induction m with
  | nil => simp
  | cons c m ih =>
    have hc := (List.pairwise_cons.1 hm).1
    have ih := ih hm.of_cons
    by_cases h : c.1 ≤ b
    · simp only [List.dropWhile_cons, h, decide_true, if_true, Memory.read_cons, ih]
      split <;> simp_all
      omega
    · simp only [List.dropWhile_cons, h, decide_false, Bool.false_eq_true, if_false]
      split
      · rfl
      · refine Memory.read_eq_none fun x hx => ?_
        rcases List.mem_cons.1 hx with rfl | hx
        · omega
        · have := hc _ hx; omega

theorem Memory.read_dropWhile_lt {m : Memory} (hm : m.Rising) (b a : Nat) :
    Memory.read (m.dropWhile (·.1 < b)) a = if b ≤ a then Memory.read m a else none := by
  cases b with
  | zero =>
    have : m.dropWhile (·.1 < 0) = m := by cases m <;> simp
    rw [this, if_pos (Nat.zero_le a)]
  | succ b =>
    have : m.dropWhile (·.1 < b + 1) = m.dropWhile (·.1 ≤ b) := by simp only [Nat.lt_succ_iff]
    rw [this, Memory.read_dropWhile_le hm]
    rfl

theorem Memory.dropWhile_gt {m : Memory} (hm : m.Rising) (b : Nat) : ∀ x ∈ m.dropWhile (·.1 ≤ b), b < x.1 := by
  induction m with
  | nil => simp
  | cons c m ih =>
    have hc := (List.pairwise_cons.1 hm).1
    by_cases h : c.1 ≤ b
    · simpa [List.dropWhile_cons, h] using ih hm.of_cons
    · simp only [List.dropWhile_cons, h, decide_false, Bool.false_eq_true, if_false]
      intro x hx
      rcases List.mem_cons.1 hx with rfl | hx
      · omega
      · have := hc _ hx; omega

theorem Memory.dropWhile_ge {m : Memory} (hm : m.Rising) (b : Nat) : ∀ x ∈ m.dropWhile (·.1 < b), b ≤ x.1 := by
  cases b with
  | zero => simp
  | succ b =>
    have e : m.dropWhile (·.1 < b + 1) = m.dropWhile (·.1 ≤ b) := by simp only [Nat.lt_succ_iff]
    rw [e]
    exact Memory.dropWhile_gt hm b

/-- A read after a store: the stored byte where one is stored, else what was there. -/
theorem Memory.read_store {ws m : Memory} (hw : ws.Rising) (hm : m.Rising) (a : Nat) :
    Memory.read (Memory.store ws m) a = (Memory.read ws a).or (Memory.read m a) := by
  induction ws generalizing m with
  | nil => simp [Memory.store]
  | cons c ws ih =>
    have hc := (List.pairwise_cons.1 hw).1
    have hd : Memory.Rising (m.dropWhile (·.1 ≤ c.1)) := hm.sublist (List.dropWhile_sublist _)
    simp only [Memory.store, Memory.read_append, Memory.read_cons, ih hw.of_cons hd,
      Memory.read_takeWhile hm, Memory.read_dropWhile_le hm]
    rcases Nat.lt_trichotomy a c.1 with h | h | h
    · have : Memory.read ws a = none := Memory.read_eq_none fun x hx => by have := hc _ hx; omega
      have h1 : c.1 ≠ a := by omega
      have h2 : ¬ c.1 < a := by omega
      simp [h, this, h1, h2]
    · subst h
      simp
    · have h1 : ¬ a < c.1 := by omega
      have h2 : c.1 ≠ a := by omega
      simp [h, h1, h2]

theorem Memory.mem_store {ws m : Memory} {x : Host.Cell} (h : x ∈ Memory.store ws m) : x ∈ ws ∨ x ∈ m := by
  induction ws generalizing m with
  | nil => exact .inr h
  | cons c ws ih =>
    simp only [Memory.store, List.mem_append, List.mem_cons] at h
    rcases h with h | h | h
    · exact .inr ((List.takeWhile_sublist _).subset h)
    · exact .inl (by simp [h])
    · rcases ih h with h | h
      · exact .inl (by simp [h])
      · exact .inr ((List.dropWhile_sublist _).subset h)

theorem Memory.rising_store {ws m : Memory} (hw : ws.Rising) (hm : m.Rising) : (Memory.store ws m).Rising := by
  induction ws generalizing m with
  | nil => exact hm
  | cons c ws ih =>
    have hc := (List.pairwise_cons.1 hw).1
    have hd : Memory.Rising (m.dropWhile (·.1 ≤ c.1)) := hm.sublist (List.dropWhile_sublist _)
    have above : ∀ x ∈ Memory.store ws (m.dropWhile (·.1 ≤ c.1)), c.1 < x.1 := fun x hx => by
      rcases Memory.mem_store hx with h | h
      · exact hc _ h
      · exact Memory.dropWhile_gt hm _ x h
    have below : ∀ x ∈ m.takeWhile (·.1 < c.1), x.1 < c.1 := fun x hx => by
      simpa using (List.mem_takeWhile_imp hx)
    refine List.pairwise_append.2 ⟨hm.sublist (List.takeWhile_sublist _), List.pairwise_cons.2 ⟨above, ih hw.of_cons hd⟩, ?_⟩
    intro x hx y hy
    have := below x hx
    rcases List.mem_cons.1 hy with rfl | hy
    · exact this
    · have := above y hy; omega

/-- A store to RAM keeps the canonical form. -/
theorem Memory.wf_store {ws m : Memory} (hw : Memory.wf ws) (hm : m.wf) : (Memory.store ws m).wf :=
  ⟨Memory.rising_store hw.1 hm.1, fun x hx => (Memory.mem_store hx).elim (hw.2 x) (hm.2 x)⟩

theorem Memory.read_erase (base size : Nat) (m : Memory) (a : Nat) :
    Memory.read (m.erase base size) a = if base ≤ a ∧ a < base + size then none else Memory.read m a := by
  induction m with
  | nil => simp [Memory.erase]
  | cons c m ih =>
    simp only [Memory.erase, List.filter_cons] at ih ⊢
    by_cases h : base ≤ c.1 ∧ c.1 < base + size
    · simp only [h.1, h.2, decide_true, Bool.and_self, Bool.not_true, Bool.false_eq_true, if_false, ih, Memory.read_cons]
      split
      · rfl
      · next h' => rw [if_neg]; rintro rfl; exact h' h
    · have : (!(decide (base ≤ c.1) && decide (c.1 < base + size))) = true := by
        simp only [Bool.not_eq_true', Bool.and_eq_false_iff, decide_eq_false_iff_not]; omega
      simp only [this, if_true, Memory.read_cons, ih]
      split
      · next hc => subst hc; rw [if_neg h]
      · rfl

/-- Forgetting a buffer's bytes keeps the canonical form. -/
theorem Memory.wf_erase (base size : Nat) {m : Memory} (hm : m.wf) : (m.erase base size).wf :=
  ⟨hm.1.sublist List.filter_sublist, fun x hx => hm.2 x (List.mem_of_mem_filter hx)⟩

/-! ### Runs of cells -/

theorem read_cellsFrom (a : Nat) (bs : List Byte) (x : Nat) :
    Memory.read (cellsFrom a bs) x = if a ≤ x then bs[x - a]? else none := by
  induction bs generalizing a with
  | nil => simp [cellsFrom]
  | cons b bs ih =>
    simp only [cellsFrom, Memory.read_cons, ih]
    rcases Nat.lt_trichotomy x a with h | h | h
    · rw [if_neg (by omega), if_neg (by omega), if_neg (by omega)]
    · subst h; simp
    · rw [if_neg (by omega), if_pos (by omega), if_pos (by omega)]
      obtain ⟨k, rfl⟩ : ∃ k, x = a + 1 + k := ⟨x - a - 1, by omega⟩
      rw [show a + 1 + k - a = k + 1 by omega, show a + 1 + k - (a + 1) = k by omega]
      simp

theorem mem_cellsFrom {a : Nat} {bs : List Byte} {x : Host.Cell} (h : x ∈ cellsFrom a bs) :
    a ≤ x.1 ∧ x.1 < a + bs.length ∧ x.2 ∈ bs := by
  induction bs generalizing a with
  | nil => simp [cellsFrom] at h
  | cons b bs ih =>
    simp only [cellsFrom, List.mem_cons] at h
    rcases h with rfl | h
    · simp
    · obtain ⟨h1, h2, h3⟩ := ih h
      exact ⟨by omega, by rw [List.length_cons]; omega, List.mem_cons_of_mem _ h3⟩

theorem rising_cellsFrom (a : Nat) (bs : List Byte) : Memory.Rising (cellsFrom a bs) := by
  induction bs generalizing a with
  | nil => exact .nil
  | cons b bs ih => exact List.pairwise_cons.2 ⟨fun x hx => (mem_cellsFrom hx).1, ih (a + 1)⟩

theorem walk_eq_map (draw : Nat → Byte) (n a : Nat) {m : Memory} (hm : m.Rising) (ha : ∀ x ∈ m, a ≤ x.1) :
    Memory.walk draw n a m = (List.range n).map fun j => (Memory.read m (a + j)).getD (draw (a + j)) := by
  induction n generalizing a m with
  | zero => rfl
  | succ n ih =>
    rw [List.range_succ_eq_map, List.map_cons, List.map_map]
    cases m with
    | nil =>
      simp only [Memory.walk, Memory.read_nil, Option.getD_none, Nat.add_zero]
      rw [ih (a + 1) hm (by simp)]
      congr 1
      exact List.map_congr_left fun j _ => by simp [Nat.add_assoc, Nat.add_comm 1]
    | cons c m =>
      have hc := (List.pairwise_cons.1 hm).1
      obtain ⟨b, v⟩ := c
      simp only [Memory.walk]
      split
      · next h =>
        subst h
        rw [ih (b + 1) hm.of_cons (fun x hx => hc _ hx)]
        simp only [Memory.read_cons, Nat.add_zero, if_true, Option.getD_some]
        congr 1
        exact List.map_congr_left fun j _ => by
          simp only [Function.comp, Nat.succ_eq_add_one]
          rw [if_neg (by omega), show b + 1 + j = b + (j + 1) by omega]
      · next h =>
        have hab : a < b := by have := ha (b, v) (by simp); simp at this; omega
        rw [ih (a + 1) hm (fun x hx => by
          rcases List.mem_cons.1 hx with rfl | hx
          · exact hab
          · have := hc _ hx; simp at this; omega)]
        congr 1
        · rw [Memory.read_eq_none]
          · rfl
          · intro x hx
            rcases List.mem_cons.1 hx with rfl | hx
            · simp; omega
            · have := hc _ hx; simp at this; omega
        · exact List.map_congr_left fun j _ => by
            simp only [Function.comp, Nat.succ_eq_add_one]
            rw [show a + 1 + j = a + (j + 1) by omega]

/-! ### The buffers -/

/-- Where a buffer's bytes lie. -/
theorem regionAt_base (g : Region) {i : Nat} (h : i < g.size) : regionAt (g.base + i) = some g := by
  cases g <;> simp only [Region.size, Region.base] at * <;> unfold regionAt <;>
    repeat (first | rw [if_pos (by omega)] | rw [if_neg (by omega)])

theorem regionAt_some {a : Nat} {g : Region} (h : regionAt a = some g) : g.base ≤ a ∧ a < g.base + g.size := by
  unfold regionAt at h
  split at h
  · cases h; simpa [Region.base, Region.size] using ‹_›
  split at h
  · cases h; simpa [Region.base, Region.size] using ‹_›
  split at h
  · cases h; simpa [Region.base, Region.size] using ‹_›
  split at h
  · cases h; simpa [Region.base, Region.size] using ‹_›
  split at h
  · cases h; simpa [Region.base, Region.size] using ‹_›
  split at h
  · cases h; simpa [Region.base, Region.size] using ‹_›
  split at h
  · cases h; simpa [Region.base, Region.size] using ‹_›
  · cases h

/-- Two buffers share no address. -/
theorem region_disjoint {g h : Region} {i j : Nat} (hi : i < g.size) (hj : j < h.size)
    (e : g.base + i = h.base + j) : g = h ∧ i = j := by
  have h1 := regionAt_base g hi
  rw [e, regionAt_base h hj] at h1
  cases h1
  exact ⟨rfl, by omega⟩

/-- `bytes` is `buf` at each index. -/
theorem State.bytes_eq_map_buf (s : State) (hm : s.mem.wf) (g : Region) (i n : Nat) :
    s.bytes g i n = (List.range n).map fun j => s.buf g (i + j) := by
  unfold State.bytes
  rw [walk_eq_map _ _ _ (hm.1.sublist (List.dropWhile_sublist _)) (Memory.dropWhile_ge hm.1 _)]
  refine List.map_congr_left fun j _ => ?_
  rw [Memory.read_dropWhile_lt hm.1, if_pos (by omega), State.buf, Nat.add_assoc]

@[simp] theorem State.bytes_length (s : State) (g : Region) (i n : Nat) : (s.bytes g i n).length = n := by
  have : ∀ (draw : Nat → Byte) n a (m : Memory), (Memory.walk draw n a m).length = n := by
    intro draw n
    induction n with
    | zero => intros; rfl
    | succ n ih =>
      intro a m
      cases m with
      | nil => simp [Memory.walk, ih]
      | cons c m => obtain ⟨b, v⟩ := c; simp only [Memory.walk]; split <;> simp [ih]
  exact this _ _ _ _

theorem State.draw_of_epoch {s t : State} (h : t.epoch = s.epoch) (g : Region) (a : Nat) : t.draw g a = s.draw g a := by
  cases g <;> simp [State.draw, h]

/-- A byte after a store: the stored byte where one is stored, else the byte before. -/
theorem State.buf_store (s : State) {ws : Memory} (hw : ws.Rising) (hm : s.mem.wf) (g : Region) (i : Nat) :
    (s.store ws).buf g i = (Memory.read ws (g.base + i)).getD (s.buf g i) := by
  have hd : (s.store ws).draw g (g.base + i) = s.draw g (g.base + i) := State.draw_of_epoch rfl g _
  have hr : (s.store ws).mem.read (g.base + i) = _ := Memory.read_store hw hm.1 _
  rw [State.buf, hd, hr, State.buf]
  cases Memory.read ws (g.base + i) <;> simp

/-- A byte after a run of bytes is written into a buffer. -/
theorem State.buf_setBytes (s : State) (hm : s.mem.wf) {g h : Region} {i j : Nat} {bs : List Byte}
    (hi : i + bs.length ≤ g.size) (hj : j < h.size) :
    (s.setBytes g i bs).buf h j = if h = g ∧ i ≤ j then bs[j - i]?.getD (s.buf h j) else s.buf h j := by
  rw [State.setBytes, State.buf_store _ (rising_cellsFrom _ _) hm, read_cellsFrom]
  by_cases hg : h = g
  · subst hg
    by_cases hij : i ≤ j
    · rw [if_pos (c := h.base + i ≤ _) (by omega), if_pos ⟨rfl, hij⟩, show h.base + j - (h.base + i) = j - i by omega]
    · rw [if_neg (c := h.base + i ≤ _) (by omega), if_neg (by simp [hij])]; rfl
  · rw [if_neg (c := h = g ∧ i ≤ j) (by simp [hg])]
    split
    · next hle =>
      rcases Nat.lt_or_ge (h.base + j - (g.base + i)) bs.length with hl | hl
      · exact absurd (region_disjoint (g := h) (h := g) (i := j) (j := h.base + j - g.base) hj (by omega) (by omega)).1 hg
      · rw [List.getElem?_eq_none hl]; rfl
    · rfl

/-- Cells that lie in one buffer are in canonical form. -/
theorem wf_cellsFrom (g : Region) {i : Nat} {bs : List Byte} (hi : i + bs.length ≤ g.size) :
    Memory.wf (cellsFrom (g.base + i) bs) := by
  refine ⟨rising_cellsFrom _ _, fun x hx => ?_⟩
  have := mem_cellsFrom hx
  have := regionAt_base g (i := x.1 - g.base) (by omega)
  rw [show g.base + (x.1 - g.base) = x.1 by omega] at this
  simp [this]

theorem State.wf_setBytes (s : State) (hm : s.mem.wf) {g : Region} {i : Nat} {bs : List Byte}
    (hi : i + bs.length ≤ g.size) : (s.setBytes g i bs).mem.wf :=
  Memory.wf_store (wf_cellsFrom g hi) hm

/-- A byte after a buffer becomes draws: of that buffer, the next generation's draw; of another, the byte before. -/
theorem State.buf_redraw (s : State) (g : Region) {h : Region} {j : Nat} (hj : j < h.size) :
    (s.redraw g).buf h j = if h = g then (s.redraw g).draw g (g.base + j) else s.buf h j := by
  rw [State.buf]
  have hread : (s.redraw g).mem.read (h.base + j) =
      if g.base ≤ h.base + j ∧ h.base + j < g.base + g.size then none else s.mem.read (h.base + j) :=
    Memory.read_erase _ _ _ _
  rw [hread]
  by_cases hg : h = g
  · subst hg
    rw [if_pos (by omega), if_pos rfl]; rfl
  · rw [if_neg, if_neg hg, State.buf]
    · congr 1
      cases g <;> cases h <;> first | exact absurd rfl hg | rfl
    · rintro ⟨h1, h2⟩
      exact hg (region_disjoint (g := h) (h := g) (i := j) (j := h.base + j - g.base) hj (by omega) (by omega)).1

theorem State.wf_redraw (s : State) (g : Region) (hm : s.mem.wf) : (s.redraw g).mem.wf := Memory.wf_erase _ _ hm

theorem State.wf_redrawAll (s : State) (gs : List Region) (hm : s.mem.wf) : (s.redrawAll gs).mem.wf := by
  induction gs generalizing s with
  | nil => exact hm
  | cons g gs ih => exact ih _ (s.wf_redraw g hm)

end Sys2Proof.Machine
end

