-- ==== Sys2Proof/Laws/Bitstream.lean ====
section
/-! SUPPORT. The law of the append primitive (42_bitstream.md R200, R201): which stream bits and which registers an
append writes. -/

namespace Sys2Proof.Machine

open Sys2Proof

theorem getLsbD_setBit (x : Byte) {i j : Nat} (hj : j < 8) (b : Bool) :
    (setBit x i b).getLsbD j = if j = i then b else x.getLsbD j := by
  unfold setBit
  cases b
  · simp only [Bool.false_eq_true, if_false, BitVec.getLsbD_and, BitVec.getLsbD_not, BitVec.getLsbD_shiftLeft,
      BitVec.getLsbD_one, hj, decide_true, Bool.true_and]
    split
    · next h => subst h; simp
    · next h =>
      by_cases h' : j < i
      · simp [h']
      · have : j - i ≠ 0 := by omega
        simp [this]
  · simp only [if_true, BitVec.getLsbD_or, BitVec.getLsbD_shiftLeft, BitVec.getLsbD_one, hj, decide_true, Bool.true_and]
    split
    · next h => subst h; simp
    · next h =>
      by_cases h' : j < i
      · simp [h']
      · have : j - i ≠ 0 := by omega
        simp [this]

/-- Bit k of a byte list, most significant bit of byte 0 first. -/
def bitAt (buf : List Byte) (k : Nat) : Bool := (buf.getD (k / 8) 0).getLsbD (7 - k % 8)

@[simp] theorem putBit_length (buf : List Byte) (k : Nat) (b : Bool) : (putBit buf k b).length = buf.length := by
  simp [putBit]

theorem bitAt_putBit (buf : List Byte) {k j : Nat} (hk : k < 8 * buf.length) (b : Bool) :
    bitAt (putBit buf k b) j = if j = k then b else bitAt buf j := by
  have hk8 : k / 8 < buf.length := by omega
  simp only [bitAt, putBit, List.getD_eq_getElem?_getD, List.getElem?_modify]
  by_cases h : k / 8 = j / 8
  · rw [← h, List.getElem?_eq_getElem hk8]
    simp only [if_true, Option.map_eq_map, Option.map_some, Option.getD_some]
    rw [getLsbD_setBit _ (by omega)]
    by_cases hjk : j = k
    · simp [hjk]
    · rw [if_neg (by omega), if_neg hjk]
  · have : j ≠ k := by rintro rfl; exact h rfl
    simp [h, this]

@[simp] theorem putBits_length (buf : List Byte) (k : Nat) (bs : List Bool) : (putBits buf k bs).length = buf.length := by
  induction bs generalizing buf k with
  | nil => rfl
  | cons b bs ih => simp [putBits, ih]

theorem bitAt_putBits (buf : List Byte) {k j : Nat} {bs : List Bool} (hk : k + bs.length ≤ 8 * buf.length) :
    bitAt (putBits buf k bs) j = if k ≤ j then bs[j - k]?.getD (bitAt buf j) else bitAt buf j := by
  induction bs generalizing buf k with
  | nil => simp [putBits]
  | cons b bs ih =>
    rw [List.length_cons] at hk
    rw [putBits, ih _ (by rw [putBit_length]; omega), bitAt_putBit _ (by omega)]
    rcases Nat.lt_trichotomy j k with h | h | h
    · rw [if_neg (by omega), if_neg (by omega), if_neg (by omega)]
    · subst h; simp
    · obtain ⟨d, rfl⟩ : ∃ d, j = k + 1 + d := ⟨j - k - 1, by omega⟩
      rw [if_pos (by omega), if_neg (by omega), if_pos (by omega), show k + 1 + d - (k + 1) = d by omega,
        show k + 1 + d - k = d + 1 by omega]
      simp

/-- Two bytes with equal stream bits are equal. -/
theorem buf_eq_of_streamBit {s t : State} {i : Nat} (h : ∀ b < 8, t.streamBit (8 * i + b) = s.streamBit (8 * i + b)) :
    t.buf .dcw i = s.buf .dcw i := by
  refine BitVec.eq_of_getLsbD_eq fun b hb => ?_
  have := h (7 - b) (by omega)
  rwa [State.streamBit, State.streamBit, show (8 * i + (7 - b)) / 8 = i by omega,
    show 7 - (8 * i + (7 - b)) % 8 = b by omega] at this

/-- The append primitive, everything it does: BITLEN moves on, the stream bits from the old BITLEN on are the appended
ones, and every other bit of DCW, every other buffer and every other register stays. -/
theorem State.appendBits_spec {s : State} (hm : s.MemoryOk) {bs : List Bool}
    (hk : s.result.bitLen.toNat + bs.length ≤ 32768) :
    (s.appendBits bs).MemoryOk ∧
    (s.appendBits bs).result = { s.result with bitLen := BitVec.ofNat 16 (s.result.bitLen.toNat + bs.length) } ∧
    (s.appendBits bs) = { s with result := (s.appendBits bs).result, mem := (s.appendBits bs).mem } ∧
    (∀ j < 32768, (s.appendBits bs).streamBit j =
      if s.result.bitLen.toNat ≤ j then bs[j - s.result.bitLen.toNat]?.getD (s.streamBit j) else s.streamBit j) ∧
    (∀ h : Region, h ≠ .dcw → ∀ i < h.size, (s.appendBits bs).buf h i = s.buf h i) := by
  cases bs with
  | nil =>
    refine ⟨hm, ?_, rfl, fun j _ => ?_, fun _ _ _ _ => rfl⟩
    · simp [State.appendBits]
    · simp [State.appendBits]
  | cons b bs =>
    set k := s.result.bitLen.toNat with hkdef
    set all := b :: bs with hall
    set first := k / 8 with hf
    set count := (k + all.length + 7) / 8 - first with hcnt
    set new := putBits (s.bytes .dcw first count) (k % 8) all with hnew
    have hpos : 0 < all.length := by simp [hall]
    have hform : s.appendBits all = (s.setBytes .dcw first new).setBitLen (k + all.length) := rfl
    have hnl : new.length = count := by rw [hnew, putBits_length, State.bytes_length]
    have hfit : first + new.length ≤ Region.size .dcw := by rw [hnl]; show _ ≤ 4096; omega
    have wf := State.wf_setBytes s hm.1 hfit
    have hbuf : ∀ (h : Region), ∀ i < h.size, (s.appendBits all).buf h i =
        if h = .dcw ∧ first ≤ i then new[i - first]?.getD (s.buf h i) else s.buf h i := by
      intro h i hi
      exact State.buf_setBytes s hm.1 hfit hi
    refine ⟨⟨wf, ?_⟩, rfl, rfl, ?_, ?_⟩
    · intro x hx hr
      rcases Memory.mem_store hx with hx | hx
      · have hc := mem_cellsFrom hx
        have hd := regionAt_base .dcw (i := x.1 - Region.base .dcw) (by rw [hnl] at *; omega)
        rw [show Region.base .dcw + (x.1 - Region.base .dcw) = x.1 by omega, hr] at hd
        cases hd
      · exact hm.2 x hx hr
    · intro j hj
      rw [State.streamBit, hbuf .dcw (j / 8) (by show _ < 4096; omega)]
      by_cases h1 : first ≤ j / 8
      · rw [if_pos ⟨rfl, h1⟩]
        by_cases h2 : j / 8 - first < count
        · have hb := bitAt_putBits (s.bytes .dcw first count) (k := k % 8) (j := j - 8 * first) (bs := all)
            (by rw [State.bytes_length]; omega)
          have e1 : (j - 8 * first) / 8 = j / 8 - first := by omega
          have e2 : (j - 8 * first) % 8 = j % 8 := by omega
          have old : bitAt (s.bytes .dcw first count) (j - 8 * first) = s.streamBit j := by
            rw [bitAt, e1, e2, s.bytes_eq_map_buf hm.1, List.getD_eq_getElem?_getD, List.getElem?_map,
              List.getElem?_range h2]
            simp [State.streamBit, show first + (j / 8 - first) = j / 8 by omega]
          rw [old, ← hnew] at hb
          have lhs : bitAt new (j - 8 * first) = (new[j / 8 - first]?.getD (s.buf .dcw (j / 8))).getLsbD (7 - j % 8) := by
            rw [bitAt, e1, e2, List.getD_eq_getElem?_getD, List.getElem?_eq_getElem (by omega)]
            rfl
          rw [← lhs, hb]
          by_cases h3 : k ≤ j
          · rw [if_pos (by omega), if_pos h3, show j - 8 * first - k % 8 = j - k by omega]
          · rw [if_neg (by omega), if_neg h3]
        · rw [List.getElem?_eq_none (by omega), Option.getD_none]
          split
          · rw [List.getElem?_eq_none (by omega)]; rfl
          · rfl
      · rw [if_neg (by simp [h1]), if_neg (by omega)]
        rfl
    · intro h hh i hi
      rw [hbuf h i hi, if_neg (by simp [hh])]

end Sys2Proof.Machine
end

