-- ==== Sys2Proof/Laws/State.lean ====
section
/-! SUPPORT. What each update of the state does to each field: one lemma for each field and update, true by
computation, so that no later proof unfolds a record update. -/

namespace Sys2Proof.Machine

open Sys2Proof

/-! ### store -/

@[simp] theorem State.store_operand (s : State) (ws : List Host.Cell) : (s.store ws).operand = s.operand := rfl
@[simp] theorem State.store_result (s : State) (ws : List Host.Cell) : (s.store ws).result = s.result := rfl
@[simp] theorem State.store_phase (s : State) (ws : List Host.Cell) : (s.store ws).phase = s.phase := rfl
@[simp] theorem State.store_irqEn (s : State) (ws : List Host.Cell) : (s.store ws).irqEn = s.irqEn := rfl
@[simp] theorem State.store_done (s : State) (ws : List Host.Cell) : (s.store ws).done = s.done := rfl
@[simp] theorem State.store_err (s : State) (ws : List Host.Cell) : (s.store ws).err = s.err := rfl
@[simp] theorem State.store_ovr (s : State) (ws : List Host.Cell) : (s.store ws).ovr = s.ovr := rfl
@[simp] theorem State.store_errCode (s : State) (ws : List Host.Cell) : (s.store ws).errCode = s.errCode := rfl
@[simp] theorem State.store_errInfo (s : State) (ws : List Host.Cell) : (s.store ws).errInfo = s.errInfo := rfl
@[simp] theorem State.store_latch (s : State) (ws : List Host.Cell) : (s.store ws).latch = s.latch := rfl
@[simp] theorem State.store_mem (s : State) (ws : List Host.Cell) : (s.store ws).mem = s.mem.store ws := rfl
@[simp] theorem State.store_epoch (s : State) (ws : List Host.Cell) : (s.store ws).epoch = s.epoch := rfl
@[simp] theorem State.store_inbox (s : State) (ws : List Host.Cell) : (s.store ws).inbox = s.inbox := rfl
@[simp] theorem State.store_port (s : State) (ws : List Host.Cell) : (s.store ws).port = s.port := rfl
@[simp] theorem State.store_draws (s : State) (ws : List Host.Cell) : (s.store ws).draws = s.draws := rfl

/-! ### setBytes -/

@[simp] theorem State.setBytes_operand (s : State) (g : Region) (i : Nat) (bs : List Byte) : (s.setBytes g i bs).operand = s.operand := rfl
@[simp] theorem State.setBytes_result (s : State) (g : Region) (i : Nat) (bs : List Byte) : (s.setBytes g i bs).result = s.result := rfl
@[simp] theorem State.setBytes_phase (s : State) (g : Region) (i : Nat) (bs : List Byte) : (s.setBytes g i bs).phase = s.phase := rfl
@[simp] theorem State.setBytes_irqEn (s : State) (g : Region) (i : Nat) (bs : List Byte) : (s.setBytes g i bs).irqEn = s.irqEn := rfl
@[simp] theorem State.setBytes_done (s : State) (g : Region) (i : Nat) (bs : List Byte) : (s.setBytes g i bs).done = s.done := rfl
@[simp] theorem State.setBytes_err (s : State) (g : Region) (i : Nat) (bs : List Byte) : (s.setBytes g i bs).err = s.err := rfl
@[simp] theorem State.setBytes_ovr (s : State) (g : Region) (i : Nat) (bs : List Byte) : (s.setBytes g i bs).ovr = s.ovr := rfl
@[simp] theorem State.setBytes_errCode (s : State) (g : Region) (i : Nat) (bs : List Byte) : (s.setBytes g i bs).errCode = s.errCode := rfl
@[simp] theorem State.setBytes_errInfo (s : State) (g : Region) (i : Nat) (bs : List Byte) : (s.setBytes g i bs).errInfo = s.errInfo := rfl
@[simp] theorem State.setBytes_latch (s : State) (g : Region) (i : Nat) (bs : List Byte) : (s.setBytes g i bs).latch = s.latch := rfl
@[simp] theorem State.setBytes_mem (s : State) (g : Region) (i : Nat) (bs : List Byte) : (s.setBytes g i bs).mem = s.mem.store (cellsFrom (g.base + i) bs) := rfl
@[simp] theorem State.setBytes_epoch (s : State) (g : Region) (i : Nat) (bs : List Byte) : (s.setBytes g i bs).epoch = s.epoch := rfl
@[simp] theorem State.setBytes_inbox (s : State) (g : Region) (i : Nat) (bs : List Byte) : (s.setBytes g i bs).inbox = s.inbox := rfl
@[simp] theorem State.setBytes_port (s : State) (g : Region) (i : Nat) (bs : List Byte) : (s.setBytes g i bs).port = s.port := rfl
@[simp] theorem State.setBytes_draws (s : State) (g : Region) (i : Nat) (bs : List Byte) : (s.setBytes g i bs).draws = s.draws := rfl

/-! ### redraw -/

@[simp] theorem State.redraw_operand (s : State) (g : Region) : (s.redraw g).operand = s.operand := rfl
@[simp] theorem State.redraw_result (s : State) (g : Region) : (s.redraw g).result = s.result := rfl
@[simp] theorem State.redraw_phase (s : State) (g : Region) : (s.redraw g).phase = s.phase := rfl
@[simp] theorem State.redraw_irqEn (s : State) (g : Region) : (s.redraw g).irqEn = s.irqEn := rfl
@[simp] theorem State.redraw_done (s : State) (g : Region) : (s.redraw g).done = s.done := rfl
@[simp] theorem State.redraw_err (s : State) (g : Region) : (s.redraw g).err = s.err := rfl
@[simp] theorem State.redraw_ovr (s : State) (g : Region) : (s.redraw g).ovr = s.ovr := rfl
@[simp] theorem State.redraw_errCode (s : State) (g : Region) : (s.redraw g).errCode = s.errCode := rfl
@[simp] theorem State.redraw_errInfo (s : State) (g : Region) : (s.redraw g).errInfo = s.errInfo := rfl
@[simp] theorem State.redraw_latch (s : State) (g : Region) : (s.redraw g).latch = s.latch := rfl
@[simp] theorem State.redraw_mem (s : State) (g : Region) : (s.redraw g).mem = s.mem.erase g.base g.size := rfl
@[simp] theorem State.redraw_epoch (s : State) (g : Region) : (s.redraw g).epoch = s.epoch.next g := rfl
@[simp] theorem State.redraw_inbox (s : State) (g : Region) : (s.redraw g).inbox = s.inbox := rfl
@[simp] theorem State.redraw_port (s : State) (g : Region) : (s.redraw g).port = s.port := rfl
@[simp] theorem State.redraw_draws (s : State) (g : Region) : (s.redraw g).draws = s.draws := rfl

/-! ### accept -/

@[simp] theorem State.accept_operand (s : State) (w : Word) : (s.accept w).operand = s.operand := rfl
@[simp] theorem State.accept_result (s : State) (w : Word) : (s.accept w).result = s.result := rfl
@[simp] theorem State.accept_phase (s : State) (w : Word) : (s.accept w).phase = s.phase := rfl
@[simp] theorem State.accept_irqEn (s : State) (w : Word) : (s.accept w).irqEn = s.irqEn := rfl
@[simp] theorem State.accept_done (s : State) (w : Word) : (s.accept w).done = false := rfl
@[simp] theorem State.accept_err (s : State) (w : Word) : (s.accept w).err = false := rfl
@[simp] theorem State.accept_ovr (s : State) (w : Word) : (s.accept w).ovr = s.ovr := rfl
@[simp] theorem State.accept_errCode (s : State) (w : Word) : (s.accept w).errCode = 0 := rfl
@[simp] theorem State.accept_errInfo (s : State) (w : Word) : (s.accept w).errInfo = 0 := rfl
@[simp] theorem State.accept_latch (s : State) (w : Word) : (s.accept w).latch = some w := rfl
@[simp] theorem State.accept_mem (s : State) (w : Word) : (s.accept w).mem = s.mem := rfl
@[simp] theorem State.accept_epoch (s : State) (w : Word) : (s.accept w).epoch = s.epoch := rfl
@[simp] theorem State.accept_inbox (s : State) (w : Word) : (s.accept w).inbox = s.inbox := rfl
@[simp] theorem State.accept_port (s : State) (w : Word) : (s.accept w).port = s.port := rfl
@[simp] theorem State.accept_draws (s : State) (w : Word) : (s.accept w).draws = s.draws := rfl

/-! ### completeOk -/

@[simp] theorem State.completeOk_operand (s : State) : (s.completeOk).operand = s.operand := rfl
@[simp] theorem State.completeOk_result (s : State) : (s.completeOk).result = s.result := rfl
@[simp] theorem State.completeOk_phase (s : State) : (s.completeOk).phase = s.phase := rfl
@[simp] theorem State.completeOk_irqEn (s : State) : (s.completeOk).irqEn = s.irqEn := rfl
@[simp] theorem State.completeOk_done (s : State) : (s.completeOk).done = true := rfl
@[simp] theorem State.completeOk_err (s : State) : (s.completeOk).err = s.err := rfl
@[simp] theorem State.completeOk_ovr (s : State) : (s.completeOk).ovr = s.ovr := rfl
@[simp] theorem State.completeOk_errCode (s : State) : (s.completeOk).errCode = s.errCode := rfl
@[simp] theorem State.completeOk_errInfo (s : State) : (s.completeOk).errInfo = s.errInfo := rfl
@[simp] theorem State.completeOk_latch (s : State) : (s.completeOk).latch = none := rfl
@[simp] theorem State.completeOk_mem (s : State) : (s.completeOk).mem = s.mem := rfl
@[simp] theorem State.completeOk_epoch (s : State) : (s.completeOk).epoch = s.epoch := rfl
@[simp] theorem State.completeOk_inbox (s : State) : (s.completeOk).inbox = s.inbox := rfl
@[simp] theorem State.completeOk_port (s : State) : (s.completeOk).port = s.port := rfl
@[simp] theorem State.completeOk_draws (s : State) : (s.completeOk).draws = s.draws := rfl

/-! ### completeError -/

@[simp] theorem State.completeError_operand (s : State) (e : CommandError) : (s.completeError e).operand = s.operand := rfl
@[simp] theorem State.completeError_result (s : State) (e : CommandError) : (s.completeError e).result = s.result := rfl
@[simp] theorem State.completeError_phase (s : State) (e : CommandError) : (s.completeError e).phase = s.phase := rfl
@[simp] theorem State.completeError_irqEn (s : State) (e : CommandError) : (s.completeError e).irqEn = s.irqEn := rfl
@[simp] theorem State.completeError_done (s : State) (e : CommandError) : (s.completeError e).done = s.done := rfl
@[simp] theorem State.completeError_err (s : State) (e : CommandError) : (s.completeError e).err = true := rfl
@[simp] theorem State.completeError_ovr (s : State) (e : CommandError) : (s.completeError e).ovr = s.ovr := rfl
@[simp] theorem State.completeError_errCode (s : State) (e : CommandError) : (s.completeError e).errCode = e.kind.code := rfl
@[simp] theorem State.completeError_errInfo (s : State) (e : CommandError) : (s.completeError e).errInfo = e.info := rfl
@[simp] theorem State.completeError_latch (s : State) (e : CommandError) : (s.completeError e).latch = none := rfl
@[simp] theorem State.completeError_mem (s : State) (e : CommandError) : (s.completeError e).mem = s.mem := rfl
@[simp] theorem State.completeError_epoch (s : State) (e : CommandError) : (s.completeError e).epoch = s.epoch := rfl
@[simp] theorem State.completeError_inbox (s : State) (e : CommandError) : (s.completeError e).inbox = s.inbox := rfl
@[simp] theorem State.completeError_port (s : State) (e : CommandError) : (s.completeError e).port = s.port := rfl
@[simp] theorem State.completeError_draws (s : State) (e : CommandError) : (s.completeError e).draws = s.draws := rfl

/-! ### resetRegisters -/

@[simp] theorem State.resetRegisters_operand (s : State) : (s.resetRegisters).operand = .reset := rfl
@[simp] theorem State.resetRegisters_result (s : State) : (s.resetRegisters).result = .reset := rfl
@[simp] theorem State.resetRegisters_phase (s : State) : (s.resetRegisters).phase = .reset := rfl
@[simp] theorem State.resetRegisters_irqEn (s : State) : (s.resetRegisters).irqEn = false := rfl
@[simp] theorem State.resetRegisters_done (s : State) : (s.resetRegisters).done = false := rfl
@[simp] theorem State.resetRegisters_err (s : State) : (s.resetRegisters).err = false := rfl
@[simp] theorem State.resetRegisters_ovr (s : State) : (s.resetRegisters).ovr = false := rfl
@[simp] theorem State.resetRegisters_errCode (s : State) : (s.resetRegisters).errCode = 0 := rfl
@[simp] theorem State.resetRegisters_errInfo (s : State) : (s.resetRegisters).errInfo = 0 := rfl
@[simp] theorem State.resetRegisters_latch (s : State) : (s.resetRegisters).latch = none := rfl
@[simp] theorem State.resetRegisters_mem (s : State) : (s.resetRegisters).mem = s.mem := rfl
@[simp] theorem State.resetRegisters_epoch (s : State) : (s.resetRegisters).epoch = s.epoch := rfl
@[simp] theorem State.resetRegisters_inbox (s : State) : (s.resetRegisters).inbox = s.inbox := rfl
@[simp] theorem State.resetRegisters_port (s : State) : (s.resetRegisters).port = s.port := rfl
@[simp] theorem State.resetRegisters_draws (s : State) : (s.resetRegisters).draws = s.draws := rfl

/-! ### writeStatus -/

@[simp] theorem State.writeStatus_operand (s : State) (v : Word) : (s.writeStatus v).operand = s.operand := rfl
@[simp] theorem State.writeStatus_result (s : State) (v : Word) : (s.writeStatus v).result = s.result := rfl
@[simp] theorem State.writeStatus_phase (s : State) (v : Word) : (s.writeStatus v).phase = s.phase := rfl
@[simp] theorem State.writeStatus_irqEn (s : State) (v : Word) : (s.writeStatus v).irqEn = s.irqEn := rfl
@[simp] theorem State.writeStatus_done (s : State) (v : Word) : (s.writeStatus v).done = (s.done && !v.getLsbD 1) := rfl
@[simp] theorem State.writeStatus_err (s : State) (v : Word) : (s.writeStatus v).err = (s.err && !v.getLsbD 2) := rfl
@[simp] theorem State.writeStatus_ovr (s : State) (v : Word) : (s.writeStatus v).ovr = (s.ovr && !v.getLsbD 3) := rfl
@[simp] theorem State.writeStatus_errCode (s : State) (v : Word) : (s.writeStatus v).errCode = s.errCode := rfl
@[simp] theorem State.writeStatus_errInfo (s : State) (v : Word) : (s.writeStatus v).errInfo = s.errInfo := rfl
@[simp] theorem State.writeStatus_latch (s : State) (v : Word) : (s.writeStatus v).latch = s.latch := rfl
@[simp] theorem State.writeStatus_mem (s : State) (v : Word) : (s.writeStatus v).mem = s.mem := rfl
@[simp] theorem State.writeStatus_epoch (s : State) (v : Word) : (s.writeStatus v).epoch = s.epoch := rfl
@[simp] theorem State.writeStatus_inbox (s : State) (v : Word) : (s.writeStatus v).inbox = s.inbox := rfl
@[simp] theorem State.writeStatus_port (s : State) (v : Word) : (s.writeStatus v).port = s.port := rfl
@[simp] theorem State.writeStatus_draws (s : State) (v : Word) : (s.writeStatus v).draws = s.draws := rfl

/-! ### setOperand -/

@[simp] theorem State.setOperand_operand (s : State) (o : OperandRegs) : (s.setOperand o).operand = o := rfl
@[simp] theorem State.setOperand_result (s : State) (o : OperandRegs) : (s.setOperand o).result = s.result := rfl
@[simp] theorem State.setOperand_phase (s : State) (o : OperandRegs) : (s.setOperand o).phase = s.phase := rfl
@[simp] theorem State.setOperand_irqEn (s : State) (o : OperandRegs) : (s.setOperand o).irqEn = s.irqEn := rfl
@[simp] theorem State.setOperand_done (s : State) (o : OperandRegs) : (s.setOperand o).done = s.done := rfl
@[simp] theorem State.setOperand_err (s : State) (o : OperandRegs) : (s.setOperand o).err = s.err := rfl
@[simp] theorem State.setOperand_ovr (s : State) (o : OperandRegs) : (s.setOperand o).ovr = s.ovr := rfl
@[simp] theorem State.setOperand_errCode (s : State) (o : OperandRegs) : (s.setOperand o).errCode = s.errCode := rfl
@[simp] theorem State.setOperand_errInfo (s : State) (o : OperandRegs) : (s.setOperand o).errInfo = s.errInfo := rfl
@[simp] theorem State.setOperand_latch (s : State) (o : OperandRegs) : (s.setOperand o).latch = s.latch := rfl
@[simp] theorem State.setOperand_mem (s : State) (o : OperandRegs) : (s.setOperand o).mem = s.mem := rfl
@[simp] theorem State.setOperand_epoch (s : State) (o : OperandRegs) : (s.setOperand o).epoch = s.epoch := rfl
@[simp] theorem State.setOperand_inbox (s : State) (o : OperandRegs) : (s.setOperand o).inbox = s.inbox := rfl
@[simp] theorem State.setOperand_port (s : State) (o : OperandRegs) : (s.setOperand o).port = s.port := rfl
@[simp] theorem State.setOperand_draws (s : State) (o : OperandRegs) : (s.setOperand o).draws = s.draws := rfl

/-! ### setGfR -/

@[simp] theorem State.setGfR_operand (s : State) (r : Byte) : (s.setGfR r).operand = s.operand := rfl
@[simp] theorem State.setGfR_result (s : State) (r : Byte) : (s.setGfR r).result = { s.result with gfR := r } := rfl
@[simp] theorem State.setGfR_phase (s : State) (r : Byte) : (s.setGfR r).phase = s.phase := rfl
@[simp] theorem State.setGfR_irqEn (s : State) (r : Byte) : (s.setGfR r).irqEn = s.irqEn := rfl
@[simp] theorem State.setGfR_done (s : State) (r : Byte) : (s.setGfR r).done = s.done := rfl
@[simp] theorem State.setGfR_err (s : State) (r : Byte) : (s.setGfR r).err = s.err := rfl
@[simp] theorem State.setGfR_ovr (s : State) (r : Byte) : (s.setGfR r).ovr = s.ovr := rfl
@[simp] theorem State.setGfR_errCode (s : State) (r : Byte) : (s.setGfR r).errCode = s.errCode := rfl
@[simp] theorem State.setGfR_errInfo (s : State) (r : Byte) : (s.setGfR r).errInfo = s.errInfo := rfl
@[simp] theorem State.setGfR_latch (s : State) (r : Byte) : (s.setGfR r).latch = s.latch := rfl
@[simp] theorem State.setGfR_mem (s : State) (r : Byte) : (s.setGfR r).mem = s.mem := rfl
@[simp] theorem State.setGfR_epoch (s : State) (r : Byte) : (s.setGfR r).epoch = s.epoch := rfl
@[simp] theorem State.setGfR_inbox (s : State) (r : Byte) : (s.setGfR r).inbox = s.inbox := rfl
@[simp] theorem State.setGfR_port (s : State) (r : Byte) : (s.setGfR r).port = s.port := rfl
@[simp] theorem State.setGfR_draws (s : State) (r : Byte) : (s.setGfR r).draws = s.draws := rfl

/-! ### setBchR -/

@[simp] theorem State.setBchR_operand (s : State) (r : BitVec 18) : (s.setBchR r).operand = s.operand := rfl
@[simp] theorem State.setBchR_result (s : State) (r : BitVec 18) : (s.setBchR r).result = { s.result with bchR := r } := rfl
@[simp] theorem State.setBchR_phase (s : State) (r : BitVec 18) : (s.setBchR r).phase = s.phase := rfl
@[simp] theorem State.setBchR_irqEn (s : State) (r : BitVec 18) : (s.setBchR r).irqEn = s.irqEn := rfl
@[simp] theorem State.setBchR_done (s : State) (r : BitVec 18) : (s.setBchR r).done = s.done := rfl
@[simp] theorem State.setBchR_err (s : State) (r : BitVec 18) : (s.setBchR r).err = s.err := rfl
@[simp] theorem State.setBchR_ovr (s : State) (r : BitVec 18) : (s.setBchR r).ovr = s.ovr := rfl
@[simp] theorem State.setBchR_errCode (s : State) (r : BitVec 18) : (s.setBchR r).errCode = s.errCode := rfl
@[simp] theorem State.setBchR_errInfo (s : State) (r : BitVec 18) : (s.setBchR r).errInfo = s.errInfo := rfl
@[simp] theorem State.setBchR_latch (s : State) (r : BitVec 18) : (s.setBchR r).latch = s.latch := rfl
@[simp] theorem State.setBchR_mem (s : State) (r : BitVec 18) : (s.setBchR r).mem = s.mem := rfl
@[simp] theorem State.setBchR_epoch (s : State) (r : BitVec 18) : (s.setBchR r).epoch = s.epoch := rfl
@[simp] theorem State.setBchR_inbox (s : State) (r : BitVec 18) : (s.setBchR r).inbox = s.inbox := rfl
@[simp] theorem State.setBchR_port (s : State) (r : BitVec 18) : (s.setBchR r).port = s.port := rfl
@[simp] theorem State.setBchR_draws (s : State) (r : BitVec 18) : (s.setBchR r).draws = s.draws := rfl

/-! ### setBitLen -/

@[simp] theorem State.setBitLen_operand (s : State) (n : Nat) : (s.setBitLen n).operand = s.operand := rfl
@[simp] theorem State.setBitLen_result (s : State) (n : Nat) : (s.setBitLen n).result = { s.result with bitLen := BitVec.ofNat 16 n } := rfl
@[simp] theorem State.setBitLen_phase (s : State) (n : Nat) : (s.setBitLen n).phase = s.phase := rfl
@[simp] theorem State.setBitLen_irqEn (s : State) (n : Nat) : (s.setBitLen n).irqEn = s.irqEn := rfl
@[simp] theorem State.setBitLen_done (s : State) (n : Nat) : (s.setBitLen n).done = s.done := rfl
@[simp] theorem State.setBitLen_err (s : State) (n : Nat) : (s.setBitLen n).err = s.err := rfl
@[simp] theorem State.setBitLen_ovr (s : State) (n : Nat) : (s.setBitLen n).ovr = s.ovr := rfl
@[simp] theorem State.setBitLen_errCode (s : State) (n : Nat) : (s.setBitLen n).errCode = s.errCode := rfl
@[simp] theorem State.setBitLen_errInfo (s : State) (n : Nat) : (s.setBitLen n).errInfo = s.errInfo := rfl
@[simp] theorem State.setBitLen_latch (s : State) (n : Nat) : (s.setBitLen n).latch = s.latch := rfl
@[simp] theorem State.setBitLen_mem (s : State) (n : Nat) : (s.setBitLen n).mem = s.mem := rfl
@[simp] theorem State.setBitLen_epoch (s : State) (n : Nat) : (s.setBitLen n).epoch = s.epoch := rfl
@[simp] theorem State.setBitLen_inbox (s : State) (n : Nat) : (s.setBitLen n).inbox = s.inbox := rfl
@[simp] theorem State.setBitLen_port (s : State) (n : Nat) : (s.setBitLen n).port = s.port := rfl
@[simp] theorem State.setBitLen_draws (s : State) (n : Nat) : (s.setBitLen n).draws = s.draws := rfl

/-! ### setGrid -/

@[simp] theorem State.setGrid_operand (s : State) (g : Grid) : (s.setGrid g).operand = s.operand := rfl
@[simp] theorem State.setGrid_result (s : State) (g : Grid) : (s.setGrid g).result = s.result := rfl
@[simp] theorem State.setGrid_phase (s : State) (g : Grid) : (s.setGrid g).phase = s.phase := rfl
@[simp] theorem State.setGrid_irqEn (s : State) (g : Grid) : (s.setGrid g).irqEn = s.irqEn := rfl
@[simp] theorem State.setGrid_done (s : State) (g : Grid) : (s.setGrid g).done = s.done := rfl
@[simp] theorem State.setGrid_err (s : State) (g : Grid) : (s.setGrid g).err = s.err := rfl
@[simp] theorem State.setGrid_ovr (s : State) (g : Grid) : (s.setGrid g).ovr = s.ovr := rfl
@[simp] theorem State.setGrid_errCode (s : State) (g : Grid) : (s.setGrid g).errCode = s.errCode := rfl
@[simp] theorem State.setGrid_errInfo (s : State) (g : Grid) : (s.setGrid g).errInfo = s.errInfo := rfl
@[simp] theorem State.setGrid_latch (s : State) (g : Grid) : (s.setGrid g).latch = s.latch := rfl
@[simp] theorem State.setGrid_mem (s : State) (g : Grid) : (s.setGrid g).mem = s.mem.store (changedRows (Region.base .mx) s.grid g) := rfl
@[simp] theorem State.setGrid_epoch (s : State) (g : Grid) : (s.setGrid g).epoch = s.epoch := rfl
@[simp] theorem State.setGrid_inbox (s : State) (g : Grid) : (s.setGrid g).inbox = s.inbox := rfl
@[simp] theorem State.setGrid_port (s : State) (g : Grid) : (s.setGrid g).port = s.port := rfl
@[simp] theorem State.setGrid_draws (s : State) (g : Grid) : (s.setGrid g).draws = s.draws := rfl

/-! ### setPort -/

@[simp] theorem State.setPort_operand (s : State) (p : Option Word) : (s.setPort p).operand = s.operand := rfl
@[simp] theorem State.setPort_result (s : State) (p : Option Word) : (s.setPort p).result = s.result := rfl
@[simp] theorem State.setPort_phase (s : State) (p : Option Word) : (s.setPort p).phase = s.phase := rfl
@[simp] theorem State.setPort_irqEn (s : State) (p : Option Word) : (s.setPort p).irqEn = s.irqEn := rfl
@[simp] theorem State.setPort_done (s : State) (p : Option Word) : (s.setPort p).done = s.done := rfl
@[simp] theorem State.setPort_err (s : State) (p : Option Word) : (s.setPort p).err = s.err := rfl
@[simp] theorem State.setPort_ovr (s : State) (p : Option Word) : (s.setPort p).ovr = s.ovr := rfl
@[simp] theorem State.setPort_errCode (s : State) (p : Option Word) : (s.setPort p).errCode = s.errCode := rfl
@[simp] theorem State.setPort_errInfo (s : State) (p : Option Word) : (s.setPort p).errInfo = s.errInfo := rfl
@[simp] theorem State.setPort_latch (s : State) (p : Option Word) : (s.setPort p).latch = s.latch := rfl
@[simp] theorem State.setPort_mem (s : State) (p : Option Word) : (s.setPort p).mem = s.mem := rfl
@[simp] theorem State.setPort_epoch (s : State) (p : Option Word) : (s.setPort p).epoch = s.epoch := rfl
@[simp] theorem State.setPort_inbox (s : State) (p : Option Word) : (s.setPort p).inbox = s.inbox := rfl
@[simp] theorem State.setPort_port (s : State) (p : Option Word) : (s.setPort p).port = p := rfl
@[simp] theorem State.setPort_draws (s : State) (p : Option Word) : (s.setPort p).draws = s.draws := rfl

/-! ### The phase flags -/

@[simp] theorem Phase.afterVsel_eq (p : Phase) :
    p.afterVsel = { v := true, f := false, c := false, m := false, p := false, d := false, k := false } := rfl
@[simp] theorem Phase.afterClear_eq (p : Phase) : p.afterClear = { p with f := false, c := false } := rfl
@[simp] theorem Phase.afterFinish_eq (p : Phase) : p.afterFinish = { p with f := true } := rfl
@[simp] theorem Phase.afterIleave_eq (p : Phase) : p.afterIleave = { p with c := true } := rfl
@[simp] theorem Phase.afterInit_eq (p : Phase) :
    p.afterInit = { p with m := true, p := false, d := false, k := false } := rfl
@[simp] theorem Phase.afterFunc_eq (p : Phase) : p.afterFunc = { p with p := true } := rfl
@[simp] theorem Phase.afterPlace_eq (p : Phase) : p.afterPlace = { p with d := true } := rfl
@[simp] theorem Phase.afterMask_eq (p : Phase) : p.afterMask = { p with k := true } := rfl

/-! ### Completion -/

/-- `finish` answers a next state: the body's result completed, or the state with the error record. -/
theorem finish_ok {s t : State} {r : Except CommandError State} (h : r = .ok t) : finish s r = .next t.completeOk := by
  subst h; rfl

theorem finish_error {s : State} {e : CommandError} {r : Except CommandError State} (h : r = .error e) :
    finish s r = .next (s.completeError e) := by
  subst h; rfl

/-- Everything `finish` can answer. -/
theorem finish_cases {s t : State} {r : Except CommandError State} (h : finish s r = .next t) :
    (∃ u, r = .ok u ∧ t = u.completeOk) ∨ (∃ e, r = .error e ∧ t = s.completeError e) := by
  cases r with
  | ok u => exact .inl ⟨u, rfl, by simpa [finish] using h.symm⟩
  | error e => exact .inr ⟨e, rfl, by simpa [finish] using h.symm⟩

/-- The sequencing of bodies (R371): everything it can answer. -/
theorem andThen_ok {r : Except CommandError State} {f : State → Except CommandError State} {t : State}
    (h : andThen r f = .ok t) : ∃ u, r = .ok u ∧ f u = .ok t := by
  cases r with
  | ok u => exact ⟨u, rfl, h⟩
  | error e => cases h

end Sys2Proof.Machine
end

