-- ==== Sys2Proof/Laws/Bodies.lean ====
section
/-! SUPPORT. Everything each command's body can answer when it answers a state: the conditions it checked and the state
it leaves, so that no later proof unfolds a body. Then what all of them have in common: a body changes result
registers, the phase and memory, and nothing else (10_state.md R38). -/

namespace Sys2Proof.Machine

open Sys2Proof

theorem vselBody_ok {s t : State} (h : vselBody s = .ok t) : ∃ v, s.chooseVersion = .ok v ∧ t = s.selectVersion v := by
  unfold vselBody at h
  split at h
  · cases h
  · next v e => exact ⟨v, e, by cases h; rfl⟩

theorem checkNbits_ok {n : Nat} (h : checkNbits n = .ok ()) : 1 ≤ n ∧ n ≤ 32 := by
  unfold checkNbits at h
  split at h
  · cases h
  · omega

theorem checkMask_ok {m : Nat} (h : checkMask m = .ok ()) : m ≤ 7 := by
  unfold checkMask at h
  split at h
  · cases h
  · omega

theorem State.checkNseg_ok {s : State} (h : s.checkNseg = .ok ()) : s.operand.nseg.toNat ≤ 16 := by
  unfold State.checkNseg at h
  split at h
  · cases h
  next hn => rw [Config.nsegMax] at hn; omega

theorem State.checkSegIdx_ok {s : State} {i : Nat} (h : s.checkSegIdx i = .ok ()) : i < s.operand.nseg.toNat := by
  unfold State.checkSegIdx at h
  split at h
  · cases h
  · omega

theorem State.checkDegree_ok {s : State} (h : s.checkDegree = .ok ()) :
    1 ≤ s.operand.rsDeg.toNat ∧ s.operand.rsDeg.toNat ≤ 30 := by
  by_cases hc : s.operand.rsDeg.toNat < 1 ∨ Config.ecMaxDeg < s.operand.rsDeg.toNat
  · rw [State.checkDegree, if_pos hc] at h; cases h
  · rw [Config.ecMaxDeg] at hc; omega

theorem State.checkBlock_ok {s : State} (h : s.checkBlock = .ok ()) :
    1 ≤ s.operand.rsLen.toNat ∧ s.operand.rsLen.toNat ≤ 255 - s.operand.rsDeg.toNat ∧
      s.operand.rsSrc.toNat + s.operand.rsLen.toNat ≤ 4096 := by
  by_cases hc : s.operand.rsLen.toNat < 1 ∨ 255 - s.operand.rsDeg.toNat < s.operand.rsLen.toNat
  · rw [State.checkBlock, if_pos hc] at h; cases h
  by_cases hd : Config.dcwSize < s.operand.rsSrc.toNat + s.operand.rsLen.toNat
  · rw [State.checkBlock, if_neg hc, if_pos hd] at h; cases h
  · rw [Config.dcwSize] at hd; omega

theorem bsClearBody_ok {s t : State} (h : bsClearBody s = .ok t) :
    t = { (s.setBytes .dcw 0 (List.replicate 4096 0)).setBitLen 0 with phase := s.phase.afterClear } := by
  cases h; rfl

theorem bsAppendBody_ok {n : Nat} {s t : State} (h : bsAppendBody n s = .ok t) :
    s.phase.canBuild = true ∧ 1 ≤ n ∧ n ≤ 32 ∧ s.result.bitLen.toNat + n ≤ s.capacity ∧
      t = s.appendBits (bitSeq (s.operand.bsValue.toNat % 2 ^ n) n) := by
  unfold bsAppendBody at h
  split at h
  · cases h
  split at h
  · cases h
  split at h
  · cases h
  next hb _ hn hc =>
    obtain ⟨h1, h2⟩ := checkNbits_ok hn
    exact ⟨by simpa using hb, h1, h2, by omega, by cases h; rfl⟩

theorem bsSegBody_ok {i : Nat} {s t : State} (h : bsSegBody i s = .ok t) :
    s.phase.canBuild = true ∧ s.operand.nseg.toNat ≤ 16 ∧ i < s.operand.nseg.toNat ∧ s.checkSegment i = .ok () ∧
      segFits (s.descriptor i) s.result.version.toNat = true ∧
      s.result.bitLen.toNat + segBits (s.descriptor i) s.result.version.toNat ≤ s.capacity ∧
      t = s.appendBits (emitSegment (s.descriptor i) s.result.version.toNat (s.segmentBytes (s.descriptor i))) := by
  unfold bsSegBody at h
  split at h
  · cases h
  split at h
  · cases h
  split at h
  · cases h
  split at h
  · cases h
  next hb _ hn _ hi _ hs =>
    simp only at h
    split at h
    · cases h
    split at h
    · cases h
    next hf hc =>
      exact ⟨by simpa using hb, State.checkNseg_ok hn, State.checkSegIdx_ok hi, hs, by simpa using hf, by omega,
        by cases h; rfl⟩

theorem bsFinishBody_ok {s t : State} (h : bsFinishBody s = .ok t) :
    s.phase.canBuild = true ∧ s.result.bitLen.toNat ≤ s.capacity ∧
      t = { s.appendBits (finishBits s.result.bitLen.toNat s.capacity) with
        phase := (s.appendBits (finishBits s.result.bitLen.toNat s.capacity)).phase.afterFinish } := by
  unfold bsFinishBody at h
  split at h
  · cases h
  split at h
  · cases h
  next hb hc => exact ⟨by simpa using hb, by omega, by cases h; rfl⟩

theorem rsGenBody_ok {s t : State} (h : rsGenBody s = .ok t) :
    1 ≤ s.operand.rsDeg.toNat ∧ s.operand.rsDeg.toNat ≤ 30 ∧
      t = s.setBytes .genb 0 (fill32 (genPoly s.operand.rsDeg.toNat)) := by
  unfold rsGenBody at h
  split at h
  · cases h
  next hd => exact ⟨(State.checkDegree_ok hd).1, (State.checkDegree_ok hd).2, by cases h; rfl⟩

theorem rsEncBody_ok {s t : State} (h : rsEncBody s = .ok t) :
    1 ≤ s.operand.rsDeg.toNat ∧ s.operand.rsDeg.toNat ≤ 30 ∧
      s.operand.rsSrc.toNat + s.operand.rsLen.toNat ≤ 4096 ∧
      t = s.setBytes .ecb 0 (fill32 (rsRemainder (s.bytes .dcw s.operand.rsSrc.toNat s.operand.rsLen.toNat)
        s.operand.rsDeg.toNat)) := by
  unfold rsEncBody at h
  split at h
  · cases h
  split at h
  · cases h
  next hd _ hb =>
    exact ⟨(State.checkDegree_ok hd).1, (State.checkDegree_ok hd).2, (State.checkBlock_ok hb).2.2, by cases h; rfl⟩

theorem ileaveBody_ok {s t : State} (h : ileaveBody s = .ok t) :
    s.phase.f = true ∧
      t = { s.setBytes .fcw 0 (finalCodewords s.result.version.toNat s.level (s.bytes .dcw 0 s.result.dataCw.toNat)) with
        phase := s.phase.afterIleave } := by
  unfold ileaveBody at h
  split at h
  · cases h
  next hf => exact ⟨by simpa [Phase.canInterleave] using hf, by cases h; rfl⟩

theorem mxInitBody_ok {s t : State} (h : mxInitBody s = .ok t) :
    s.phase.v = true ∧ t = { s.setBytes .mx 0 (List.replicate 31329 0) with phase := s.phase.afterInit } := by
  unfold mxInitBody at h
  split at h
  · cases h
  next hf => exact ⟨by simpa [Phase.canInit] using hf, by cases h; rfl⟩

theorem mxFuncBody_ok {s t : State} (h : mxFuncBody s = .ok t) :
    s.phase.m = true ∧ s.phase.p = false ∧
      ∃ g, placeAll s.grid (functionPlacements s.result.version.toNat) = .ok g ∧
        t = { s.setGrid g with phase := s.phase.afterFunc } := by
  unfold mxFuncBody at h
  split at h
  · cases h
  split at h
  · cases h
  next hf _ g hg =>
    have hf : s.phase.canFunc = true := by simpa using hf
    simp only [Phase.canFunc, Bool.and_eq_true, Bool.not_eq_true'] at hf
    exact ⟨hf.1, hf.2, g, hg, by cases h; rfl⟩

theorem mxPlaceBody_ok {s t : State} (h : mxPlaceBody s = .ok t) :
    s.phase.p = true ∧ s.phase.c = true ∧ s.phase.d = false ∧
      t = { s.setGrid (placeBits s.grid (zigzag s.side s.grid) (placementBits (s.bytes .fcw 0 s.result.totalCw.toNat)
        (remainderBits s.result.version.toNat))) with phase := s.phase.afterPlace } := by
  unfold mxPlaceBody at h
  split at h
  · cases h
  next hf =>
    have hf : s.phase.canPlace = true := by simpa using hf
    simp only [Phase.canPlace, Bool.and_eq_true, Bool.not_eq_true'] at hf
    exact ⟨hf.1.1, hf.1.2, hf.2, by cases h; rfl⟩

theorem bchFmtBody_ok {sel : Nat} {s t : State} (h : bchFmtBody sel s = .ok t) :
    t = s.setBchR (fmtWord (.ofBits (BitVec.ofNat 2 (sel / 16))) (sel % 8)) := by
  unfold bchFmtBody at h
  split at h
  · cases h
  · cases h; rfl

theorem bchVerBody_ok {v : Nat} {s t : State} (h : bchVerBody v s = .ok t) : t = s.setBchR (verWord v) := by
  unfold bchVerBody at h
  split at h
  · cases h
  · cases h; rfl

theorem Phase.canMask_iff (p : Phase) : p.canMask = true ↔ p.d = true ∧ p.k = false := by
  simp [Phase.canMask]

theorem maskEvalBody_ok {m : Nat} {s t : State} (h : maskEvalBody m s = .ok t) :
    s.phase.d = true ∧ s.phase.k = false ∧ m ≤ 7 ∧
      t = { s with result := { s.result.withScore (s.score m) with
        penalty := s.result.penalty.setIfInBounds m (BitVec.ofNat 32 (s.score m).total) } } := by
  unfold maskEvalBody at h
  split at h
  · cases h
  split at h
  · cases h
  next hf _ hm =>
    obtain ⟨h1, h2⟩ := s.phase.canMask_iff.1 (by simpa using hf)
    exact ⟨h1, h2, checkMask_ok hm, by cases h; rfl⟩

/-- The mask mask.select chooses (R338). -/
def State.bestMask (s : State) : Nat := selectMask ((List.range 8).map s.score)

theorem maskSelectBody_ok {s t : State} (h : maskSelectBody s = .ok t) :
    s.phase.d = true ∧ s.phase.k = false ∧
      t = { s.commitMask s.bestMask with result := { (s.commitMask s.bestMask).result.withScore (s.score s.bestMask) with
        penalty := Vector.ofFn fun m : Fin 8 => BitVec.ofNat 32 (s.score m.val).total } } := by
  unfold maskSelectBody at h
  split at h
  · cases h
  next hf =>
    obtain ⟨h1, h2⟩ := s.phase.canMask_iff.1 (by simpa using hf)
    exact ⟨h1, h2, by cases h; rfl⟩

theorem maskApplyBody_ok {m : Nat} {s t : State} (h : maskApplyBody m s = .ok t) :
    s.phase.d = true ∧ s.phase.k = false ∧ m ≤ 7 ∧ t = s.commitMask m := by
  unfold maskApplyBody at h
  split at h
  · cases h
  split at h
  · cases h
  next hf _ hm =>
    obtain ⟨h1, h2⟩ := s.phase.canMask_iff.1 (by simpa using hf)
    exact ⟨h1, h2, checkMask_ok hm, by cases h; rfl⟩

theorem gfLogBody_ok {s t : State} (h : gfLogBody s = .ok t) :
    s.operand.gfA ≠ 0 ∧ t = s.setGfR (logRom s.operand.gfA.toNat) := by
  unfold gfLogBody at h
  split at h
  · cases h
  next ha => exact ⟨ha, by cases h; rfl⟩

/-! ### The body of each command, and what a body leaves alone -/

/-- The body of each command. -/
def bodyOf : Instr → State → Except CommandError State
  | .nop => nopBody
  | .encode => encodeBody
  | .gfMul => gfMulBody
  | .gfPow => gfPowBody
  | .gfLog => gfLogBody
  | .gfExp => gfExpBody
  | .vsel => vselBody
  | .bsClear => bsClearBody
  | .bsAppend n => bsAppendBody n
  | .bsSeg i => bsSegBody i
  | .bsFinish => bsFinishBody
  | .rsGen => rsGenBody
  | .rsEnc => rsEncBody
  | .ileave => ileaveBody
  | .mxInit => mxInitBody
  | .mxFunc => mxFuncBody
  | .mxPlace => mxPlaceBody
  | .bchFmt sel => bchFmtBody sel
  | .bchVer v => bchVerBody v
  | .maskEval m => maskEvalBody m
  | .maskSelect => maskSelectBody
  | .maskApply m => maskApplyBody m

/-- A command is its body, finished. -/
theorem exec_eq_finish (i : Instr) (s : State) : exec i s = finish s (bodyOf i s) := by
  cases i <;> rfl

/-- t is s but for the result registers, the phase and memory. -/
def State.BodyFrame (s t : State) : Prop := t = { s with result := t.result, phase := t.phase, mem := t.mem }

theorem State.BodyFrame.refl (s : State) : s.BodyFrame s := rfl

theorem State.BodyFrame.trans {s t u : State} (h : s.BodyFrame t) (k : t.BodyFrame u) : s.BodyFrame u := by
  rw [State.BodyFrame] at *
  rw [h] at k
  exact k

theorem State.appendBits_frame (s : State) (bs : List Bool) : s.BodyFrame (s.appendBits bs) := by
  cases bs <;> rfl

theorem bsSegAll_frame {is : List Nat} {s t : State} (h : bsSegAll is s = .ok t) : s.BodyFrame t := by
  induction is generalizing s with
  | nil => cases h; rfl
  | cons i is ih =>
    obtain ⟨u, h1, h2⟩ := andThen_ok h
    exact State.BodyFrame.trans ((bsSegBody_ok h1).2.2.2.2.2.2 ▸ s.appendBits_frame _) (ih h2)

theorem vselBody_frame {s t : State} (h : vselBody s = .ok t) : s.BodyFrame t := by
  obtain ⟨v, -, rfl⟩ := vselBody_ok h; rfl

theorem bsClearBody_frame {s t : State} (h : bsClearBody s = .ok t) : s.BodyFrame t := by
  obtain rfl := bsClearBody_ok h; rfl

theorem bsFinishBody_frame {s t : State} (h : bsFinishBody s = .ok t) : s.BodyFrame t := by
  obtain ⟨-, -, rfl⟩ := bsFinishBody_ok h
  exact (s.appendBits_frame _).trans rfl

theorem ileaveBody_frame {s t : State} (h : ileaveBody s = .ok t) : s.BodyFrame t := by
  obtain ⟨-, rfl⟩ := ileaveBody_ok h; rfl

theorem mxInitBody_frame {s t : State} (h : mxInitBody s = .ok t) : s.BodyFrame t := by
  obtain ⟨-, rfl⟩ := mxInitBody_ok h; rfl

theorem mxFuncBody_frame {s t : State} (h : mxFuncBody s = .ok t) : s.BodyFrame t := by
  obtain ⟨-, -, g, -, rfl⟩ := mxFuncBody_ok h; rfl

theorem mxPlaceBody_frame {s t : State} (h : mxPlaceBody s = .ok t) : s.BodyFrame t := by
  obtain ⟨-, -, -, rfl⟩ := mxPlaceBody_ok h; rfl

theorem State.BodyFrame.withResult {s t : State} (h : s.BodyFrame t) (r : ResultRegs) :
    s.BodyFrame { t with result := r } := by
  rw [State.BodyFrame] at h ⊢
  rw [h]

theorem State.commitMask_frame (s : State) (m : Nat) : s.BodyFrame (s.commitMask m) := by
  unfold State.commitMask
  generalize maskedGrid s.side s.level m s.grid = g
  rfl

theorem maskSelectBody_frame {s t : State} (h : maskSelectBody s = .ok t) : s.BodyFrame t := by
  obtain ⟨-, -, rfl⟩ := maskSelectBody_ok h
  exact (s.commitMask_frame _).withResult _

/-- The states between the steps of encode (R371). -/
theorem encodeBody_ok {s t : State} (h : encodeBody s = .ok t) :
    ∃ u1 u2 u3 u4 u5 u6 u7 u8, vselBody s = .ok u1 ∧ bsClearBody u1 = .ok u2 ∧
      bsSegAll (List.range u2.operand.nseg.toNat) u2 = .ok u3 ∧ bsFinishBody u3 = .ok u4 ∧ ileaveBody u4 = .ok u5 ∧
      mxInitBody u5 = .ok u6 ∧ mxFuncBody u6 = .ok u7 ∧ mxPlaceBody u7 = .ok u8 ∧ maskSelectBody u8 = .ok t := by
  unfold encodeBody at h
  obtain ⟨u1, h1, h⟩ := andThen_ok h
  obtain ⟨u2, h2, h⟩ := andThen_ok h
  obtain ⟨u3, h3, h⟩ := andThen_ok h
  obtain ⟨u4, h4, h⟩ := andThen_ok h
  obtain ⟨u5, h5, h⟩ := andThen_ok h
  obtain ⟨u6, h6, h⟩ := andThen_ok h
  obtain ⟨u7, h7, h⟩ := andThen_ok h
  obtain ⟨u8, h8, h9⟩ := andThen_ok h
  exact ⟨u1, u2, u3, u4, u5, u6, u7, u8, h1, h2, h3, h4, h5, h6, h7, h8, h9⟩

theorem encodeBody_frame {s t : State} (h : encodeBody s = .ok t) : s.BodyFrame t := by
  obtain ⟨u1, u2, u3, u4, u5, u6, u7, u8, h1, h2, h3, h4, h5, h6, h7, h8, h9⟩ := encodeBody_ok h
  exact (vselBody_frame h1).trans ((bsClearBody_frame h2).trans ((bsSegAll_frame h3).trans ((bsFinishBody_frame h4).trans
    ((ileaveBody_frame h5).trans ((mxInitBody_frame h6).trans ((mxFuncBody_frame h7).trans ((mxPlaceBody_frame h8).trans
    (maskSelectBody_frame h9))))))))

/-- A body changes only result registers, the phase and memory (R38). -/
theorem bodyOf_frame {i : Instr} {s t : State} (h : bodyOf i s = .ok t) : s.BodyFrame t := by
  cases i with
  | nop => cases h; rfl
  | encode => exact encodeBody_frame h
  | gfMul => cases h; rfl
  | gfPow => cases h; rfl
  | gfLog => obtain ⟨-, rfl⟩ := gfLogBody_ok h; rfl
  | gfExp => cases h; rfl
  | vsel => exact vselBody_frame h
  | bsClear => exact bsClearBody_frame h
  | bsAppend n => obtain ⟨-, -, -, -, rfl⟩ := bsAppendBody_ok h; exact s.appendBits_frame _
  | bsSeg i => obtain ⟨-, -, -, -, -, -, rfl⟩ := bsSegBody_ok h; exact s.appendBits_frame _
  | bsFinish => exact bsFinishBody_frame h
  | rsGen => obtain ⟨-, -, rfl⟩ := rsGenBody_ok h; rfl
  | rsEnc => obtain ⟨-, -, -, rfl⟩ := rsEncBody_ok h; rfl
  | ileave => exact ileaveBody_frame h
  | mxInit => exact mxInitBody_frame h
  | mxFunc => exact mxFuncBody_frame h
  | mxPlace => exact mxPlaceBody_frame h
  | bchFmt sel => obtain rfl := bchFmtBody_ok h; rfl
  | bchVer v => obtain rfl := bchVerBody_ok h; rfl
  | maskEval m => obtain ⟨-, -, -, rfl⟩ := maskEvalBody_ok h; rfl
  | maskSelect => exact maskSelectBody_frame h
  | maskApply m => obtain ⟨-, -, -, rfl⟩ := maskApplyBody_ok h; exact s.commitMask_frame m

end Sys2Proof.Machine
end

