-- ==== Sys2Proof/Laws/Bus.lean ====
section
/-! SUPPORT. The laws of the host's bus: how `readByte` and `writeByte` see the buffers (R81, R85, R86, R88). -/

namespace Sys2Proof.Machine

open Sys2Proof

/-- A byte of a buffer on the bus. -/
theorem State.readByte_base (s : State) (g : Region) {i : Nat} (hi : i < g.size) :
    s.readByte (g.base + i) = s.buf g i := by
  have hr := regionAt_base g hi
  unfold State.readByte
  rw [if_neg, if_neg]
  · simp only [hr, Nat.add_sub_cancel_left]
  · cases g <;> simp only [Region.base, Region.size] at * <;> omega
  · cases g <;> simp only [Region.base, Region.size] at * <;> omega

/-- Two states whose buffers agree outside some addresses read the same there. -/
theorem State.readByte_frame {s t : State} {P : Nat → Prop}
    (h : ∀ (g : Region) (i : Nat), i < g.size → ¬ P (g.base + i) → t.buf g i = s.buf g i) :
    ∀ x, ¬ P x → t.readByte x = s.readByte x := by
  intro x hx
  unfold State.readByte
  split
  · rfl
  split
  · rfl
  cases hr : regionAt x with
  | none => rfl
  | some g =>
    obtain ⟨h1, h2⟩ := regionAt_some hr
    have := h g (x - g.base) (by omega) (by rwa [show g.base + (x - g.base) = x by omega])
    simpa using this

/-- The same for two states with the same memory and the same draw generations. -/
theorem State.readByte_congr {s t : State} (hm : t.mem = s.mem) (he : t.epoch = s.epoch) (x : Nat) :
    t.readByte x = s.readByte x := by
  refine State.readByte_frame (P := fun _ => False) (fun g i _ _ => ?_) x not_false
  rw [State.buf, State.buf, hm, State.draw_of_epoch he]

/-- An address in no buffer and no ROM reads 0. -/
theorem State.readByte_reserved (s : State) {x : Nat} (h1 : ¬ (0x100 ≤ x ∧ x < 0x300)) (h2 : regionAt x = none) :
    s.readByte x = 0 := by
  unfold State.readByte
  rw [if_neg (by omega), if_neg (by omega), h2]

/-- A byte after one byte is written: the new byte where the address is the written one and host-writable. -/
theorem State.readByte_writeByte {s : State} (hm : s.mem.wf) (a : Nat) (b : Byte) (x : Nat) :
    (s.writeByte a b).readByte x =
      if x = a ∧ ((0x400 ≤ x ∧ x < 0x480) ∨ (0x1000 ≤ x ∧ x < 0x3000) ∨ (0x3000 ≤ x ∧ x < 0x4000)) then b
      else s.readByte x := by
  have key : ∀ g, regionAt a = some g → g.hostWritable = true → ∀ x,
      (s.store [(a, b)]).readByte x = if x = a then b else s.readByte x := by
    intro g hg hw x
    obtain ⟨h1, h2⟩ := regionAt_some hg
    have hbuf : ∀ (h : Region) (i : Nat), (s.store [(a, b)]).buf h i = if h.base + i = a then b else s.buf h i := by
      intro h i
      rw [State.buf_store s (by simp) hm, Memory.read_cons]
      split
      · next e => rw [if_pos e.symm]; rfl
      · next e => rw [if_neg (fun h => e h.symm)]; rfl
    by_cases hx : x = a
    · subst hx
      have := State.readByte_base (s.store [(x, b)]) g (i := x - g.base) (by omega)
      rw [show g.base + (x - g.base) = x by omega, hbuf, if_pos (by omega)] at this
      rw [this, if_pos rfl]
    · rw [if_neg hx]
      refine State.readByte_frame (P := fun y => y = a) (fun h i _ hne => ?_) x hx
      rw [hbuf, if_neg hne]
  unfold State.writeByte
  cases hr : regionAt a with
  | none =>
    rw [if_neg]
    rintro ⟨rfl, h⟩
    unfold regionAt at hr
    revert hr
    rcases h with h | h | h
    · rw [if_neg (by omega), if_neg (by omega), if_pos (by omega)]; simp
    · rw [if_neg (by omega), if_neg (by omega), if_neg (by omega), if_pos (by omega)]; simp
    · rw [if_neg (by omega), if_neg (by omega), if_neg (by omega), if_neg (by omega), if_pos (by omega)]; simp
  | some g =>
    obtain ⟨h1, h2⟩ := regionAt_some hr
    show (if g.hostWritable then s.store [(a, b)] else s).readByte x = _
    cases hw : g.hostWritable with
    | true =>
      rw [if_pos rfl, key g hr hw]
      congr 1
      apply propext
      constructor
      · rintro rfl
        cases g <;> simp only [Region.base, Region.size, Region.hostWritable] at h1 h2 hw <;> first | omega | cases hw
      · exact fun h => h.1
    | false =>
      rw [if_neg (by simp), if_neg]
      rintro ⟨rfl, h⟩
      cases g <;> simp only [Region.base, Region.size, Region.hostWritable] at h1 h2 hw <;> first | omega | cases hw

/-- Writing a byte keeps the canonical form and every field but memory. -/
theorem State.writeByte_mem (s : State) (a : Nat) (b : Byte) :
    s.writeByte a b = { s with mem := (s.writeByte a b).mem } ∧ (s.mem.wf → (s.writeByte a b).mem.wf) := by
  unfold State.writeByte
  cases hr : regionAt a with
  | none => exact ⟨rfl, id⟩
  | some g =>
    show (if g.hostWritable then s.store [(a, b)] else s) = { s with mem := (if g.hostWritable then s.store [(a, b)] else s).mem } ∧
      (s.mem.wf → (if g.hostWritable then s.store [(a, b)] else s).mem.wf)
    split
    · exact ⟨rfl, fun h => Memory.wf_store ⟨by simp, by simp [hr]⟩ h⟩
    · exact ⟨rfl, id⟩

/-- Bytes after several bytes are written. -/
theorem State.readByte_writeBytes {s : State} (hm : s.mem.wf) (a : Nat) (bs : List Byte) (x : Nat) :
    (s.writeBytes a bs).readByte x =
      if (a ≤ x ∧ x < a + bs.length) ∧ ((0x400 ≤ x ∧ x < 0x480) ∨ (0x1000 ≤ x ∧ x < 0x3000) ∨ (0x3000 ≤ x ∧ x < 0x4000))
      then bs.getD (x - a) 0 else s.readByte x := by
  induction bs generalizing s a with
  | nil => rw [if_neg (by simp)]; rfl
  | cons b bs ih =>
    rw [State.writeBytes, ih ((s.writeByte_mem a b).2 hm), State.readByte_writeByte hm, List.length_cons]
    rcases Nat.lt_trichotomy x a with h | h | h
    · rw [if_neg (by omega), if_neg (by omega), if_neg (by omega)]
    · subst h
      rw [if_neg (by omega)]
      by_cases hw : (0x400 ≤ x ∧ x < 0x480) ∨ (0x1000 ≤ x ∧ x < 0x3000) ∨ (0x3000 ≤ x ∧ x < 0x4000)
      · rw [if_pos ⟨rfl, hw⟩, if_pos ⟨by omega, hw⟩, Nat.sub_self]; rfl
      · rw [if_neg (by simp [hw]), if_neg (by simp [hw])]
    · obtain ⟨k, rfl⟩ : ∃ k, x = a + 1 + k := ⟨x - a - 1, by omega⟩
      rw [if_neg (c := a + 1 + k = a ∧ _) (by omega), show a + 1 + k - (a + 1) = k by omega,
        show a + 1 + k - a = k + 1 by omega, List.getD_cons_succ]
      congr 1
      apply propext
      constructor
      · rintro ⟨h1, h2⟩; exact ⟨by omega, h2⟩
      · rintro ⟨h1, h2⟩; exact ⟨by omega, h2⟩

theorem State.writeBytes_mem (s : State) (a : Nat) (bs : List Byte) :
    s.writeBytes a bs = { s with mem := (s.writeBytes a bs).mem } ∧ (s.mem.wf → (s.writeBytes a bs).mem.wf) := by
  induction bs generalizing s a with
  | nil => exact ⟨rfl, id⟩
  | cons b bs ih =>
    obtain ⟨h1, h2⟩ := s.writeByte_mem a b
    obtain ⟨i1, i2⟩ := ih (s.writeByte a b) (a + 1)
    rw [State.writeBytes]
    refine ⟨?_, fun h => i2 (h2 h)⟩
    rw [i1, h1]

/-- The n bytes of a read, least significant first. -/
theorem leValue_readBytes (s : State) (a n : Nat) :
    leValue (s.readBytes a n) = ((List.range n).map fun j => (s.readByte (a + j)).toNat * 2 ^ (8 * j)).sum := by
  induction n generalizing a with
  | zero => rfl
  | succ n ih =>
    rw [State.readBytes, leValue, ih, List.range_succ_eq_map, List.map_cons, List.sum_cons, List.map_map]
    congr 1
    · simp
    · rw [← List.sum_map_mul_left]
      congr 1
      refine List.map_congr_left fun j _ => ?_
      simp only [Function.comp, Nat.succ_eq_add_one]
      rw [show a + 1 + j = a + (j + 1) by omega, show 8 * (j + 1) = 8 * j + 8 by omega, Nat.pow_add]
      ring

theorem leValue_lt (bs : List Byte) : leValue bs < 2 ^ (8 * bs.length) := by
  induction bs with
  | nil => decide
  | cons b bs ih =>
    have := b.isLt
    rw [leValue, List.length_cons, show 8 * (bs.length + 1) = 8 * bs.length + 8 by omega, Nat.pow_add]
    omega

end Sys2Proof.Machine
end

