-- ==== Sys2Proof/Laws/Decode.lean ====
section
/-! SUPPORT. The laws of the fields of a command word and of the opcode map (30_encoding.md R110, R111). -/

namespace Sys2Proof

theorem opcField_eq (w : Word) : opcField w = w.toNat % 256 := by simp [opcField]

theorem immField_eq (w : Word) : immField w = w.toNat / 256 % 256 := by
  simp [immField, Nat.shiftRight_eq_div_pow]

theorem rsvField_eq (w : Word) : rsvField w = w.toNat / 65536 := by
  simp only [rsvField, BitVec.extractLsb'_toNat, Nat.shiftRight_eq_div_pow]
  have := w.isLt
  omega

/-- Every opcode fits the OPC field. -/
theorem opcodeOf_lt (i : Instr) : opcodeOf i < 256 := by
  cases i <;> simp only [opcodeOf] <;> omega

/-- The word of a well-formed command as a number. -/
theorem encode_toNat {i : Instr} (h : i.WellFormed) : (encode i).toNat = i.imm * 256 + opcodeOf i := by
  have ho := opcodeOf_lt i
  simp only [encode, BitVec.toNat_append, BitVec.toNat_ofNat, Nat.shiftLeft_eq]
  rw [Nat.mod_eq_of_lt h, Nat.mod_eq_of_lt ho]
  have : (i.imm * 2 ^ 8 ||| opcodeOf i) = i.imm * 2 ^ 8 + opcodeOf i := by
    rw [Nat.mul_comm, ← Nat.two_pow_add_eq_or_of_lt ho]
  simpa using this

/-- The opcode map names a command with that opcode, whose immediate is the field's unless its class is NONE. -/
theorem commandOf_some {opc imm : Nat} {i : Instr} (h : commandOf opc imm = some i) :
    opcodeOf i = opc ∧ (i.immClass ≠ .none → i.imm = imm) ∧ (i.immClass = .none → i.imm = 0) := by
  unfold commandOf at h
  split at h <;> cases h <;> simp [opcodeOf, Instr.imm, Instr.immClass]

/-- The opcode map at a command's own opcode. -/
theorem commandOf_opcodeOf (i : Instr) : commandOf (opcodeOf i) i.imm = some i := by
  cases i <;> rfl

/-- The opcode values of R111. -/
def opcodes : List Nat :=
  [0x00, 0x01, 0x10, 0x11, 0x12, 0x13, 0x20, 0x30, 0x31, 0x32, 0x33, 0x40, 0x41, 0x42, 0x50, 0x51, 0x52, 0x53, 0x54,
    0x60, 0x61, 0x62]

theorem opcodeOf_mem (i : Instr) : opcodeOf i ∈ opcodes := by
  cases i <;> simp [opcodeOf, opcodes]

/-- The opcode map refuses the reserved opcodes and no other (R115). -/
theorem commandOf_none {opc imm : Nat} : commandOf opc imm = none ↔ opc ∉ opcodes := by
  constructor
  · intro h hm
    simp only [opcodes, List.mem_cons, List.not_mem_nil, or_false] at hm
    rcases hm with rfl | rfl | rfl | rfl | rfl | rfl | rfl | rfl | rfl | rfl | rfl | rfl | rfl | rfl | rfl | rfl | rfl |
      rfl | rfl | rfl | rfl | rfl <;> cases h
  · intro h
    cases hc : commandOf opc imm with
    | none => rfl
    | some i => exact absurd ((commandOf_some hc).1 ▸ opcodeOf_mem i) h

end Sys2Proof
end

