-- ==== Sys2Proof/Laws/Gf.lean ====
section
/-! SUPPORT. The laws of field multiplication (40_gf.md R142, R150): `mulp` is bilinear, commutative and associative,
and the tables of R143 and R144 compute it. -/

namespace Sys2Proof.Machine

open Sys2Proof

theorem timesAlpha_xor (a b : Byte) : timesAlpha (a ^^^ b) = timesAlpha a ^^^ timesAlpha b := by
  simp only [timesAlpha, BitVec.shiftLeft_xor_distrib, BitVec.getLsbD_xor]
  have h : a <<< 1 ^^^ 29#8 ^^^ (b <<< 1 ^^^ 29#8) = a <<< 1 ^^^ b <<< 1 ^^^ (29#8 ^^^ 29#8) := by ac_rfl
  cases a.getLsbD 7 <;> cases b.getLsbD 7 <;> simp only [Bool.false_eq_true, if_true, if_false, bne_self_eq_false,
    Bool.bne_false, Bool.false_bne, BitVec.ofNat_eq_ofNat, h, BitVec.xor_self, BitVec.xor_zero] <;> ac_rfl

@[simp] theorem timesAlpha_zero : timesAlpha 0#8 = 0#8 := by decide

theorem foldl_mulStep_xor_left (a a' b : Byte) (l : List Nat) (r r' : Byte) :
    l.foldl (mulStep (a ^^^ a') b) (r ^^^ r') = l.foldl (mulStep a b) r ^^^ l.foldl (mulStep a' b) r' := by
  induction l generalizing r r' with
  | nil => rfl
  | cons i l ih =>
    have : mulStep (a ^^^ a') b (r ^^^ r') i = mulStep a b r i ^^^ mulStep a' b r' i := by
      simp only [mulStep, timesAlpha_xor]
      split
      · ac_rfl
      · simp
    simp only [List.foldl_cons, this, ih]

/-- ⊗ distributes over ⊕ on the left (R150). -/
theorem mulp_xor_left (a a' b : Byte) : mulp (a ^^^ a') b = mulp a b ^^^ mulp a' b := by
  simpa [mulp] using foldl_mulStep_xor_left a a' b [7, 6, 5, 4, 3, 2, 1, 0] 0 0

theorem foldl_mulStep_xor_right (a b b' : Byte) (l : List Nat) (r r' : Byte) :
    l.foldl (mulStep a (b ^^^ b')) (r ^^^ r') = l.foldl (mulStep a b) r ^^^ l.foldl (mulStep a b') r' := by
  induction l generalizing r r' with
  | nil => rfl
  | cons i l ih =>
    have : mulStep a (b ^^^ b') (r ^^^ r') i = mulStep a b r i ^^^ mulStep a b' r' i := by
      simp only [mulStep, timesAlpha_xor, BitVec.getLsbD_xor]
      have h : timesAlpha r ^^^ a ^^^ (timesAlpha r' ^^^ a) = timesAlpha r ^^^ timesAlpha r' ^^^ (a ^^^ a) := by ac_rfl
      cases b.getLsbD i <;> cases b'.getLsbD i <;> simp only [Bool.false_eq_true, if_true, if_false, bne_self_eq_false,
        Bool.bne_false, Bool.false_bne, BitVec.ofNat_eq_ofNat, h, BitVec.xor_self, BitVec.xor_zero] <;> ac_rfl
    simp only [List.foldl_cons, this, ih]

/-- ⊗ distributes over ⊕ on the right (R150). -/
theorem mulp_xor_right (a b b' : Byte) : mulp a (b ^^^ b') = mulp a b ^^^ mulp a b' := by
  simpa [mulp] using foldl_mulStep_xor_right a b b' [7, 6, 5, 4, 3, 2, 1, 0] 0 0

theorem foldl_mulStep_timesAlpha (a b : Byte) (l : List Nat) (r : Byte) :
    l.foldl (mulStep (timesAlpha a) b) (timesAlpha r) = timesAlpha (l.foldl (mulStep a b) r) := by
  induction l generalizing r with
  | nil => rfl
  | cons i l ih =>
    have : mulStep (timesAlpha a) b (timesAlpha r) i = timesAlpha (mulStep a b r i) := by
      simp only [mulStep, timesAlpha_xor]
      split <;> simp
    simp only [List.foldl_cons, this, ih]

theorem mulp_timesAlpha_left (a b : Byte) : mulp (timesAlpha a) b = timesAlpha (mulp a b) := by
  exact foldl_mulStep_timesAlpha a b [7, 6, 5, 4, 3, 2, 1, 0] 0

@[simp] theorem mulp_zero_left (b : Byte) : mulp 0#8 b = 0#8 := by
  have := mulp_xor_left 0 0 b
  simpa using this

@[simp] theorem mulp_zero_right (a : Byte) : mulp a 0#8 = 0#8 := by
  have := mulp_xor_right a 0 0
  simpa using this

theorem mulp_one_left_all : ∀ n < 256, mulp 1 (BitVec.ofNat 8 n) = BitVec.ofNat 8 n := by decide +kernel

@[simp] theorem mulp_one_left (b : Byte) : mulp 1#8 b = b := by
  have := mulp_one_left_all b.toNat b.isLt
  rwa [BitVec.ofNat_toNat, BitVec.setWidth_eq] at this

theorem mulp_one_right_all : ∀ n < 256, mulp (BitVec.ofNat 8 n) 1 = BitVec.ofNat 8 n := by decide +kernel

@[simp] theorem mulp_one_right (a : Byte) : mulp a 1#8 = a := by
  have := mulp_one_right_all a.toNat a.isLt
  rwa [BitVec.ofNat_toNat, BitVec.setWidth_eq] at this

/-- Every byte is reached from 0 and 1 by ⊕ and by multiplication with α. -/
theorem byte_induction {P : Byte → Prop} (h0 : P 0) (h1 : P 1) (hx : ∀ a b, P a → P b → P (a ^^^ b))
    (ht : ∀ a, P a → P (timesAlpha a)) (a : Byte) : P a := by
  have fold : ∀ (l : List Nat) (r : Byte), P r → P (l.foldl (mulStep 1 a) r) := by
    intro l
    induction l with
    | nil => exact fun r h => h
    | cons i l ih =>
      intro r h
      refine ih _ (hx _ _ (ht _ h) ?_)
      split
      · exact h1
      · exact h0
  rw [← mulp_one_left a]
  exact fold _ _ h0

theorem mulp_timesAlpha_right (a b : Byte) : mulp a (timesAlpha b) = timesAlpha (mulp a b) := by
  induction a using byte_induction with
  | h0 => simp
  | h1 => simp
  | hx a a' h h' => simp only [mulp_xor_left, h, h', timesAlpha_xor]
  | ht a h => simp only [mulp_timesAlpha_left, h]

/-- ⊗ is commutative (R150). -/
theorem mulp_comm (a b : Byte) : mulp a b = mulp b a := by
  induction a using byte_induction with
  | h0 => simp
  | h1 => simp
  | hx a a' h h' => simp only [mulp_xor_left, mulp_xor_right, h, h']
  | ht a h => simp only [mulp_timesAlpha_left, mulp_timesAlpha_right, h]

/-- ⊗ is associative (R150). -/
theorem mulp_assoc (a b c : Byte) : mulp (mulp a b) c = mulp a (mulp b c) := by
  induction a using byte_induction with
  | h0 => simp
  | h1 => simp
  | hx a a' h h' => simp only [mulp_xor_left, h, h']
  | ht a h => simp only [mulp_timesAlpha_left, h]

/-! ### The tables (R143, R144) -/

theorem expRom_succ : ∀ i < 255, expRom ((i + 1) % 255) = timesAlpha (expRom i) := by decide +kernel

theorem expRom_logRom_all : ∀ n < 256, n ≠ 0 → expRom (logRom n).toNat = BitVec.ofNat 8 n := by decide +kernel

/-- EXP[LOG[a]] = a for a ≠ 0 (R144). -/
theorem expRom_logRom {a : Byte} (h : a ≠ 0) : expRom (logRom a.toNat).toNat = a := by
  have := expRom_logRom_all a.toNat a.isLt (by simpa [← BitVec.toNat_inj] using h)
  rwa [BitVec.ofNat_toNat, BitVec.setWidth_eq] at this

/-- LOG[a] < 255: 255 is never a logarithm (R148). -/
theorem logRom_lt : ∀ n < 256, (logRom n).toNat < 255 := by decide +kernel

theorem alphaPow_succ (i : Nat) : alphaPow (i + 1) = timesAlpha (alphaPow i) := by
  rw [alphaPow, alphaPow, ← expRom_succ (i % 255) (Nat.mod_lt _ (by decide)), Nat.mod_add_mod]

@[simp] theorem alphaPow_zero : alphaPow 0 = 1#8 := by decide

/-- α^i ⊗ α^j = α^(i+j). -/
theorem mulp_alphaPow (i j : Nat) : mulp (alphaPow i) (alphaPow j) = alphaPow (i + j) := by
  induction i with
  | zero => simp
  | succ i ih => rw [alphaPow_succ, mulp_timesAlpha_left, ih, show i + 1 + j = i + j + 1 by omega, alphaPow_succ]

/-- a = α^LOG[a] for a ≠ 0. -/
theorem alphaPow_logRom {a : Byte} (h : a ≠ 0) : alphaPow (logRom a.toNat).toNat = a := by
  rw [alphaPow, Nat.mod_eq_of_lt (logRom_lt _ a.isLt), expRom_logRom h]

/-- a ⊗ a⁻¹ = 1 for a ≠ 0 (R150 law 3). -/
theorem mulp_gfInverse {a : Byte} (h : a ≠ 0) : mulp a (gfInverse a) = 1#8 := by
  have hl := logRom_lt a.toNat a.isLt
  have ha : mulp (alphaPow (logRom a.toNat).toNat) (gfInverse a) = alphaPow 255 := by
    rw [show gfInverse a = alphaPow (255 - (logRom a.toNat).toNat) from rfl, mulp_alphaPow]
    congr 1
    omega
  rw [alphaPow_logRom h] at ha
  exact ha.trans (by decide)

/-- α^8 = 0x1D, which is p(x) = 0x11D less its x^8 term (R150 law 4). -/
theorem alphaPow_eight : alphaPow 8 = 0x1D#8 := by decide

end Sys2Proof.Machine
end

