-- ==== Sys2Proof/Laws/Matrix.lean ====
section
/-! SUPPORT. The laws of the module matrix: how a grid is read from MX and written back (R70, R280), and what the
placement operations of R281, R299, R302 and R331 do to a grid. -/

namespace Sys2Proof.Machine

open Sys2Proof

/-! ### Modules and bytes -/

@[simp] theorem Module.ofByte_toByte (m : Module) : Module.ofByte m.toByte = m := by
  obtain ⟨d, r⟩ := m
  cases d <;> cases r <;> decide

theorem Module.toByte_lt (m : Module) : m.toByte.toNat < 8 := by
  obtain ⟨d, r⟩ := m
  cases d <;> cases r <;> decide

theorem Module.toByte_ofByte_all : ∀ n < 8, (Module.ofByte (BitVec.ofNat 8 n)).toByte = BitVec.ofNat 8 n := by decide

theorem Module.toByte_ofByte {b : Byte} (h : b.toNat < 8) : (Module.ofByte b).toByte = b := by
  have := Module.toByte_ofByte_all b.toNat h
  rwa [BitVec.ofNat_toNat, BitVec.setWidth_eq] at this

/-- An MX byte is below 8 (R70). -/
theorem State.buf_mx_lt {s : State} (hs : s.MemoryOk) {i : Nat} (hi : i < 31329) : (s.buf .mx i).toNat < 8 := by
  unfold State.buf
  cases h : s.mem.read (Region.base .mx + i) with
  | some v => exact hs.2 _ (Memory.mem_of_read h) (regionAt_base .mx hi)
  | none =>
    show (Config.ramDraw s.epoch.mx _ &&& 7).toNat < 8
    rw [BitVec.toNat_and]
    exact Nat.lt_of_le_of_lt Nat.and_le_right (by decide)

/-! ### Grids -/

/-- A grid of n rows of n modules. -/
abbrev Grid.Square (n : Nat) (g : Grid) : Prop := g.length = n ∧ ∀ row ∈ g, row.length = n

theorem gridRows_length (n rows : Nat) (bs : List Byte) : (gridRows n rows bs).length = rows := by
  induction rows generalizing bs with
  | zero => rfl
  | succ rows ih => simp [gridRows, ih]

theorem gridRows_get (n rows : Nat) (bs : List Byte) (r c : Nat) (hr : r < rows) (hc : c < n) :
    ((gridRows n rows bs).getD r []).getD c .blank = (bs[177 * r + c]?.map Module.ofByte).getD .blank := by
  induction rows generalizing bs r with
  | zero => omega
  | succ rows ih =>
    cases r with
    | zero => simp [gridRows, List.getD_eq_getElem?_getD, hc]
    | succ r =>
      rw [gridRows, List.getD_cons_succ, ih _ _ (by omega), List.getElem?_drop, Config.mxStride]
      congr 3
      omega

theorem gridRows_row_length (n rows : Nat) (bs : List Byte) (h : ∀ r < rows, 177 * r + n ≤ bs.length) :
    ∀ row ∈ gridRows n rows bs, row.length = n := by
  induction rows generalizing bs with
  | zero => simp [gridRows]
  | succ rows ih =>
    intro row hrow
    simp only [gridRows, List.mem_cons] at hrow
    rcases hrow with rfl | hrow
    · have := h 0 (by omega)
      simp; omega
    · refine ih _ (fun r hr => ?_) row hrow
      have := h (r + 1) (by omega)
      simp only [List.length_drop, Config.mxStride]
      omega

theorem State.grid_square (s : State) (hN : s.side ≤ 177) : Grid.Square s.side s.grid := by
  refine ⟨gridRows_length _ _ _, gridRows_row_length _ _ _ fun r hr => ?_⟩
  rw [State.bytes_length, Config.mxStride]
  have : 177 * (r + 1) ≤ 177 * s.side := Nat.mul_le_mul_left _ hr
  omega

/-- The grid holds the modules of MX. -/
theorem State.grid_get (s : State) (hm : s.mem.wf) {r c : Nat} (hr : r < s.side) (hc : c < s.side) (hN : s.side ≤ 177) :
    s.grid.get r c = s.moduleAt r c := by
  rw [Grid.get, State.grid, gridRows_get _ _ _ _ _ hr hc, s.bytes_eq_map_buf hm]
  have : 177 * (r + 1) ≤ 177 * s.side := Nat.mul_le_mul_left _ hr
  rw [List.getElem?_map, List.getElem?_range (by rw [Config.mxStride]; omega)]
  simp [State.moduleAt, moduleIndex, Config.mxStride]

theorem Grid.ext {n : Nat} {g h : Grid} (hg : Grid.Square n g) (hh : Grid.Square n h)
    (e : ∀ r < n, ∀ c < n, g.get r c = h.get r c) : g = h := by
  refine List.ext_getElem (by rw [hg.1, hh.1]) fun r h1 h2 => ?_
  have l1 := hg.2 _ (List.getElem_mem h1)
  have l2 := hh.2 _ (List.getElem_mem h2)
  refine List.ext_getElem (by rw [l1, l2]) fun c h3 h4 => ?_
  have := e r (by rw [← hg.1]; exact h1) c (by rw [← l1]; exact h3)
  simpa [Grid.get, List.getD_eq_getElem?_getD, h1, h2, h3, h4] using this

/-! ### Writing a grid back -/

theorem read_changedCells (a : Nat) (old new : List Module) (hl : old.length = new.length) (x : Nat) :
    Memory.read (changedCells a old new) x =
      if a ≤ x ∧ x < a + new.length ∧ old.getD (x - a) .blank ≠ new.getD (x - a) .blank
      then some (new.getD (x - a) .blank).toByte else none := by
  induction new generalizing a old with
  | nil => cases old <;> simp_all [changedCells]
  | cons m ms ih =>
    cases old with
    | nil => simp at hl
    | cons o os =>
      have hl : os.length = ms.length := by simpa using hl
      have step : Memory.read (changedCells a (o :: os) (m :: ms)) x =
          if o ≠ m ∧ x = a then some m.toByte else Memory.read (changedCells (a + 1) os ms) x := by
        rw [changedCells]
        split
        · next h => simp [h]
        · next h => simp [Memory.read_cons, h, eq_comm]
      rw [step, ih _ _ hl]
      rcases Nat.lt_trichotomy x a with h | h | h
      · rw [if_neg (by omega), if_neg (by omega), if_neg (by omega)]
      · subst h
        by_cases hom : o = m
        · simp [hom]
        · simp [hom]
      · obtain ⟨k, rfl⟩ : ∃ k, x = a + 1 + k := ⟨x - a - 1, by omega⟩
        rw [if_neg (by omega), show a + 1 + k - a = k + 1 by omega, show a + 1 + k - (a + 1) = k by omega]
        simp only [List.getD_cons_succ, List.length_cons]
        congr 1
        apply propext
        constructor
        · rintro ⟨_, h2, h3⟩; exact ⟨by omega, by omega, h3⟩
        · rintro ⟨_, h2, h3⟩; exact ⟨by omega, by omega, h3⟩

theorem mem_changedCells {a : Nat} {old new : List Module} {x : Host.Cell} (h : x ∈ changedCells a old new) :
    a ≤ x.1 ∧ x.1 < a + new.length ∧ ∃ m : Module, x.2 = m.toByte := by
  induction new generalizing a old with
  | nil => cases old <;> simp [changedCells] at h
  | cons m ms ih =>
    cases old with
    | nil => simp [changedCells] at h
    | cons o os =>
      have tail : x ∈ changedCells (a + 1) os ms → a ≤ x.1 ∧ x.1 < a + (m :: ms).length ∧ ∃ m : Module, x.2 = m.toByte := by
        intro h
        obtain ⟨h1, h2, h3⟩ := ih h
        exact ⟨by omega, by rw [List.length_cons]; omega, h3⟩
      unfold changedCells at h
      split at h
      · exact tail h
      · rcases List.mem_cons.1 h with rfl | h
        · exact ⟨by simp, by simp, m, rfl⟩
        · exact tail h

theorem rising_changedCells (a : Nat) (old new : List Module) : Memory.Rising (changedCells a old new) := by
  induction new generalizing a old with
  | nil => cases old <;> exact .nil
  | cons m ms ih =>
    cases old with
    | nil => exact .nil
    | cons o os =>
      unfold changedCells
      split
      · exact ih _ _
      · exact List.pairwise_cons.2 ⟨fun x hx => (mem_changedCells hx).1, ih _ _⟩

theorem mem_changedRows {n : Nat} (hn : n ≤ 177) {a : Nat} {olds news : Grid} (hw : ∀ row ∈ news, row.length = n)
    {x : Host.Cell} (h : x ∈ changedRows a olds news) :
    a ≤ x.1 ∧ x.1 < a + 177 * news.length ∧ ∃ m : Module, x.2 = m.toByte := by
  induction news generalizing a olds with
  | nil => cases olds <;> simp [changedRows] at h
  | cons new news ih =>
    cases olds with
    | nil => simp [changedRows] at h
    | cons old olds =>
      have hl := hw new (by simp)
      simp only [changedRows, List.mem_append] at h
      rw [List.length_cons]
      rcases h with h | h
      · obtain ⟨h1, h2, h3⟩ := mem_changedCells h
        exact ⟨h1, by omega, h3⟩
      · obtain ⟨h1, h2, h3⟩ := ih (fun row hr => hw row (by simp [hr])) h
        rw [Config.mxStride] at h1 h2
        exact ⟨by omega, by omega, h3⟩

theorem rising_changedRows {n : Nat} (hn : n ≤ 177) (a : Nat) (olds news : Grid) (hw : ∀ row ∈ news, row.length = n) :
    Memory.Rising (changedRows a olds news) := by
  induction news generalizing a olds with
  | nil => cases olds <;> exact .nil
  | cons new news ih =>
    cases olds with
    | nil => exact .nil
    | cons old olds =>
      refine List.pairwise_append.2 ⟨rising_changedCells _ _ _, ih _ _ fun row hr => hw row (by simp [hr]), ?_⟩
      intro x hx y hy
      have h1 := (mem_changedCells hx).2.1
      have h2 := (mem_changedRows hn (fun row hr => hw row (by simp [hr])) hy).1
      have := hw new (by simp)
      rw [Config.mxStride] at h2
      omega

theorem read_changedRows {n : Nat} (hn : n ≤ 177) (a : Nat) (olds news : Grid) (hl : olds.length = news.length)
    (ho : ∀ row ∈ olds, row.length = n) (hw : ∀ row ∈ news, row.length = n) (r c : Nat) (hc : c < 177) :
    Memory.read (changedRows a olds news) (a + (177 * r + c)) =
      if r < news.length ∧ c < n ∧ Grid.get olds r c ≠ Grid.get news r c then some (Grid.get news r c).toByte
      else none := by
  induction news generalizing a olds r with
  | nil => cases olds <;> simp [changedRows]
  | cons new news ih =>
    cases olds with
    | nil => simp at hl
    | cons old olds =>
      have h1 := ho old (by simp)
      have h2 := hw new (by simp)
      simp only [changedRows, Memory.read_append, read_changedCells _ _ _ (h1.trans h2.symm)]
      cases r with
      | zero =>
        rw [Memory.read_eq_none (m := changedRows _ _ _) (fun x hx => by
          have := (mem_changedRows hn (fun row hr => hw row (by simp [hr])) hx).1
          rw [Config.mxStride] at this
          omega)]
        simp only [Nat.mul_zero, Nat.zero_add, Option.or_none, h2, Grid.get, List.getD_cons_zero, List.length_cons,
          Nat.add_sub_cancel_left]
        congr 1
        apply propext
        constructor
        · rintro ⟨_, h3, h4⟩; exact ⟨by omega, by omega, h4⟩
        · rintro ⟨_, h3, h4⟩; exact ⟨by omega, by omega, h4⟩
      | succ r =>
        rw [if_neg (by omega), Option.none_or]
        have := ih (a + Config.mxStride) olds (by simpa using hl) (fun row hr => ho row (by simp [hr]))
          (fun row hr => hw row (by simp [hr])) r
        rw [show a + (177 * (r + 1) + c) = a + Config.mxStride + (177 * r + c) by rw [Config.mxStride]; omega, this]
        simp only [Grid.get, List.getD_cons_succ, List.length_cons, Nat.add_lt_add_iff_right]
        congr

/-- Where a byte of MX lies. -/
theorem div_mod_177 (i : Nat) : i = 177 * (i / 177) + i % 177 := (Nat.div_add_mod i 177).symm

/-- A byte after a grid is written back: inside N×N, the grid's module; elsewhere, the byte before. -/
theorem State.buf_setGrid {s : State} (hs : s.MemoryOk) (hN : s.side ≤ 177) {g : Grid} (hg : Grid.Square s.side g)
    (h : Region) {j : Nat} (hj : j < h.size) :
    (s.setGrid g).buf h j =
      if h = .mx ∧ j / 177 < s.side ∧ j % 177 < s.side then (g.get (j / 177) (j % 177)).toByte else s.buf h j := by
  have sq := s.grid_square hN
  rw [State.setGrid, State.buf_store _ (rising_changedRows hN _ _ _ hg.2) hs.1]
  by_cases hh : h = .mx
  · subst hh
    have hd := div_mod_177 j
    have hlt := Nat.mod_lt j (show 177 > 0 by decide)
    have hrd := read_changedRows hN (Region.base .mx) s.grid g (by rw [sq.1, hg.1]) sq.2 hg.2 (j / 177) (j % 177) hlt
    rw [← hd, hg.1] at hrd
    rw [hrd]
    by_cases hin : j / 177 < s.side ∧ j % 177 < s.side
    · rw [if_pos (c := Region.mx = .mx ∧ _) ⟨rfl, hin⟩]
      split
      · rfl
      · next hne =>
        have heq : s.grid.get (j / 177) (j % 177) = g.get (j / 177) (j % 177) := by
          by_contra hc; exact hne ⟨hin.1, hin.2, hc⟩
        rw [← heq, s.grid_get hs.1 hin.1 hin.2 hN, State.moduleAt, moduleIndex, Config.mxStride, ← hd,
          Module.toByte_ofByte (State.buf_mx_lt hs hj)]
        rfl
    · rw [if_neg (by rintro ⟨h1, h2, _⟩; exact hin ⟨h1, h2⟩), if_neg (by rintro ⟨_, h1, h2⟩; exact hin ⟨h1, h2⟩)]
      rfl
  · rw [if_neg (by simp [hh]), Memory.read_eq_none]
    · rfl
    · intro x hx e
      obtain ⟨h1, h2, _⟩ := mem_changedRows hN hg.2 hx
      have : 177 * g.length ≤ 177 * 177 := Nat.mul_le_mul_left _ (by rw [hg.1]; exact hN)
      have hsz : Region.size .mx = 31329 := rfl
      refine hh (region_disjoint (g := h) (h := .mx) (i := j) (j := h.base + j - Region.base .mx) hj (by omega) (by omega)).1

theorem State.memoryOk_setGrid {s : State} (hs : s.MemoryOk) (hN : s.side ≤ 177) {g : Grid} (hg : Grid.Square s.side g) :
    (s.setGrid g).MemoryOk := by
  have wf : Memory.wf (changedRows (Region.base .mx) s.grid g) := by
    refine ⟨rising_changedRows hN _ _ _ hg.2, fun x hx => ?_⟩
    obtain ⟨h1, h2, _⟩ := mem_changedRows hN hg.2 hx
    have : 177 * g.length ≤ 177 * 177 := Nat.mul_le_mul_left _ (by rw [hg.1]; exact hN)
    have hr := regionAt_base .mx (i := x.1 - Region.base .mx) (by show _ < 31329; omega)
    rw [show Region.base .mx + (x.1 - Region.base .mx) = x.1 by omega] at hr
    simp [hr]
  refine ⟨Memory.wf_store wf hs.1, fun x hx hr => ?_⟩
  rcases Memory.mem_store hx with hx | hx
  · obtain ⟨m, hm⟩ := (mem_changedRows hN hg.2 hx).2.2
    rw [hm]
    exact m.toByte_lt
  · exact hs.2 x hx hr

@[simp] theorem State.side_setGrid (s : State) (g : Grid) : (s.setGrid g).side = s.side := rfl

/-- A module after a grid is written back. -/
theorem State.moduleAt_setGrid {s : State} (hs : s.MemoryOk) (hN : s.side ≤ 177) {g : Grid} (hg : Grid.Square s.side g)
    {r c : Nat} (hr : r < s.side) (hc : c < s.side) : (s.setGrid g).moduleAt r c = g.get r c := by
  have hj : 177 * r + c < 31329 := by
    have : 177 * (r + 1) ≤ 177 * 177 := Nat.mul_le_mul_left _ (by omega)
    omega
  rw [State.moduleAt, moduleIndex, Config.mxStride, State.buf_setGrid hs hN hg .mx hj]
  rw [show (177 * r + c) / 177 = r by omega, show (177 * r + c) % 177 = c by omega, if_pos ⟨rfl, hr, hc⟩]
  simp

/-- Writing a grid and reading it back. -/
theorem State.grid_setGrid {s : State} (hs : s.MemoryOk) (hN : s.side ≤ 177) {g : Grid} (hg : Grid.Square s.side g) :
    (s.setGrid g).grid = g := by
  refine Grid.ext ((s.setGrid g).grid_square hN) hg fun r hr c hc => ?_
  rw [State.grid_get _ (State.memoryOk_setGrid hs hN hg).1 hr hc hN, State.moduleAt_setGrid hs hN hg hr hc]

end Sys2Proof.Machine
end

