-- ==== Sys2Proof/Laws/Placements.lean ====
section
/-! SUPPORT. The laws of the function patterns (45_matrix.md R281, R283): for every version 1 to 40 the placements lie in
the matrix, no two name the same module, and MX_FUNC on a blank matrix puts each where it says. -/

namespace Sys2Proof.Machine

open Sys2Proof

/-- Mark the modules of a list of placements in a bit mask, module (r, c) at bit n·r + c, and count them; `none` when one
lies outside n×n or is marked twice. (Written with the operations the kernel evaluates fast.) -/
def occupy (n : Nat) : Nat → Nat → List Placement → Option (Nat × Nat)
  | mask, count, [] => some (mask, count)
  | mask, count, p :: ps =>
    match Nat.ble n p.row, Nat.ble n p.col,
      Nat.land (Nat.shiftRight mask (Nat.add (Nat.mul n p.row) p.col)) 1 with
    | false, false, 0 =>
      occupy n (Nat.lor mask (Nat.shiftLeft 1 (Nat.add (Nat.mul n p.row) p.col))) (Nat.succ count) ps
    | _, _, _ => none

/-- The timing patterns, the alignment centres near row 6 and near column 6 picked once. -/
def timingQuick (v : Nat) : List Placement :=
  (List.range' 8 (sideOf v - 16)).flatMap fun k =>
    (if ((alignCentres v).filter fun p => decide (distance 6 p.1 ≤ 2)).any fun p => decide (distance k p.2 ≤ 2)
      then [] else [⟨6, k, functionModule (decide (k % 2 = 0))⟩]) ++
      (if ((alignCentres v).filter fun p => decide (distance 6 p.2 ≤ 2)).any fun p => decide (distance k p.1 ≤ 2)
        then [] else [⟨k, 6, functionModule (decide (k % 2 = 0))⟩])

theorem timingPatterns_eq (v : Nat) : timingPatterns v = timingQuick v := by
  simp only [timingPatterns, timingQuick, inAlignment, List.any_filter]
  congr 1
  funext k
  simp only [Bool.and_comm]
  congr

/-- The placements of MX_FUNC with the timing patterns computed so. -/
def placementsQuick (v : Nat) : List Placement :=
  finderPatterns (sideOf v) ++ timingQuick v ++ alignmentPatterns v ++ darkModule (sideOf v) ::
    formatReservation (sideOf v) ++ versionInformation v

theorem functionPlacements_eq (v : Nat) : functionPlacements v = placementsQuick v := by
  rw [functionPlacements, timingPatterns_eq, placementsQuick]

/-- The placements of a version lie in the matrix, are disjoint, fill column 6, and leave RAW(v) modules. -/
def placementsFit (v : Nat) : Bool :=
  match occupy (sideOf v) 0 0 (placementsQuick v) with
  | some (mask, count) =>
    ((List.range (sideOf v)).all fun r => Nat.beq (Nat.land (Nat.shiftRight mask (Nat.add (Nat.mul (sideOf v) r) 6)) 1) 1) &&
      Nat.beq (count + rawModules v) (sideOf v * sideOf v)
  | none => false

section
set_option Elab.async false -- one evaluation at a time, for the sake of memory

theorem placementsFit_1 : ∀ v ∈ List.range' 1 15, placementsFit v = true := by decide +kernel
theorem placementsFit_2 : ∀ v ∈ List.range' 16 10, placementsFit v = true := by decide +kernel
theorem placementsFit_3 : ∀ v ∈ List.range' 26 8, placementsFit v = true := by decide +kernel
theorem placementsFit_4 : ∀ v ∈ List.range' 34 7, placementsFit v = true := by decide +kernel

end

theorem placementsFit_all {v : Nat} (h1 : 1 ≤ v) (h2 : v ≤ 40) : placementsFit v = true := by
  rcases Nat.lt_or_ge v 16 with h | h
  · exact placementsFit_1 v (by simp; omega)
  rcases Nat.lt_or_ge v 26 with h | h
  · exact placementsFit_2 v (by simp; omega)
  rcases Nat.lt_or_ge v 34 with h | h
  · exact placementsFit_3 v (by simp; omega)
  · exact placementsFit_4 v (by simp; omega)

/-! ### What the mask says of the list -/

theorem land_shiftRight_one (mask i : Nat) : Nat.land (Nat.shiftRight mask i) 1 = (mask.testBit i).toNat := by
  show (mask >>> i) &&& 1 = _
  rw [Nat.and_one_is_mod, Nat.testBit_eq_decide_div_mod_eq, Nat.shiftRight_eq_div_pow]
  rcases Nat.mod_two_eq_zero_or_one (mask / 2 ^ i) with h | h <;> simp [h]

theorem testBit_lor_shiftLeft_one (mask i j : Nat) :
    (Nat.lor mask (Nat.shiftLeft 1 i)).testBit j = (mask.testBit j || decide (i = j)) := by
  show (mask ||| 1 <<< i).testBit j = _
  rw [Nat.testBit_or, Nat.one_shiftLeft, Nat.testBit_two_pow]

/-- The bit of a module. -/
def Placement.bit (n : Nat) (p : Placement) : Nat := n * p.row + p.col

theorem occupy_cons {n mask count : Nat} {p : Placement} {ps : List Placement} {out : Nat × Nat}
    (h : occupy n mask count (p :: ps) = some out) :
    p.row < n ∧ p.col < n ∧ mask.testBit (p.bit n) = false ∧
      occupy n (Nat.lor mask (Nat.shiftLeft 1 (p.bit n))) (count + 1) ps = some out := by
  unfold occupy at h
  split at h
  · next h1 h2 h3 =>
    have h3 : (mask.testBit (p.bit n)).toNat = 0 := by rw [← land_shiftRight_one]; exact h3
    refine ⟨?_, ?_, by simpa using h3, h⟩
    · have : ¬ n ≤ p.row := fun hle => by rw [Nat.ble_eq_true_of_le hle] at h1; cases h1
      omega
    · have : ¬ n ≤ p.col := fun hle => by rw [Nat.ble_eq_true_of_le hle] at h2; cases h2
      omega
  · cases h

theorem occupy_spec {n mask count : Nat} {ps : List Placement} {out : Nat × Nat} (h : occupy n mask count ps = some out) :
    (∀ p ∈ ps, p.row < n ∧ p.col < n ∧ mask.testBit (p.bit n) = false) ∧
    ps.Pairwise (fun p q => p.bit n ≠ q.bit n) ∧
    (∀ i, out.1.testBit i = true → mask.testBit i = true ∨ ∃ p ∈ ps, p.bit n = i) ∧
    out.2 = count + ps.length := by
  induction ps generalizing mask count with
  | nil =>
    simp only [occupy, Option.some.injEq] at h
    subst h
    simp
  | cons p ps ih =>
    obtain ⟨h1, h2, h3, h4⟩ := occupy_cons h
    obtain ⟨i1, i2, i3, i4⟩ := ih h4
    have hne : ∀ q ∈ ps, p.bit n ≠ q.bit n := fun q hq e => by
      have := (i1 q hq).2.2
      rw [testBit_lor_shiftLeft_one] at this
      simp [e] at this
    refine ⟨?_, List.pairwise_cons.2 ⟨hne, i2⟩, ?_, by rw [i4, List.length_cons]; omega⟩
    · intro q hq
      rcases List.mem_cons.1 hq with rfl | hq
      · exact ⟨h1, h2, h3⟩
      · obtain ⟨j1, j2, j3⟩ := i1 q hq
        rw [testBit_lor_shiftLeft_one] at j3
        exact ⟨j1, j2, by simp at j3; exact j3.1⟩
    · intro i hi
      rcases i3 i hi with h | ⟨q, hq, e⟩
      · rw [testBit_lor_shiftLeft_one] at h
        simp only [Bool.or_eq_true, decide_eq_true_eq] at h
        rcases h with h | h
        · exact .inl h
        · exact .inr ⟨p, by simp, h⟩
      · exact .inr ⟨q, by simp [hq], e⟩

theorem occupy_functionPlacements {v : Nat} (h1 : 1 ≤ v) (h2 : v ≤ 40) :
    ∃ out, occupy (sideOf v) 0 0 (functionPlacements v) = some out ∧
      (∀ r < sideOf v, out.1.testBit (sideOf v * r + 6) = true) ∧ out.2 + rawModules v = sideOf v * sideOf v := by
  have h := placementsFit_all h1 h2
  rw [placementsFit, ← functionPlacements_eq] at h
  split at h
  · next mask count e =>
    refine ⟨(mask, count), e, ?_⟩
    simp only [Bool.and_eq_true, List.all_eq_true, List.mem_range, Nat.beq_eq, land_shiftRight_one] at h
    exact ⟨fun r hr => by
      have := h.1 r hr
      cases hb : mask.testBit (sideOf v * r + 6)
      · rw [show Nat.add (Nat.mul (sideOf v) r) 6 = sideOf v * r + 6 from rfl, hb] at this; simp at this
      · rfl, h.2⟩
  · cases h

/-- Every placement of MX_FUNC lies in the matrix (R283). -/
theorem functionPlacements_inside {v : Nat} (h1 : 1 ≤ v) (h2 : v ≤ 40) :
    ∀ p ∈ functionPlacements v, p.row < sideOf v ∧ p.col < sideOf v := by
  obtain ⟨out, e, -⟩ := occupy_functionPlacements h1 h2
  exact fun p hp => ⟨((occupy_spec e).1 p hp).1, ((occupy_spec e).1 p hp).2.1⟩

/-- No two placements of MX_FUNC name one module (R281, R283). -/
theorem functionPlacements_disjoint {v : Nat} (h1 : 1 ≤ v) (h2 : v ≤ 40) :
    (functionPlacements v).Pairwise (fun p q => ¬ (p.row = q.row ∧ p.col = q.col)) := by
  obtain ⟨out, e, -⟩ := occupy_functionPlacements h1 h2
  exact (occupy_spec e).2.1.imp fun h hc => h (by rw [Placement.bit, Placement.bit, hc.1, hc.2])

/-- MX_FUNC writes all but RAW(v) modules (R300, R301). -/
theorem functionPlacements_length {v : Nat} (h1 : 1 ≤ v) (h2 : v ≤ 40) :
    (functionPlacements v).length + rawModules v = sideOf v * sideOf v := by
  obtain ⟨out, e, -, h⟩ := occupy_functionPlacements h1 h2
  rw [← h, (occupy_spec e).2.2.2, Nat.zero_add]

/-- MX_FUNC writes every module of column 6. -/
theorem functionPlacements_column {v : Nat} (h1 : 1 ≤ v) (h2 : v ≤ 40) :
    ∀ r < sideOf v, ∃ p ∈ functionPlacements v, p.row = r ∧ p.col = 6 := by
  obtain ⟨out, e, h, -⟩ := occupy_functionPlacements h1 h2
  intro r hr
  rcases (occupy_spec e).2.2.1 _ (h r hr) with hz | ⟨p, hp, hb⟩
  · simp at hz
  · refine ⟨p, hp, ?_⟩
    have hc := ((occupy_spec e).1 p hp).2.1
    have h6 : 6 < sideOf v := by rw [sideOf]; omega
    rw [Placement.bit] at hb
    have hpos : 0 < sideOf v := by omega
    have hrow : p.row = r := by
      have e1 : (sideOf v * p.row + p.col) / sideOf v = p.row := by
        rw [Nat.mul_add_div hpos, Nat.div_eq_of_lt hc, Nat.add_zero]
      have e2 : (sideOf v * r + 6) / sideOf v = r := by
        rw [Nat.mul_add_div hpos, Nat.div_eq_of_lt h6, Nat.add_zero]
      rw [← e1, hb, e2]
    subst hrow
    exact ⟨rfl, by omega⟩

end Sys2Proof.Machine
end

