-- ==== Sys2Proof/Laws/Grid.lean ====
section
/-! SUPPORT. The laws of grids: what each operation of the matrix builder and of the mask selector does to every module
(R281, R291, R297 to R299, R302, R331). -/

namespace Sys2Proof.Machine

open Sys2Proof

/-- MX_FUNC writes FUNCTION and RESERVED modules only, the RESERVED ones LIGHT (R281). -/
theorem functionPlacements_role {v : Nat} : ∀ p ∈ functionPlacements v,
    p.mod.role = .function ∨ p.mod = ⟨false, .reserved⟩ := by
  intro p hp
  simp only [functionPlacements, List.mem_append, List.mem_cons] at hp
  rcases hp with (((hp | hp) | hp) | (hp | hp)) | hp
  · simp only [finderPatterns, finderAt, List.mem_append, List.mem_flatMap, List.mem_filterMap, List.mem_range] at hp
    rcases hp with (⟨i, -, j, -, h⟩ | ⟨i, -, j, -, h⟩) | ⟨i, -, j, -, h⟩ <;> split at h <;> cases h <;> exact .inl rfl
  · simp only [timingPatterns, List.mem_append, List.mem_flatMap] at hp
    obtain ⟨k, -, h | h⟩ := hp <;> split at h <;> simp at h <;> subst h <;> exact .inl rfl
  · simp only [alignmentPatterns, alignmentAt, List.mem_flatMap, List.mem_map, List.mem_range] at hp
    obtain ⟨c, -, i, -, j, -, rfl⟩ := hp
    exact .inl rfl
  · subst hp; exact .inl rfl
  · simp only [formatReservation, List.mem_flatMap, List.mem_cons, List.not_mem_nil, or_false] at hp
    obtain ⟨i, -, rfl | rfl⟩ := hp <;> exact .inr rfl
  · unfold versionInformation at hp
    split at hp
    · simp at hp
    · simp only [List.mem_flatMap, List.mem_cons, List.not_mem_nil, or_false] at hp
      obtain ⟨i, -, rfl | rfl⟩ := hp <;> exact .inl rfl

/-! ### Writing one module -/

theorem Grid.square_set {n : Nat} {g : Grid} (hg : g.Square n) (r c : Nat) (m : Module) : Grid.Square n (g.set r c m) := by
  refine ⟨by rw [Grid.set, List.length_modify]; exact hg.1, fun row hrow => ?_⟩
  rw [Grid.set] at hrow
  obtain ⟨k, hk, rfl⟩ := List.mem_iff_getElem.1 hrow
  rw [List.getElem_modify]
  split
  · rw [List.length_set]; exact hg.2 _ (List.getElem_mem _)
  · exact hg.2 _ (List.getElem_mem _)

theorem Grid.get_set {n : Nat} {g : Grid} (hg : g.Square n) {r c : Nat} (hr : r < n) (hc : c < n) (m : Module) (i j : Nat) :
    (g.set r c m).get i j = if i = r ∧ j = c then m else g.get i j := by
  have hrl : r < g.length := by rw [hg.1]; exact hr
  have hcl : c < (g[r]).length := by rw [hg.2 _ (List.getElem_mem _)]; exact hc
  simp only [Grid.get, Grid.set, List.getD_eq_getElem?_getD, List.getElem?_modify]
  by_cases hir : i = r
  · subst hir
    rw [List.getElem?_eq_getElem hrl]
    simp only [if_true, Option.map_eq_map, Option.map_some, Option.getD_some, List.getElem?_set, true_and]
    by_cases hjc : j = c
    · subst hjc; simp [hcl]
    · rw [if_neg (Ne.symm hjc), if_neg hjc]
  · rw [if_neg (fun h => hir h.1)]
    simp [Ne.symm hir]

/-! ### Placing -/

/-- The placement of module (r, c) in a list, if there is one. -/
def placedAt (ps : List Placement) (r c : Nat) : Option Placement :=
  ps.find? fun p => decide (p.row = r) && decide (p.col = c)

theorem placedAt_cons (p : Placement) (ps : List Placement) (r c : Nat) :
    placedAt (p :: ps) r c = if p.row = r ∧ p.col = c then some p else placedAt ps r c := by
  unfold placedAt
  rw [List.find?_cons]
  by_cases h : p.row = r ∧ p.col = c
  · simp [h]
  · rw [if_neg h]
    have : (decide (p.row = r) && decide (p.col = c)) = false := by
      simpa [Bool.and_eq_false_iff, Classical.not_and_iff_not_or_not] using h
    rw [this]

theorem placedAt_none_of_disjoint {p : Placement} {ps : List Placement}
    (h : ∀ q ∈ ps, ¬ (p.row = q.row ∧ p.col = q.col)) : placedAt ps p.row p.col = none := by
  rw [placedAt, List.find?_eq_none]
  intro q hq
  have := h q hq
  simp only [Bool.and_eq_true, decide_eq_true_eq]
  exact fun e => this ⟨e.1.symm, e.2.symm⟩

theorem placedModule_eq (v r c : Nat) :
    placedModule v r c = ((placedAt (functionPlacements v) r c).map Placement.mod).getD .blank := by
  unfold placedModule placedAt
  cases (functionPlacements v).find? fun p => decide (p.row = r) && decide (p.col = c) <;> rfl

/-- Writing disjoint placements: each module named holds its placement's, the others are unchanged. -/
theorem overwriteAll_spec {n : Nat} {g : Grid} (hg : g.Square n) {ps : List Placement}
    (hin : ∀ p ∈ ps, p.row < n ∧ p.col < n) (hd : ps.Pairwise (fun p q => ¬ (p.row = q.row ∧ p.col = q.col))) :
    Grid.Square n (overwriteAll g ps) ∧
    ∀ r c, (overwriteAll g ps).get r c = ((placedAt ps r c).map Placement.mod).getD (g.get r c) := by
  induction ps generalizing g with
  | nil => exact ⟨hg, fun _ _ => rfl⟩
  | cons p ps ih =>
    have hp := hin p (by simp)
    obtain ⟨h1, h2⟩ := ih (Grid.square_set hg p.row p.col p.mod) (fun q hq => hin q (by simp [hq])) hd.of_cons
    refine ⟨h1, fun r c => ?_⟩
    rw [overwriteAll, h2, placedAt_cons, Grid.get_set hg hp.1 hp.2]
    by_cases h : p.row = r ∧ p.col = c
    · obtain ⟨rfl, rfl⟩ := h
      rw [placedAt_none_of_disjoint (List.pairwise_cons.1 hd).1]
      simp
    · rw [if_neg h, if_neg (fun e => h ⟨e.1.symm, e.2.symm⟩)]

/-- The write-once placement of disjoint placements on EMPTY modules raises no OVERLAP and is the plain writing
(R281). -/
theorem placeAll_eq {n : Nat} {g : Grid} (hg : g.Square n) {ps : List Placement}
    (hin : ∀ p ∈ ps, p.row < n ∧ p.col < n) (hd : ps.Pairwise (fun p q => ¬ (p.row = q.row ∧ p.col = q.col)))
    (he : ∀ p ∈ ps, (g.get p.row p.col).role = .empty) : placeAll g ps = .ok (overwriteAll g ps) := by
  induction ps generalizing g with
  | nil => rfl
  | cons p ps ih =>
    have hp := hin p (by simp)
    rw [placeAll, if_neg (by simp [he p (by simp)]), overwriteAll]
    refine ih (Grid.square_set hg _ _ _) (fun q hq => hin q (by simp [hq])) hd.of_cons fun q hq => ?_
    rw [Grid.get_set hg hp.1 hp.2, if_neg (fun e => (List.pairwise_cons.1 hd).1 q hq ⟨e.1.symm, e.2.symm⟩)]
    exact he q (by simp [hq])

/-- MX_FUNC's placements on a blank matrix (R291). -/
theorem placeAll_blank {v : Nat} (h1 : 1 ≤ v) (h2 : v ≤ 40) {g : Grid} (hg : g.Square (sideOf v))
    (hb : ∀ r < sideOf v, ∀ c < sideOf v, g.get r c = .blank) :
    ∃ g', placeAll g (functionPlacements v) = .ok g' ∧ g'.Square (sideOf v) ∧
      ∀ r < sideOf v, ∀ c < sideOf v, g'.get r c = placedModule v r c := by
  have hin := functionPlacements_inside h1 h2
  have hd := functionPlacements_disjoint h1 h2
  obtain ⟨s1, s2⟩ := overwriteAll_spec hg hin hd
  refine ⟨_, placeAll_eq hg hin hd (fun p hp => by rw [hb _ (hin p hp).1 _ (hin p hp).2]; rfl), s1, fun r hr c hc => ?_⟩
  rw [s2, placedModule_eq, hb r hr c hc]

/-! ### Zigzag (R297) -/

/-- A strip column the loop of R297 can be at: even from 6 on, odd below, or 0 when it has ended. -/
def StripStart (right : Nat) : Prop := (right % 2 = 0 ∧ 6 ≤ right) ∨ (right % 2 = 1 ∧ right ≤ 5) ∨ right = 0

/-- The strip columns: from the start down, at least two apart, none of them 6 or 7, and each column but 6 in a strip. -/
theorem stripColumns_spec (turns : Nat) : ∀ right, StripStart right → right ≤ turns →
    (∀ a ∈ stripColumns turns right, 1 ≤ a ∧ a ≤ right ∧ a ≠ 6 ∧ a ≠ 7) ∧
    (stripColumns turns right).Pairwise (fun a b => b + 2 ≤ a) ∧
    ∀ c ≤ right, 1 ≤ right → c ≠ 6 → ∃ a ∈ stripColumns turns right, c = a ∨ c = a - 1 := by
  unfold StripStart
  induction turns with
  | zero => intro right _ h; simp [stripColumns]; omega
  | succ turns ih =>
    intro right hs ht
    by_cases h0 : right < 1
    · rw [stripColumns, if_pos h0]; simp; omega
    · obtain ⟨a, ha, hform⟩ : ∃ a, a = (if right = 6 then 5 else right) ∧
          stripColumns (turns + 1) right = a :: stripColumns turns (a - 2) := by
        refine ⟨_, rfl, ?_⟩
        rw [stripColumns, if_neg h0]
      have haa : a = 5 ∧ right = 6 ∨ a = right ∧ right ≠ 6 := by split at ha <;> omega
      obtain ⟨i1, i2, i3⟩ := ih (a - 2) (by omega) (by omega)
      rw [hform]
      refine ⟨?_, List.pairwise_cons.2 ⟨fun b hb => by have := i1 b hb; omega, i2⟩, ?_⟩
      · intro b hb
        rcases List.mem_cons.1 hb with rfl | hb
        · omega
        · have := i1 b hb; omega
      · intro c hc _ h6
        by_cases hca : c = a ∨ c = a - 1
        · exact ⟨a, by simp, hca⟩
        · obtain ⟨b, hb, h⟩ := i3 c (by omega) (by omega) h6
          exact ⟨b, by simp [hb], h⟩

theorem stripColumns_side {v : Nat} (h1 : 1 ≤ v) :
    (∀ a ∈ stripColumns (sideOf v) (sideOf v - 1), 1 ≤ a ∧ a < sideOf v ∧ a ≠ 6 ∧ a ≠ 7) ∧
    (stripColumns (sideOf v) (sideOf v - 1)).Pairwise (fun a b => b + 2 ≤ a) ∧
    ∀ c < sideOf v, c ≠ 6 → ∃ a ∈ stripColumns (sideOf v) (sideOf v - 1), c = a ∨ c = a - 1 := by
  have hN : sideOf v = 4 * v + 17 := rfl
  obtain ⟨s1, s2, s3⟩ := stripColumns_spec (sideOf v) (sideOf v - 1) (.inl (by omega)) (by omega)
  refine ⟨fun a ha => ?_, s2, fun c hc h6 => s3 c (by omega) (by omega) h6⟩
  have := s1 a ha
  omega

theorem mem_stripModules {n right : Nat} {p : Nat × Nat} :
    p ∈ stripModules n right ↔ p.1 < n ∧ (p.2 = right ∨ p.2 = right - 1) := by
  obtain ⟨r, c⟩ := p
  simp only [stripModules, List.mem_flatMap, List.mem_range, List.mem_cons, List.not_mem_nil, or_false, Prod.mk.injEq]
  constructor
  · rintro ⟨vert, hv, h⟩
    split at h <;> omega
  · rintro ⟨hr, hc⟩
    by_cases hu : (right + 1) &&& 2 = 0
    · refine ⟨n - 1 - r, by omega, ?_⟩
      rw [if_pos hu]; omega
    · refine ⟨r, hr, ?_⟩
      rw [if_neg hu]; omega

theorem nodup_stripModules {n right : Nat} (h : 1 ≤ right) : (stripModules n right).Nodup := by
  rw [stripModules, List.nodup_flatMap]
  refine ⟨fun vert hv => by simp; omega, ?_⟩
  refine (List.nodup_range (n := n)).imp_of_mem ?_
  intro a b ha hb hab x hx hy
  simp only [List.mem_range] at ha hb
  simp only [List.mem_cons, List.not_mem_nil, or_false] at hx hy
  split at hx <;> split at hy <;> rcases hx with rfl | rfl <;> simp at hy <;> omega

/-- The zigzag visits every module outside column 6. -/
theorem mem_zigzagAll {v : Nat} (h1 : 1 ≤ v) {p : Nat × Nat} :
    p ∈ zigzagAll (sideOf v) ↔ p.1 < sideOf v ∧ p.2 < sideOf v ∧ p.2 ≠ 6 := by
  obtain ⟨s1, -, s3⟩ := stripColumns_side h1
  simp only [zigzagAll, List.mem_flatMap, mem_stripModules]
  constructor
  · rintro ⟨right, hr, h, hc⟩
    have := s1 right hr
    omega
  · rintro ⟨hr, hc, h6⟩
    obtain ⟨right, hmem, h⟩ := s3 p.2 hc h6
    exact ⟨right, hmem, hr, h⟩

/-- The zigzag visits no module twice. -/
theorem nodup_zigzagAll {v : Nat} (h1 : 1 ≤ v) : (zigzagAll (sideOf v)).Nodup := by
  obtain ⟨s1, s2, -⟩ := stripColumns_side h1
  rw [zigzagAll, List.nodup_flatMap]
  refine ⟨fun right hr => nodup_stripModules (s1 right hr).1, s2.imp_of_mem ?_⟩
  intro a b ha hb hab x hx hy
  rw [mem_stripModules] at hx hy
  have := s1 a ha
  have := s1 b hb
  omega

/-- Writing bits along a path without repeats: module k of the path gets bit k, the others are unchanged (R299). -/
theorem placeBits_spec {n : Nat} {g : Grid} (hg : g.Square n) {zs : List (Nat × Nat)} (hin : ∀ p ∈ zs, p.1 < n ∧ p.2 < n)
    (hd : zs.Nodup) (bs : List Bool) :
    Grid.Square n (placeBits g zs bs) ∧
    (∀ k, ∀ h : k < zs.length, (placeBits g zs bs).get zs[k].1 zs[k].2 = ⟨bs.getD k false, .data⟩) ∧
    ∀ r c, (r, c) ∉ zs → (placeBits g zs bs).get r c = g.get r c := by
  induction zs generalizing g bs with
  | nil => exact ⟨hg, fun k h => by simp at h, fun _ _ _ => rfl⟩
  | cons p zs ih =>
    have hp := hin p (by simp)
    have hne : p ∉ zs := (List.nodup_cons.1 hd).1
    obtain ⟨i1, i2, i3⟩ := ih (g := g.set p.1 p.2 ⟨bs.headD false, .data⟩) (Grid.square_set hg _ _ _)
      (fun q hq => hin q (by simp [hq])) (List.nodup_cons.1 hd).2 bs.tail
    have hform : placeBits g (p :: zs) bs = placeBits (g.set p.1 p.2 ⟨bs.headD false, .data⟩) zs bs.tail := by
      cases bs <;> rfl
    rw [hform]
    refine ⟨i1, fun k hk => ?_, fun r c hrc => ?_⟩
    · cases k with
      | zero =>
        rw [List.getElem_cons_zero, i3 _ _ hne, Grid.get_set hg hp.1 hp.2, if_pos ⟨rfl, rfl⟩]
        cases bs <;> rfl
      | succ k =>
        rw [List.getElem_cons_succ, i2 k (by simpa using hk)]
        cases bs <;> simp
    · simp only [List.mem_cons, not_or] at hrc
      rw [i3 _ _ hrc.2, Grid.get_set hg hp.1 hp.2, if_neg]
      rintro ⟨rfl, rfl⟩
      exact hrc.1 rfl

/-! ### Masks and the format write (R302, R331) -/

theorem applyMask_spec {n : Nat} {g : Grid} (hg : g.Square n) (m : Nat) :
    Grid.Square n (applyMask m g) ∧
    ∀ r < n, ∀ c < n, (applyMask m g).get r c = maskModule m r c (g.get r c) := by
  constructor
  · refine ⟨by simp [applyMask, hg.1], fun row hrow => ?_⟩
    obtain ⟨k, hk, rfl⟩ := List.mem_iff_getElem.1 hrow
    simp only [applyMask, List.getElem_mapIdx, List.length_mapIdx]
    exact hg.2 _ (List.getElem_mem _)
  · intro r hr c hc
    have hrl : r < g.length := by rw [hg.1]; exact hr
    have hcl : c < (g[r]).length := by rw [hg.2 _ (List.getElem_mem _)]; exact hc
    simp [Grid.get, applyMask, List.getD_eq_getElem?_getD, hrl, hcl]

/-- The 30 format modules, in the order of the format write. -/
def formatModules (n : Nat) : List (Nat × Nat) :=
  (List.range 15).flatMap fun i => [formatPos1 i, formatPos2 n i]

theorem formatPlacements_modules (n : Nat) (l : Level) (m : Nat) :
    (formatPlacements n l m).map (fun p => (p.row, p.col)) = formatModules n := by
  simp [formatPlacements, formatModules, List.map_flatMap]

theorem formatReservation_modules (n : Nat) :
    (formatReservation n).map (fun p => (p.row, p.col)) = formatModules n := by
  simp [formatReservation, formatModules, List.map_flatMap]

theorem formatModules_ok {v : Nat} (h1 : 1 ≤ v) (h2 : v ≤ 40) :
    (formatModules (sideOf v)).Nodup ∧ ∀ p ∈ formatModules (sideOf v), p.1 < sideOf v ∧ p.2 < sideOf v := by
  have sub : (formatReservation (sideOf v)).Sublist (functionPlacements v) :=
    ((List.sublist_cons_self _ _).trans (List.sublist_append_right _ _)).trans (List.sublist_append_left _ _)
  rw [← formatReservation_modules]
  constructor
  · rw [List.Nodup, List.pairwise_map]
    refine ((functionPlacements_disjoint h1 h2).sublist sub).imp fun h e => ?_
    simp only [Prod.mk.injEq] at e
    exact h e
  · intro p hp
    obtain ⟨q, hq, rfl⟩ := List.mem_map.1 hp
    exact functionPlacements_inside h1 h2 q (sub.subset hq)

theorem formatPlacements_disjoint {v : Nat} (h1 : 1 ≤ v) (h2 : v ≤ 40) (l : Level) (m : Nat) :
    (∀ p ∈ formatPlacements (sideOf v) l m, p.row < sideOf v ∧ p.col < sideOf v) ∧
    (formatPlacements (sideOf v) l m).Pairwise (fun p q => ¬ (p.row = q.row ∧ p.col = q.col)) := by
  obtain ⟨f1, f2⟩ := formatModules_ok h1 h2
  constructor
  · intro p hp
    exact f2 (p.row, p.col) (by rw [← formatPlacements_modules _ l m]; exact List.mem_map_of_mem hp)
  · rw [← formatPlacements_modules _ l m, List.Nodup, List.pairwise_map] at f1
    exact f1.imp fun h hc => h (by rw [hc.1, hc.2])

/-- A masked grid: the format modules hold the format word, the DATA modules elsewhere are inverted where the mask
holds, the others are unchanged (R331, R302). -/
theorem maskedGrid_spec {v : Nat} (h1 : 1 ≤ v) (h2 : v ≤ 40) (l : Level) (m : Nat) {g : Grid} (hg : g.Square (sideOf v)) :
    Grid.Square (sideOf v) (maskedGrid (sideOf v) l m g) ∧
    ∀ r < sideOf v, ∀ c < sideOf v, (maskedGrid (sideOf v) l m g).get r c =
      ((placedAt (formatPlacements (sideOf v) l m) r c).map Placement.mod).getD (maskModule m r c (g.get r c)) := by
  obtain ⟨a1, a2⟩ := applyMask_spec hg m
  obtain ⟨f1, f2⟩ := formatPlacements_disjoint h1 h2 l m
  obtain ⟨o1, o2⟩ := overwriteAll_spec a1 f1 f2
  exact ⟨o1, fun r hr c hc => by rw [maskedGrid, o2, a2 r hr c hc]⟩

end Sys2Proof.Machine
end

