-- ==== Sys2Proof/Laws/PerInstr.lean ====
section
/-! SUPPORT. The per-instruction family `OpcodeFits`: each command's opcode is one of the values of R111, and the opcode
map names the command at that opcode and its own immediate (30_encoding.md R110, R111). -/

/-- The statement of the family for one command. -/
def Sys2Proof.Laws.OpcodeFits.Statement (i : Sys2Proof.Instr) : Prop :=
  Sys2Proof.opcodeOf i ∈ Sys2Proof.opcodes ∧ Sys2Proof.commandOf (Sys2Proof.opcodeOf i) i.imm = some i

theorem Sys2Proof.Laws.OpcodeFits.nop : Sys2Proof.Laws.OpcodeFits.Statement .nop :=
  ⟨Sys2Proof.opcodeOf_mem _, Sys2Proof.commandOf_opcodeOf _⟩

theorem Sys2Proof.Laws.OpcodeFits.encode : Sys2Proof.Laws.OpcodeFits.Statement .encode :=
  ⟨Sys2Proof.opcodeOf_mem _, Sys2Proof.commandOf_opcodeOf _⟩

theorem Sys2Proof.Laws.OpcodeFits.gfMul : Sys2Proof.Laws.OpcodeFits.Statement .gfMul :=
  ⟨Sys2Proof.opcodeOf_mem _, Sys2Proof.commandOf_opcodeOf _⟩

theorem Sys2Proof.Laws.OpcodeFits.gfPow : Sys2Proof.Laws.OpcodeFits.Statement .gfPow :=
  ⟨Sys2Proof.opcodeOf_mem _, Sys2Proof.commandOf_opcodeOf _⟩

theorem Sys2Proof.Laws.OpcodeFits.gfLog : Sys2Proof.Laws.OpcodeFits.Statement .gfLog :=
  ⟨Sys2Proof.opcodeOf_mem _, Sys2Proof.commandOf_opcodeOf _⟩

theorem Sys2Proof.Laws.OpcodeFits.gfExp : Sys2Proof.Laws.OpcodeFits.Statement .gfExp :=
  ⟨Sys2Proof.opcodeOf_mem _, Sys2Proof.commandOf_opcodeOf _⟩

theorem Sys2Proof.Laws.OpcodeFits.vsel : Sys2Proof.Laws.OpcodeFits.Statement .vsel :=
  ⟨Sys2Proof.opcodeOf_mem _, Sys2Proof.commandOf_opcodeOf _⟩

theorem Sys2Proof.Laws.OpcodeFits.bsClear : Sys2Proof.Laws.OpcodeFits.Statement .bsClear :=
  ⟨Sys2Proof.opcodeOf_mem _, Sys2Proof.commandOf_opcodeOf _⟩

theorem Sys2Proof.Laws.OpcodeFits.bsAppend (x : Nat) : Sys2Proof.Laws.OpcodeFits.Statement (.bsAppend x) :=
  ⟨Sys2Proof.opcodeOf_mem _, Sys2Proof.commandOf_opcodeOf _⟩

theorem Sys2Proof.Laws.OpcodeFits.bsSeg (x : Nat) : Sys2Proof.Laws.OpcodeFits.Statement (.bsSeg x) :=
  ⟨Sys2Proof.opcodeOf_mem _, Sys2Proof.commandOf_opcodeOf _⟩

theorem Sys2Proof.Laws.OpcodeFits.bsFinish : Sys2Proof.Laws.OpcodeFits.Statement .bsFinish :=
  ⟨Sys2Proof.opcodeOf_mem _, Sys2Proof.commandOf_opcodeOf _⟩

theorem Sys2Proof.Laws.OpcodeFits.rsGen : Sys2Proof.Laws.OpcodeFits.Statement .rsGen :=
  ⟨Sys2Proof.opcodeOf_mem _, Sys2Proof.commandOf_opcodeOf _⟩

theorem Sys2Proof.Laws.OpcodeFits.rsEnc : Sys2Proof.Laws.OpcodeFits.Statement .rsEnc :=
  ⟨Sys2Proof.opcodeOf_mem _, Sys2Proof.commandOf_opcodeOf _⟩

theorem Sys2Proof.Laws.OpcodeFits.ileave : Sys2Proof.Laws.OpcodeFits.Statement .ileave :=
  ⟨Sys2Proof.opcodeOf_mem _, Sys2Proof.commandOf_opcodeOf _⟩

theorem Sys2Proof.Laws.OpcodeFits.mxInit : Sys2Proof.Laws.OpcodeFits.Statement .mxInit :=
  ⟨Sys2Proof.opcodeOf_mem _, Sys2Proof.commandOf_opcodeOf _⟩

theorem Sys2Proof.Laws.OpcodeFits.mxFunc : Sys2Proof.Laws.OpcodeFits.Statement .mxFunc :=
  ⟨Sys2Proof.opcodeOf_mem _, Sys2Proof.commandOf_opcodeOf _⟩

theorem Sys2Proof.Laws.OpcodeFits.mxPlace : Sys2Proof.Laws.OpcodeFits.Statement .mxPlace :=
  ⟨Sys2Proof.opcodeOf_mem _, Sys2Proof.commandOf_opcodeOf _⟩

theorem Sys2Proof.Laws.OpcodeFits.bchFmt (x : Nat) : Sys2Proof.Laws.OpcodeFits.Statement (.bchFmt x) :=
  ⟨Sys2Proof.opcodeOf_mem _, Sys2Proof.commandOf_opcodeOf _⟩

theorem Sys2Proof.Laws.OpcodeFits.bchVer (x : Nat) : Sys2Proof.Laws.OpcodeFits.Statement (.bchVer x) :=
  ⟨Sys2Proof.opcodeOf_mem _, Sys2Proof.commandOf_opcodeOf _⟩

theorem Sys2Proof.Laws.OpcodeFits.maskEval (x : Nat) : Sys2Proof.Laws.OpcodeFits.Statement (.maskEval x) :=
  ⟨Sys2Proof.opcodeOf_mem _, Sys2Proof.commandOf_opcodeOf _⟩

theorem Sys2Proof.Laws.OpcodeFits.maskSelect : Sys2Proof.Laws.OpcodeFits.Statement .maskSelect :=
  ⟨Sys2Proof.opcodeOf_mem _, Sys2Proof.commandOf_opcodeOf _⟩

theorem Sys2Proof.Laws.OpcodeFits.maskApply (x : Nat) : Sys2Proof.Laws.OpcodeFits.Statement (.maskApply x) :=
  ⟨Sys2Proof.opcodeOf_mem _, Sys2Proof.commandOf_opcodeOf _⟩
end

