-- ==== Sys2Proof/Laws/Segments.lean ====
section
/-! SUPPORT. The laws of segments and of version selection (41_segments_version.md): the descriptor layout, the check of
characters, the search for a version, and the sizes of the capacity table. -/

namespace Sys2Proof.Machine

open Sys2Proof

/-! ### The descriptor layout (R171) -/

theorem leValue_four (a b c d : Byte) :
    leValue [a, b, c, d] = a.toNat + 256 * b.toNat + 65536 * c.toNat + 16777216 * d.toNat := by
  simp only [leValue]
  omega

theorem bytes_four (s : State) (h : s.mem.wf) (g : Region) (i : Nat) :
    s.bytes g i 4 = [s.buf g i, s.buf g (i + 1), s.buf g (i + 2), s.buf g (i + 3)] := by
  rw [State.bytes_eq_map_buf s h]
  rfl

theorem leValue_four_lt (a b c d : Byte) : leValue [a, b, c, d] < 2 ^ 32 := by
  have := a.isLt; have := b.isLt; have := c.isLt; have := d.isLt
  rw [leValue_four]
  omega

/-- Word 0 of descriptor i is SEGTAB[8i .. 8i+3], little-endian. -/
theorem descriptor_word0_toNat (s : State) (h : s.mem.wf) (i : Nat) : (s.descriptor i).word0.toNat =
    (s.buf .segtab (8 * i)).toNat + 256 * (s.buf .segtab (8 * i + 1)).toNat +
      65536 * (s.buf .segtab (8 * i + 2)).toNat + 16777216 * (s.buf .segtab (8 * i + 3)).toNat := by
  rw [State.descriptor, bytes_four s h, bytes_four s h, BitVec.toNat_ofNat, Nat.mod_eq_of_lt (leValue_four_lt ..),
    leValue_four]

/-- Word 1 of descriptor i is SEGTAB[8i+4 .. 8i+7], little-endian. -/
theorem descriptor_word1_toNat (s : State) (h : s.mem.wf) (i : Nat) : (s.descriptor i).word1.toNat =
    (s.buf .segtab (8 * i + 4)).toNat + 256 * (s.buf .segtab (8 * i + 5)).toNat +
      65536 * (s.buf .segtab (8 * i + 6)).toNat + 16777216 * (s.buf .segtab (8 * i + 7)).toNat := by
  rw [State.descriptor, bytes_four s h, bytes_four s h, BitVec.toNat_ofNat, Nat.mod_eq_of_lt (leValue_four_lt ..),
    leValue_four]

theorem descriptor_mode_eq (d : Descriptor) : d.mode =
    if d.word0.toNat % 4 = 0 then .numeric else if d.word0.toNat % 4 = 1 then .alphanumeric
    else if d.word0.toNat % 4 = 2 then .byte else .kanji := by
  have h : (d.word0.extractLsb' 0 2).toNat = d.word0.toNat % 4 := by simp
  have h4 : d.word0.toNat % 4 < 4 := Nat.mod_lt _ (by decide)
  rw [Descriptor.mode, Mode.ofBits, h]
  match d.word0.toNat % 4, h4 with
  | 0, _ => rfl
  | 1, _ => rfl
  | 2, _ => rfl
  | 3, _ => rfl

theorem descriptor_reserved_eq (d : Descriptor) : d.reserved = d.word0.toNat / 4 := by
  have := d.word0.isLt
  simp only [Descriptor.reserved, BitVec.extractLsb'_toNat, Nat.shiftRight_eq_div_pow]
  omega

theorem descriptor_start_eq (d : Descriptor) : d.start = d.word1.toNat % 65536 := by simp [Descriptor.start]

theorem descriptor_len_eq (d : Descriptor) : d.len = d.word1.toNat / 65536 := by
  have := d.word1.isLt
  simp only [Descriptor.len, BitVec.extractLsb'_toNat, Nat.shiftRight_eq_div_pow]
  omega

/-! ### Characters -/

theorem segmentInfo_eq (i : Nat) {j : Nat} (hj : j < 65536) : segmentInfo i j = i * 65536 + j := by
  rw [segmentInfo, Nat.shiftLeft_eq, Nat.mul_comm, ← Nat.two_pow_add_eq_or_of_lt (show j < 2 ^ 16 by omega)]

theorem findIdx?_eq_none_of {α : Type} {p : α → Bool} {l : List α} (h : ∀ j (hj : j < l.length), p l[j] = false) :
    l.findIdx? p = none := by
  rw [List.findIdx?_eq_none_iff]
  intro x hx
  obtain ⟨j, hj, rfl⟩ := List.mem_iff_getElem.1 hx
  exact h j hj

theorem findIdx?_eq_some_of {α : Type} {p : α → Bool} {l : List α} {j : Nat} (hj : j < l.length) (h : p l[j] = true)
    (h2 : ∀ k (hk : k < j), p l[k] = false) : l.findIdx? p = some j := by
  rw [List.findIdx?_eq_some_iff_getElem]
  exact ⟨hj, h, fun k hk => by simp [h2 k hk]⟩

@[simp] theorem kanjiCodes_length : ∀ l : List Byte, (kanjiCodes l).length = l.length / 2
  | [] => rfl
  | [_] => by simp [kanjiCodes]
  | a :: b :: r => by simp [kanjiCodes, kanjiCodes_length r]; omega

theorem kanjiCodes_getElem? : ∀ (l : List Byte) (j : Nat), 2 * j + 1 < l.length →
    (kanjiCodes l)[j]? = some ((l.getD (2 * j) 0).toNat * 256 + (l.getD (2 * j + 1) 0).toNat)
  | [], j, h => by simp at h
  | [_], j, h => by simp at h
  | a :: b :: r, 0, h => rfl
  | a :: b :: r, j + 1, h => by
    rw [kanjiCodes, List.getElem?_cons_succ, kanjiCodes_getElem? r j (by simp at h; omega)]
    rfl

/-- The 45 characters of R175 as a string. -/
def alnumCharacters : List Nat := "0123456789ABCDEFGHIJKLMNOPQRSTUVWXYZ $%*+-./:".toList.map Char.toNat

theorem alnumValue_isNone_all : ∀ n, n < 256 →
    ((alnumValue (BitVec.ofNat 8 n)).isNone = decide (n ∉ alnumCharacters)) := by
  decide +kernel

theorem alnumValue_isNone (b : Byte) : (alnumValue b).isNone = decide (b.toNat ∉ alnumCharacters) := by
  have := alnumValue_isNone_all b.toNat b.isLt
  rwa [BitVec.ofNat_toNat, BitVec.setWidth_eq] at this

theorem isKanji_pair (a b : Byte) : isKanji (a.toNat * 256 + b.toNat) =
    ((decide (0x8140 ≤ a.toNat * 256 + b.toNat ∧ a.toNat * 256 + b.toNat ≤ 0x9FFC) ||
      decide (0xE040 ≤ a.toNat * 256 + b.toNat ∧ a.toNat * 256 + b.toNat ≤ 0xEBBF)) &&
    decide (0x40 ≤ b.toNat ∧ b.toNat ≤ 0xFC ∧ b.toNat ≠ 0x7F)) := by
  have : (a.toNat * 256 + b.toNat) % 256 = b.toNat := by have := b.isLt; omega
  rw [isKanji, this]
  simp [Bool.and_assoc, Bool.decide_and]

/-- The character at offset j is bad for a mode (R174), as a test on the byte values. -/
def badCharacter (mode : Mode) (byte : Nat → Nat) (j : Nat) : Bool :=
  match mode with
  | .numeric => !(decide (0x30 ≤ byte j) && decide (byte j ≤ 0x39))
  | .alphanumeric => decide (byte j ∉ alnumCharacters)
  | .byte => false
  | .kanji => decide (j % 2 = 0) &&
      !((decide (0x8140 ≤ byte j * 256 + byte (j + 1) ∧ byte j * 256 + byte (j + 1) ≤ 0x9FFC) ||
          decide (0xE040 ≤ byte j * 256 + byte (j + 1) ∧ byte j * 256 + byte (j + 1) ≤ 0xEBBF)) &&
        decide (0x40 ≤ byte (j + 1) ∧ byte (j + 1) ≤ 0xFC ∧ byte (j + 1) ≠ 0x7F))

/-- The first bad offset is the least j whose character is bad. -/
theorem firstBadOffset_spec (mode : Mode) (chars : List Byte) (hev : mode = .kanji → chars.length % 2 = 0) :
    let bad := badCharacter mode fun j => (chars.getD j 0).toNat
    (∀ j, j < chars.length → bad j = true → (∀ k, k < j → bad k = false) → firstBadOffset mode chars = some j) ∧
    ((∀ j, j < chars.length → bad j = false) → firstBadOffset mode chars = none) := by
  have gd : ∀ j (hj : j < chars.length), chars[j] = chars.getD j 0 := by intro j hj; simp [List.getD, hj]
  cases mode with
  | numeric =>
    refine ⟨fun j hj h1 h2 => findIdx?_eq_some_of hj ?_ fun k hk => ?_, fun h => findIdx?_eq_none_of fun j hj => ?_⟩
    · rw [gd]; exact h1
    · rw [gd]; exact h2 k hk
    · rw [gd]; exact h j hj
  | alphanumeric =>
    refine ⟨fun j hj h1 h2 => findIdx?_eq_some_of hj ?_ fun k hk => ?_, fun h => findIdx?_eq_none_of fun j hj => ?_⟩
    · rw [gd, alnumValue_isNone]; exact h1
    · rw [gd, alnumValue_isNone]; exact h2 k hk
    · rw [gd, alnumValue_isNone]; exact h j hj
  | byte => exact ⟨fun j hj h => by simp [badCharacter] at h, fun _ => rfl⟩
  | kanji =>
    have hev := hev rfl
    have kc : ∀ j (hj : j < (kanjiCodes chars).length),
        (kanjiCodes chars)[j] = (chars.getD (2 * j) 0).toNat * 256 + (chars.getD (2 * j + 1) 0).toNat := by
      intro j hj
      have h := kanjiCodes_getElem? chars j (by rw [kanjiCodes_length] at hj; omega)
      rw [List.getElem?_eq_getElem hj] at h
      exact Option.some.inj h
    refine ⟨fun j hj h1 h2 => ?_, fun h => ?_⟩
    · simp only [badCharacter, Bool.and_eq_true, decide_eq_true_eq] at h1
      have hj2 : j / 2 < (kanjiCodes chars).length := by rw [kanjiCodes_length]; omega
      have : (kanjiCodes chars).findIdx? (fun w => !isKanji w) = some (j / 2) := by
        refine findIdx?_eq_some_of hj2 ?_ fun k hk => ?_
        · rw [kc, isKanji_pair, show 2 * (j / 2) = j by omega]; exact h1.2
        · rw [kc, isKanji_pair]
          simpa [badCharacter] using h2 (2 * k) (by omega)
      rw [firstBadOffset, this]
      simp; omega
    · have : (kanjiCodes chars).findIdx? (fun w => !isKanji w) = none := by
        refine findIdx?_eq_none_of fun k hk => ?_
        rw [kc, isKanji_pair]
        simpa [badCharacter] using h (2 * k) (by rw [kanjiCodes_length] at hk; omega)
      rw [firstBadOffset, this]; rfl

@[simp] theorem State.segmentBytes_length (s : State) (d : Descriptor) : (s.segmentBytes d).length = d.len := by
  simp [State.segmentBytes]

theorem State.segmentBytes_getD {s : State} (hm : s.mem.wf) (d : Descriptor) {j : Nat} (hj : j < d.len) :
    (s.segmentBytes d).getD j 0 = s.buf .inbuf (d.start + j) := by
  rw [State.segmentBytes, State.bytes_eq_map_buf s hm]
  simp [List.getD, hj]

/-! ### The search for a version -/

theorem searchVersion_ok {ds : List Descriptor} {lvl : Level} {v : Nat} (pre post : List Nat)
    (h1 : ∀ u ∈ pre, acceptable ds lvl u = false) (h2 : acceptable ds lvl v = true) (last : Nat) :
    searchVersion ds lvl (pre ++ v :: post) last = .ok v := by
  induction pre generalizing last with
  | nil => rw [List.nil_append, searchVersion, if_pos h2]
  | cons p pre ih =>
    rw [List.cons_append, searchVersion, if_neg (by simp [h1 p (by simp)])]
    exact ih (fun u hu => h1 u (by simp [hu])) _

theorem searchVersion_error {ds : List Descriptor} {lvl : Level} {vs : List Nat}
    (h : ∀ u ∈ vs, acceptable ds lvl u = false) (last : Nat) :
    searchVersion ds lvl vs last =
      .error (raise .dataTooLong (min ((vs.getLast?.map (totalBits ds)).getD last) (2 ^ 32 - 1))) := by
  induction vs generalizing last with
  | nil => rfl
  | cons w ws ih =>
    rw [searchVersion, if_neg (by simp [h w (by simp)]), ih (fun u hu => h u (by simp [hu]))]
    cases hl : ws.getLast? with
    | none => rw [List.getLast?_eq_none_iff] at hl; subst hl; rfl
    | some x => rw [List.getLast?_cons, hl]; rfl

theorem searchVersion_mem {ds : List Descriptor} {lvl : Level} {vs : List Nat} {last v : Nat}
    (h : searchVersion ds lvl vs last = .ok v) : v ∈ vs ∧ acceptable ds lvl v = true := by
  induction vs generalizing last with
  | nil => cases h
  | cons w ws ih =>
    rw [searchVersion] at h
    split at h
    · next ha => cases h; exact ⟨by simp, ha⟩
    · obtain ⟨h1, h2⟩ := ih h
      exact ⟨by simp [h1], h2⟩

theorem State.totalBits_descriptors (s : State) (v : Nat) : totalBits s.descriptors v = s.bitsAt v := by
  simp [totalBits, State.bitsAt, State.descriptors, Function.comp_def]

theorem State.acceptable_iff (s : State) (v : Nat) :
    acceptable s.descriptors (.ofBits s.operand.cfgLevel) v = true ↔ s.Acceptable v := by
  rw [acceptable, State.totalBits_descriptors]
  simp only [Bool.and_eq_true, List.all_eq_true, decide_eq_true_eq, State.Acceptable, State.descriptors, segFits]
  simp

theorem State.checkSegments_ok {s : State} {is : List Nat} (h : ∀ i ∈ is, s.checkSegment i = .ok ()) :
    s.checkSegments is = .ok () := by
  induction is with
  | nil => rfl
  | cons i is ih =>
    rw [State.checkSegments, h i (by simp)]
    exact ih fun j hj => h j (by simp [hj])

theorem State.checkSegments_of_ok {s : State} {is : List Nat} (h : s.checkSegments is = .ok ()) :
    ∀ i ∈ is, s.checkSegment i = .ok () := by
  induction is with
  | nil => simp
  | cons i is ih =>
    rw [State.checkSegments] at h
    split at h
    · cases h
    · next hi =>
      intro j hj
      rcases List.mem_cons.1 hj with rfl | hj
      · exact hi
      · exact ih h j hj

theorem State.checkSegments_error {s : State} {pre post : List Nat} {i : Nat} {e : CommandError}
    (h : ∀ j ∈ pre, s.checkSegment j = .ok ()) (hi : s.checkSegment i = .error e) :
    s.checkSegments (pre ++ i :: post) = .error e := by
  induction pre with
  | nil => rw [List.nil_append, State.checkSegments, hi]
  | cons j pre ih =>
    rw [List.cons_append, State.checkSegments, h j (by simp)]
    exact ih fun k hk => h k (by simp [hk])

theorem range_split {n i : Nat} (h : i < n) :
    List.range n = List.range i ++ i :: List.range' (i + 1) (n - (i + 1)) := by
  have e := List.range'_append_1 (s := 0) (m := i) (n := n - i)
  rw [show i + (n - i) = n by omega] at e
  rw [List.range_eq_range', List.range_eq_range', ← e, Nat.zero_add, show n - i = (n - (i + 1)) + 1 by omega,
    List.range'_succ]

/-- The versions vsel examines. -/
theorem State.mem_versionCandidates (s : State) (h : s.operand.cfgVersion.toNat ≤ 40) (v : Nat) :
    v ∈ versionCandidates s.operand.cfgVersion.toNat ↔ s.Candidate v := by
  unfold versionCandidates State.Candidate
  split
  · next h => simp [h]; omega
  · next h => simp; omega

/-- When NSEG and CFG_VERSION are legal and every segment passes, vsel searches. -/
theorem State.chooseVersion_eq_search {s : State} (h1 : s.operand.nseg.toNat ≤ 16) (h2 : s.operand.cfgVersion.toNat ≤ 40)
    (h3 : ∀ i, i < s.operand.nseg.toNat → s.checkSegment i = .ok ()) :
    s.chooseVersion = searchVersion s.descriptors (.ofBits s.operand.cfgLevel)
      (versionCandidates s.operand.cfgVersion.toNat) 0 := by
  have e1 : s.checkNseg = .ok () := by rw [State.checkNseg, Config.nsegMax, if_neg (by omega)]
  have e2 : s.checkCfgVersion = .ok () := by rw [State.checkCfgVersion, Config.vMax, if_neg (by omega)]
  have e3 := State.checkSegments_ok (s := s) (is := List.range s.operand.nseg.toNat) (by simpa using h3)
  rw [State.chooseVersion]
  simp only [e1, e2, e3]

/-- What holds when vsel chooses a version. -/
theorem State.chooseVersion_ok {s : State} {v : Nat} (h : s.chooseVersion = .ok v) :
    s.operand.nseg.toNat ≤ 16 ∧ s.operand.cfgVersion.toNat ≤ 40 ∧
      (∀ i, i < s.operand.nseg.toNat → s.checkSegment i = .ok ()) ∧ s.Candidate v ∧ s.Acceptable v := by
  unfold State.chooseVersion at h
  split at h
  · cases h
  split at h
  · cases h
  split at h
  · cases h
  next hn _ hc _ hs =>
    have h1 : s.operand.nseg.toNat ≤ 16 := by
      by_cases hx : Config.nsegMax < s.operand.nseg.toNat
      · rw [State.checkNseg, if_pos hx] at hn; cases hn
      · rw [Config.nsegMax] at hx; omega
    have h2 : s.operand.cfgVersion.toNat ≤ 40 := by
      by_cases hx : Config.vMax < s.operand.cfgVersion.toNat
      · rw [State.checkCfgVersion, if_pos hx] at hc; cases hc
      · rw [Config.vMax] at hx; omega
    obtain ⟨h4, h5⟩ := searchVersion_mem h
    exact ⟨h1, h2, fun i hi => State.checkSegments_of_ok hs i (by simpa using hi), (s.mem_versionCandidates h2 v).1 h4,
      (s.acceptable_iff v).1 h5⟩

/-! ### The sizes of the capacity table -/

theorem sizes_all : ∀ v, v ≤ 40 → dataCodewords v .L < 4096 ∧ dataCodewords v .M < 4096 ∧ dataCodewords v .Q < 4096 ∧
    dataCodewords v .H < 4096 ∧ totalCodewords v < 4096 ∧ sideOf v < 256 := by decide +kernel

/-- DATA_CW, TOTAL_CW and N fit their registers. -/
theorem sizes_lt {v : Nat} (h : v ≤ 40) (l : Level) :
    dataCodewords v l < 4096 ∧ totalCodewords v < 4096 ∧ sideOf v < 256 := by
  have := sizes_all v h
  cases l <;> tauto

/-- The symbol registers after vsel has chosen a version (R181). -/
theorem State.selectVersion_registers {s : State} {v : Nat} (h : v ≤ 40) (ha : s.Acceptable v) :
    (s.selectVersion v).result.version.toNat = v ∧
    (s.selectVersion v).result.level = s.operand.cfgLevel ∧
    (s.selectVersion v).result.size.toNat = sideOf v ∧
    (s.selectVersion v).result.dataCw.toNat = dataCodewords v (.ofBits s.operand.cfgLevel) ∧
    (s.selectVersion v).result.totalCw.toNat = totalCodewords v ∧
    (s.selectVersion v).result.reqBits.toNat = s.bitsAt v := by
  obtain ⟨d1, d2, d3⟩ := sizes_lt h (.ofBits s.operand.cfgLevel)
  have hreq := ha.2
  refine ⟨?_, rfl, ?_, ?_, ?_, ?_⟩
  · show (BitVec.ofNat 6 v).toNat = v
    rw [BitVec.toNat_ofNat, Nat.mod_eq_of_lt (by omega)]
  · show (BitVec.ofNat 8 (sideOf v)).toNat = _
    rw [BitVec.toNat_ofNat, Nat.mod_eq_of_lt (by omega)]
  · show (BitVec.ofNat 12 _).toNat = _
    rw [BitVec.toNat_ofNat, Nat.mod_eq_of_lt (by omega)]
  · show (BitVec.ofNat 12 _).toNat = _
    rw [BitVec.toNat_ofNat, Nat.mod_eq_of_lt (by omega)]
  · show (BitVec.ofNat 16 _).toNat = _
    rw [BitVec.toNat_ofNat, State.totalBits_descriptors, Nat.mod_eq_of_lt (by omega)]

end Sys2Proof.Machine
end

