-- ==== Sys2Proof/Laws/Step.lean ====
section
/-! SUPPORT. What a step is, event by event (10_state.md R30, 60_exceptions.md R400), and which accesses are bus errors
(20_memory.md R82, R84). -/

namespace Sys2Proof.Machine

open Sys2Proof

/-- An access is a bus error when it is misaligned, or narrower than a word in the register block. -/
theorem accessError_iff (a : Addr) (n : Width) :
    accessError a n = true ↔ a.toNat % n.bytes ≠ 0 ∨ (a.toNat < 0x100 ∧ n ≠ .four) := by
  simp [accessError]

theorem accessError_false_iff (a : Addr) (n : Width) :
    accessError a n = false ↔ a.toNat % n.bytes = 0 ∧ (a.toNat < 0x100 → n = .four) := by
  rw [Bool.eq_false_iff, Ne, accessError_iff]
  push Not
  rfl

theorem step_read {s : State} {a : Addr} {n : Width} {rest : List BusEvent} (h : s.inbox = .read a n :: rest) :
    step s = if accessError a n then .fault (.busError a n)
      else .next (({ s with inbox := rest } : State).busRead a n) := by
  rw [step, h]; rfl

theorem step_write {s : State} {a : Addr} {n : Width} {v : Word} {rest : List BusEvent}
    (h : s.inbox = .write a n v :: rest) :
    step s = if accessError a n then .fault (.busError a n)
      else .next (({ s with inbox := rest } : State).busWrite a n v) := by
  rw [step, h]; rfl

theorem step_engine {s : State} {rest : List BusEvent} (h : s.inbox = .engine :: rest) :
    step s = engineTurn { s with inbox := rest } := by
  rw [step, h]; rfl

theorem step_nil {s : State} (h : s.inbox = []) : step s = engineTurn s := by
  rw [step, h]

theorem step_hardReset {s : State} {rest : List BusEvent} (h : s.inbox = .hardReset :: rest) :
    step s = .next ((({ s with inbox := rest } : State).resetKeepingRam).setPort none) := by
  rw [step, h]; rfl

theorem step_powerOn {s : State} {rest : List BusEvent} (h : s.inbox = .powerOn :: rest) :
    step s = .next ((({ s with inbox := rest } : State).powerOn).setPort none) := by
  rw [step, h]; rfl

/-- The engine's turn runs the command the latched word decodes to. -/
theorem engineTurn_ok {s : State} {w : Word} {i : Instr} (hl : s.latch = some w) (hd : decode w = .ok i) :
    engineTurn s = exec i s := by
  rw [engineTurn, hl]; simp only [hd]

/-- An illegal word completes with ILLEGAL_COMMAND. -/
theorem engineTurn_error {s : State} {w : Word} {r : IllegalReason} (hl : s.latch = some w)
    (hd : decode w = .error r) : engineTurn s = .next (s.completeError { kind := .illegalCommand, info := w }) := by
  rw [engineTurn, hl]; simp only [hd]; rfl

theorem engineTurn_none {s : State} (hl : s.latch = none) : engineTurn s = .next s := by
  rw [engineTurn, hl]

/-- A host write that is no bus error, by what it reaches (R86, R88, R90). -/
theorem busWrite_cases (s : State) (a : Addr) (n : Width) (v : Word) :
    s.busWrite a n v =
      if s.busy = true ∧ writableWhileBusy a.toNat = false then { s.setPort none with ovr := true }
      else if a.toNat < 0x100 then (s.writeRegister a.toNat v).setPort none
      else (s.writeBytes a.toNat (writtenBytes n v)).setPort none := by
  simp [State.busWrite]

theorem writtenBytes_length (n : Width) (v : Word) : (writtenBytes n v).length = n.bytes := by
  simp [writtenBytes]

end Sys2Proof.Machine
end

