-- ==== Sys2Proof/Tests/Slice0.lean ====
section
/-! SUPPORT. The model's own tests, each by evaluation: the well-formedness smoke tests, every command's word written out
bit by bit, one-step tests with the values of spec/95_test_vectors.md (a vector's number stands in the docstring), and
for every statement with hypotheses a state that meets them. -/

namespace Sys2Proof.Tests

open Sys2Proof Sys2Proof.Machine

set_option Elab.async false -- one theorem at a time: the evaluations below need memory of their own

/-! ### Helpers -/

/-- A field of the next state. -/
def after {α : Type} (o : Host.Outcome State Fault Refusal) (f : State → α) : Option α :=
  match o with
  | .next s => some (f s)
  | .fault _ => none
  | .refused _ => none

/-- ERRCODE and ERRINFO of a state that ended with an error. -/
def errorOf (s : State) : Bool × Byte × Word := (s.err, s.errCode, s.errInfo)

/-- A state with chosen operand registers, result registers, phase and memory, the rest as after reset. -/
def small (o : OperandRegs) (r : ResultRegs) (p : Phase) (m : Memory) : State :=
  { State.reset with operand := o, result := r, phase := p, mem := m }

/-- The reset state with events to come. -/
def idle (es : List BusEvent) : State := { State.reset with inbox := es }

/-- The reset state with a command word in flight and events to come. -/
def inFlight (w : Word) (es : List BusEvent) : State := { State.reset with latch := some w, inbox := es }

/-- The phase with the first k of V, F, C, M, P, D, K set. -/
def stage (k : Nat) : Phase :=
  { v := decide (1 ≤ k), f := decide (2 ≤ k), c := decide (3 ≤ k), m := decide (4 ≤ k), p := decide (5 ≤ k),
    d := decide (6 ≤ k), k := decide (7 ≤ k) }

/-- The symbol registers of version 1 at a level, with DATA_CW and BITLEN given. -/
def version1 (l : BitVec 2) (dataCw : BitVec 12) (len : BitVec 16) : ResultRegs :=
  { ResultRegs.reset with version := 1, level := l, size := 21, dataCw := dataCw, totalCw := 26, bitLen := len }

/-- One segment over the given characters, at a level, with a forced version or none. -/
def oneSegment (mode : Byte) (chars : List Byte) (level : BitVec 2) (version : BitVec 6) (r : ResultRegs) (p : Phase) :
    State :=
  small { OperandRegs.reset with nseg := 1, cfgLevel := level, cfgVersion := version } r p
    (cellsFrom 0x400 [mode, 0, 0, 0, 0, 0, BitVec.ofNat 8 chars.length, 0] ++ cellsFrom 0x1000 chars)

/-- "HELLO WORLD" (V-SRC-4). -/
def helloWorld : List Byte := [0x48, 0x45, 0x4C, 0x4C, 0x4F, 0x20, 0x57, 0x4F, 0x52, 0x4C, 0x44]

/-- The codewords of "HELLO WORLD" at 1-Q: 13 data codewords, then 13 EC codewords (V-SRC-4). -/
def helloCodewords : List Byte :=
  [32, 91, 11, 120, 209, 114, 220, 77, 67, 64, 236, 17, 236, 168, 72, 22, 82, 217, 54, 156, 0, 46, 15, 180, 122, 16]

/-- Segment 0 of INBUF as KANJI 0x935F 0xE4AA (V-BS-6). -/
def kanjiPair : List Byte := [0x93, 0x5F, 0xE4, 0xAA]

/-! A 21×21 symbol as 21 rows, each a hexadecimal number whose digits are the row's MX bytes (R70): 2 and 3 FUNCTION light
and dark, 4 and 5 DATA, 6 RESERVED, 0 EMPTY. -/

/-- Version 1 after MX_FUNC: the role map of R303. -/
def funcMap : List Nat :=
  [0x333333326000023333333, 0x322222326000023222223, 0x323332326000023233323, 0x323332326000023233323,
   0x323332326000023233323, 0x322222326000023222223, 0x333333323232323333333, 0x222222226000022222222,
   0x666666366000066666666, 0x000000200000000000000, 0x000000300000000000000, 0x000000200000000000000,
   0x000000300000000000000, 0x222222223000000000000, 0x333333326000000000000, 0x322222326000000000000,
   0x323332326000000000000, 0x323332326000000000000, 0x323332326000000000000, 0x322222326000000000000,
   0x333333326000000000000]

/-- "HELLO WORLD" at 1-Q after MX_PLACE, before masking: the colours of V-SRC-4, the roles of R303. -/
def beforeMask : List Nat :=
  [0x333333326554523333333, 0x322222326544423222223, 0x323332326455423233323, 0x323332326545423233323,
   0x323332326444523233323, 0x322222326555423222223, 0x333333323232323333333, 0x222222226545422222222,
   0x666666366454466666666, 0x444545255454454555455, 0x544555355544544445545, 0x445554244554444444544,
   0x445444344445444544444, 0x222222223444455545555, 0x333333326444545555445, 0x322222326444555444454,
   0x323332326444544545454, 0x323332326444444445444, 0x323332326455554555544, 0x322222326554544544445,
   0x333333326455554554544]

/-- The final matrix of "HELLO WORLD" at 1-Q: the colours of V-SRC-4, the roles of R303 and R302. -/
def finalMatrix : List Nat :=
  [0x333333322445423333333, 0x322222323544523222223, 0x323332322545523233323, 0x323332323555523233323,
   0x323332323545423233323, 0x322222322544523222223, 0x333333323232323333333, 0x222222223545522222222,
   0x232333323544533233232, 0x545555254444555545554, 0x445454354445445544444, 0x545545244545544455444,
   0x554555355554555455555, 0x222222223444544545444, 0x333333322554455445555, 0x322222323454454454555,
   0x323332323545445444555, 0x323332323455544454544, 0x323332322544445444455, 0x322222323554455544554,
   0x333333322545444444454]

/-- The MX bytes of a row. -/
def rowBytes (row : Nat) : List Byte := (List.range 21).map fun c => BitVec.ofNat 8 (row / 16 ^ (20 - c) % 16)

/-- The MX cells of a 21×21 symbol. -/
def matrix1 (rows : List Nat) : Memory := rows.zipIdx.flatMap fun x => cellsFrom (0x8000 + 177 * x.2) (rowBytes x.1)

/-- A 21×21 symbol after MX_INIT. -/
def initialised : State :=
  small .reset (version1 2 13 104) (stage 4)
    ((List.range 21).flatMap fun r => cellsFrom (0x8000 + 177 * r) (List.replicate 21 0))

/-- A 21×21 symbol after MX_FUNC, with the codewords of "HELLO WORLD" in FCW. -/
def patterned : State :=
  small .reset (version1 2 13 104) (stage 5) (cellsFrom 0x4000 helloCodewords ++ matrix1 funcMap)

/-- A 21×21 symbol after MX_PLACE with "HELLO WORLD" at 1-Q. -/
def dataPlaced : State := small .reset (version1 2 13 104) (stage 6) (matrix1 beforeMask)

/-! ### Well-formedness: an ill-formed term for each check is refused -/

theorem test_wellformed_refuses :
    ¬ (Instr.bsAppend 256).WellFormed ∧ ¬ (Instr.bsSeg 256).WellFormed ∧ ¬ (Instr.bchFmt 256).WellFormed ∧
    ¬ (Instr.bchVer 256).WellFormed ∧ ¬ (Instr.maskEval 256).WellFormed ∧ ¬ (Instr.maskApply 256).WellFormed := by decide

theorem test_immlegal_refuses :
    ¬ (Instr.bsAppend 0).ImmLegal ∧ ¬ (Instr.bsAppend 33).ImmLegal ∧ ¬ (Instr.bsSeg 16).ImmLegal ∧
    ¬ (Instr.bchFmt 64).ImmLegal ∧ ¬ (Instr.bchFmt 8).ImmLegal ∧ ¬ (Instr.bchVer 6).ImmLegal ∧
    ¬ (Instr.bchVer 41).ImmLegal ∧ ¬ (Instr.maskEval 8).ImmLegal ∧ ¬ (Instr.maskApply 8).ImmLegal := by
  simp [Instr.ImmLegal, Instr.immClass, Instr.imm]

/-! ### Decoding: RSV (16 bits), IMM (8 bits), OPC (8 bits), from R110 and the opcode map R111 -/

theorem test_decode_control :
    decode 0b0000000000000000_00000000_00000000 = .ok .nop ∧
    decode 0b0000000000000000_00000000_00000001 = .ok .encode := by decide

theorem test_decode_gf :
    decode 0b0000000000000000_00000000_00010000 = .ok .gfMul ∧
    decode 0b0000000000000000_00000000_00010001 = .ok .gfPow ∧
    decode 0b0000000000000000_00000000_00010010 = .ok .gfLog ∧
    decode 0b0000000000000000_00000000_00010011 = .ok .gfExp := by decide

theorem test_decode_segments :
    decode 0b0000000000000000_00000000_00100000 = .ok .vsel := by decide

theorem test_decode_bitstream :
    decode 0b0000000000000000_00000000_00110000 = .ok .bsClear ∧
    decode 0b0000000000000000_00001101_00110001 = .ok (.bsAppend 13) ∧
    decode 0b0000000000000000_00000010_00110010 = .ok (.bsSeg 2) ∧
    decode 0b0000000000000000_00000000_00110011 = .ok .bsFinish := by decide

theorem test_decode_ecc :
    decode 0b0000000000000000_00000000_01000000 = .ok .rsGen ∧
    decode 0b0000000000000000_00000000_01000001 = .ok .rsEnc := by decide

theorem test_decode_interleave :
    decode 0b0000000000000000_00000000_01000010 = .ok .ileave := by decide

theorem test_decode_matrix :
    decode 0b0000000000000000_00000000_01010000 = .ok .mxInit ∧
    decode 0b0000000000000000_00000000_01010001 = .ok .mxFunc ∧
    decode 0b0000000000000000_00000000_01010010 = .ok .mxPlace ∧
    decode 0b0000000000000000_00010101_01010011 = .ok (.bchFmt 21) ∧
    decode 0b0000000000000000_00000111_01010100 = .ok (.bchVer 7) := by decide

theorem test_decode_mask :
    decode 0b0000000000000000_00000110_01100000 = .ok (.maskEval 6) ∧
    decode 0b0000000000000000_00000000_01100001 = .ok .maskSelect ∧
    decode 0b0000000000000000_00000011_01100010 = .ok (.maskApply 3) := by decide

/-- V-ENC-2: illegal words, the word in ERRINFO (P5). -/
theorem test_decode_illegal :
    decode 0x80000000 = .error .reservedField ∧ decode 0x00000101 = .error .immediateNotZero ∧
    decode 0x00000002 = .error .unknownOpcode ∧ decode 0x000000FF = .error .unknownOpcode ∧
    after (step (inFlight 0x00010010 [])) errorOf = some (true, 0x20, 0x00010010) := by decide

/-! ### One step of each command -/

/-- V-ENC-4. -/
theorem test_nop : after (exec .nop { State.reset with irqEn := true }) (fun s => (s.done, s.irq)) = some (true, true) := by
  decide

/-- P1. -/
theorem test_gf_mul :
    after (exec .gfMul (small { OperandRegs.reset with gfA := 0x53, gfB := 0xCA } .reset .reset []))
      (·.result.gfR) = some 0x8F := by decide

/-- P1. -/
theorem test_gf_pow :
    after (exec .gfPow (small { OperandRegs.reset with gfA := 0x53, gfE := 254 } .reset .reset []))
      (·.result.gfR) = some 0x8C := by decide

/-- P1. -/
theorem test_gf_log :
    after (exec .gfLog (small { OperandRegs.reset with gfA := 0x53 } .reset .reset [])) (·.result.gfR) = some 206 := by
  decide

/-- P5. -/
theorem test_gf_log_zero : after (exec .gfLog State.reset) errorOf = some (true, 0x10, 0) := by decide

/-- P1. -/
theorem test_gf_exp :
    after (exec .gfExp (small { OperandRegs.reset with gfA := 206 } .reset .reset [])) (·.result.gfR) = some 0x53 := by
  decide

/-- V-VS-12. -/
theorem test_vsel :
    after (exec .vsel (oneSegment 1 helloWorld 3 0 .reset .reset))
      (fun s => (s.result.version, s.result.reqBits, s.result.dataCw, s.result.totalCw)) = some (2, 74, 16, 44) := by
  decide +kernel

/-- P5: "12A4" as NUMERIC. -/
theorem test_vsel_bad_digit :
    after (exec .vsel (oneSegment 0 [0x31, 0x32, 0x41, 0x34] 0 0 .reset .reset)) errorOf = some (true, 0x03, 2) := by
  decide +kernel

/-- R202. -/
theorem test_bs_clear :
    after (exec .bsClear (small .reset (version1 0 19 77) (stage 3) [(0x3000, 0xFF), (0x3FFF, 0xFF)]))
      (fun s => (s.result.bitLen, s.phase.f, s.buf .dcw 4095)) = some (0, false, 0) := by decide +kernel

/-- V-BS-1. -/
theorem test_bs_append :
    after (exec (.bsAppend 4) (small { OperandRegs.reset with bsValue := 2 } (version1 1 16 0) (stage 1) [(0x3000, 0)]))
      (fun s => (s.result.bitLen, s.buf .dcw 0)) = some (4, 0x20) := by decide +kernel

/-- V-BS-9. -/
theorem test_bs_append_full :
    after (exec (.bsAppend 3) (small .reset (version1 0 19 150) (stage 1) [])) errorOf = some (true, 0x02, 153) := by
  decide

/-- V-BS-6. -/
theorem test_bs_seg :
    after (exec (.bsSeg 0) { oneSegment 3 kanjiPair 1 0 (version1 1 16 0) (stage 1) with
        mem := (oneSegment 3 kanjiPair 1 0 .reset .reset).mem ++ cellsFrom 0x3000 [0, 0, 0, 0, 0] })
      (fun s => (s.result.bitLen, s.bytes .dcw 0 5)) = some (38, [0x80, 0x26, 0xCF, 0xEA, 0xA8]) := by decide +kernel

/-- P6: the stream of V-BS-6, 38 bits, finished at 1-M. -/
theorem test_bs_finish :
    after (exec .bsFinish (small .reset (version1 1 16 38) (stage 1)
        (cellsFrom 0x3000 ([0x80, 0x26, 0xCF, 0xEA, 0xA8] ++ List.replicate 11 0))))
      (fun s => (s.result.bitLen, s.bytes .dcw 0 16)) =
      some (128, [128, 38, 207, 234, 168, 0, 236, 17, 236, 17, 236, 17, 236, 17, 236, 17]) := by decide +kernel

/-- V-RS-2. -/
theorem test_rs_gen :
    after (exec .rsGen (small { OperandRegs.reset with rsDeg := 13 } .reset .reset [])) (·.bytes .genb 0 16) =
      some [1, 137, 73, 227, 17, 177, 17, 52, 13, 46, 43, 83, 132, 120, 0, 0] := by decide +kernel

/-- P2. -/
theorem test_rs_enc :
    after (exec .rsEnc (small { OperandRegs.reset with rsDeg := 13, rsLen := 13 } .reset .reset
        (cellsFrom 0x3000 (helloCodewords.take 13)))) (·.bytes .ecb 0 14) =
      some [168, 72, 22, 82, 217, 54, 156, 0, 46, 15, 180, 122, 16, 0] := by decide +kernel

/-- V-IL-1. -/
theorem test_ileave :
    after (exec .ileave (small .reset
        { ResultRegs.reset with version := 5, level := 2, size := 37, dataCw := 62, totalCw := 134, bitLen := 496 }
        (stage 2) (cellsFrom 0x3000 ((List.range 62).map (BitVec.ofNat 8)))))
      (fun s => (s.bytes .fcw 0 6, s.bytes .fcw 56 14)) =
      some ([0, 15, 30, 46, 1, 16], [14, 29, 44, 60, 45, 61, 130, 85, 18, 68, 32, 216, 2, 224]) := by decide +kernel

/-- R282, R39. -/
theorem test_mx_init :
    after (exec .mxInit (small .reset (version1 0 19 0) (stage 6) [(0x8000, 7)])) (fun s => (s.phase, s.buf .mx 0)) =
      some ({ Phase.reset with v := true, f := true, c := true, m := true }, 0) := by decide +kernel

/-- R303: the role map of version 1. -/
theorem test_mx_func : after (exec .mxFunc initialised) (·.mem) = some (matrix1 funcMap) := by decide +kernel

/-- V-SRC-4: the matrix before masking. -/
theorem test_mx_place :
    after (exec .mxPlace patterned) (·.mem) = some (cellsFrom 0x4000 helloCodewords ++ matrix1 beforeMask) := by
  decide +kernel

/-- R119, V-SRC-4: `bch.fmt Q, 6` gives 0x2EDA. -/
theorem test_bch_fmt : after (exec (.bchFmt 0x26) State.reset) (·.result.bchR) = some 0x2EDA := by decide

/-- R303: verWord(7); P5: version 6 has none. -/
theorem test_bch_ver :
    after (exec (.bchVer 7) State.reset) (·.result.bchR) = some 0x07C94 ∧
    after (exec (.bchVer 6) State.reset) errorOf = some (true, 0x21, 6) := by decide

/-- V-SRC-4: the score of mask 6. -/
theorem test_mask_eval :
    after (exec (.maskEval 6) dataPlaced)
      (fun s => [s.result.penN1, s.result.penN2, s.result.penN3, s.result.penN4, s.result.penDark, s.result.penalty[6]]) =
      some [172, 102, 40, 0, 230, 314] := by decide +kernel

/-- V-SRC-4: the penalty of the last mask, and the mask the eight totals choose; the lowest number among equals (R338). -/
theorem test_mask_select :
    after (exec .maskSelect dataPlaced) (·.result.penalty[7]) = some 558 ∧
    selectMask ([347, 470, 506, 441, 539, 516, 314, 558].map fun x => ⟨x, 0, 0, 0, 0⟩) = 6 ∧
    selectMask ([5, 3, 4, 3].map fun x => ⟨x, 0, 0, 0, 0⟩) = 1 := by decide +kernel

/-- V-SRC-4: the final matrix. -/
theorem test_mask_apply : after (exec (.maskApply 6) dataPlaced) (·.mem) = some (matrix1 finalMatrix) := by
  decide +kernel

/-- P3: "HELLO WORLD" at Q in one command. -/
theorem test_encode :
    after (exec .encode (oneSegment 1 helloWorld 2 0 .reset .reset))
      (fun s => (s.result.version, s.result.reqBits, s.result.bitLen, s.phase.word)) = some (1, 74, 104, 0x7F) := by
  decide +kernel

/-! ### The bus and reset -/

/-- V-BUS-1, V-BUS-2, V-BUS-5. -/
theorem test_bus_reads :
    after (step (idle [.read 0x000 .four])) (·.port) = some (some 0x51524531) ∧
    after (step (idle [.read 0x108 .two])) (·.port) = some (some 0x3A1D) ∧
    after (step (idle [.read 0x203 .one])) (·.port) = some (some 25) ∧
    after (step (idle [.read 0x000 .one])) (·.port) = none := by decide

/-- V-BUS-7, V-BUS-8. -/
theorem test_bus_writes :
    after (step (inFlight 0 [.write 0x038 .four 5])) (fun s => (s.statusWord, s.operand.nseg)) = some (9, 0) ∧
    after (step (idle [.write 0x004 .four 3])) (fun s => (s.ctrlWord, s.phase.word)) = some (0, 0) := by decide

/-! ### For every statement with hypotheses, states and operands that meet them

A clause of a statement that has hypotheses of its own has its witness in the same theorem, at a boundary of its range. -/

theorem test_witness_StepKeepsInvariant :
    (idle [.write 0x00C .four 0x50]).Inv ∧
      after (step (idle [.write 0x00C .four 0x50])) (·.latch) = some (some 0x50) :=
  ⟨⟨by decide, by decide, by decide, by decide, by decide, nofun, nofun⟩, by decide⟩

theorem test_witness_StepRunsLatchedCommand :
    (inFlight 0x00000D31 []).latch = some 0x00000D31 ∧ (inFlight 0x00000D31 []).inbox = [] ∧
    (inFlight 0x00000D31 [.engine, .powerOn]).inbox = .engine :: [.powerOn] ∧
    decode 0x00000D31 = .ok (.bsAppend 13) := by decide

theorem test_witness_CmdWriteIssuesCommand :
    (idle [.write 0x00C .four 0x10]).inbox = [.write 0x00C .four 0x10] ∧
    (idle [.write 0x00C .four 0x10]).busy = false ∧ (inFlight 0x20 [.write 0x00C .four 0x10]).busy = true := by decide

theorem test_witness_IllegalWordCompletes :
    (∀ i, decode 0x00000014 ≠ .ok i) ∧ (idle [.write 0x00C .four 0x14, .engine]).busy = false ∧
    (idle [.write 0x00C .four 0x14, .engine]).inbox = .write 0x00C .four 0x14 :: .engine :: [] :=
  ⟨fun _ => (by intro h; cases h), by decide, by decide⟩

theorem test_witness_DecodeOfEncode :
    (Instr.bsAppend 255).WellFormed ∧ (Instr.maskApply 0).WellFormed ∧ Instr.nop.WellFormed := by decide

theorem test_witness_EncodeOfDecode :
    decode 0x0000FF62 = .ok (.maskApply 255) ∧ decode 0x00000061 = .ok .maskSelect ∧
    Instr.maskSelect.immClass = .none := by decide

theorem test_witness_RegisterBlockBusErrors :
    (idle [.read 0x0FC .two]).inbox = [.read 0x0FC .two] ∧ (0x0FC : Addr).toNat < 0x100 ∧ Width.two ≠ .four ∧
    (0x0FE : Addr).toNat < 0x100 ∧ (0x0FE : Addr).toNat % 4 ≠ 0 ∧ (0x0FC : Addr).toNat % 4 = 0 ∧
    0x100 ≤ (0x101 : Addr).toNat ∧ (0x101 : Addr).toNat % Width.two.bytes ≠ 0 ∧
    (0x100 : Addr).toNat % Width.four.bytes = 0 ∧ (0xFFFC : Addr).toNat % Width.four.bytes = 0 := by decide

theorem test_witness_AccessWhileBusy :
    (inFlight 0 [.read 0x008 .four]).busy = true ∧ accessError 0x008 .four = false ∧ accessError 0x009 .one = true ∧
    (0x008 : Addr).toNat ∈ [0x000, 0x004, 0x008] ∧ (0x00C : Addr).toNat ∉ [0x000, 0x004, 0x008] ∧
    accessError 0x00C .four = false ∧ (0x000 : Addr).toNat ∉ [0x004, 0x008] ∧ accessError 0x004 .four = false := by
  decide

theorem test_witness_HostAccessIsLittleEndian :
    (idle [.read 0xFFFC .four]).busy = false ∧ 0x100 ≤ (0x100 : Addr).toNat ∧ (0xFFFC : Addr).toNat % Width.four.bytes = 0 ∧
    (idle [.write 0x2FFE .two 0x1234]).MemoryOk ∧ (0x2FFE : Addr).toNat % Width.two.bytes = 0 := by decide

theorem test_witness_OperandRegisterWrites :
    ((0x048 : Addr).toNat, 12) ∈ [(0x020, 8), (0x024, 8), (0x028, 8), (0x030, 2), (0x034, 6), (0x038, 5), (0x03C, 32),
      (0x040, 8), (0x044, 8), (0x048, 12)] ∧
    (idle [.write 0x048 .four 0xFFFFFFFF]).busy = false := by decide

theorem test_witness_ReadOnlyWritesAreIgnored :
    (idle [.write 0x4000 .four 1]).busy = false ∧ accessError 0x4000 .four = false ∧ accessError 0x0BC .four = false ∧
    (0x0BC : Addr).toNat ∉ [0x004, 0x008, 0x00C, 0x020, 0x024, 0x028, 0x030, 0x034, 0x038, 0x03C, 0x040, 0x044, 0x048] ∧
    ¬ (0x400 ≤ (0x480 : Addr).toNat ∧ (0x480 : Addr).toNat < 0x480) ∧
    ¬ (0x1000 ≤ (0x4000 : Addr).toNat ∧ (0x4000 : Addr).toNat < 0x4000) ∧
    0x340 < 0x400 ∧ 0xFA61 ≤ 0xFA61 ∧ 0x09C ∈ [0x01C, 0x084, 0x088, 0x08C, 0x090, 0x094, 0x098, 0x09C] := by decide

theorem test_witness_StatusIsWriteOneToClear :
    (inFlight 0 [.write 0x008 .four 0xE]).inbox = [.write 0x008 .four 0xE] := by decide

theorem test_witness_SoftReset :
    (inFlight 0x01 [.write 0x004 .four 3]).inbox = [.write 0x004 .four 3] ∧ (3 : Word).toNat / 2 % 2 = 1 ∧
    (1 : Word).toNat / 2 % 2 = 0 := by decide

theorem test_witness_HardResetAndPowerOn :
    (inFlight 0x50 [.powerOn]).inbox = [.powerOn] ∧ (idle [.hardReset]).inbox = [.hardReset] ∧
    (idle [.hardReset]).latch = none ∧ (inFlight 0x50 [.hardReset]).inbox = [.hardReset] ∧
    (inFlight 0x50 [.hardReset]).latch = some 0x50 := by decide

/-- A phase that fails, and one that meets, each prerequisite of R448. -/
theorem test_witness_SequencePrerequisites :
    ((stage 2).v && !(stage 2).f) = false ∧ ((stage 1).v && !(stage 1).f) = true ∧ (stage 1).f = false ∧
    (stage 2).f = true ∧ (stage 0).v = false ∧ ((stage 5).m && !(stage 5).p) = false ∧
    ((stage 4).m && !(stage 4).p) = true ∧ ((stage 6).p && (stage 6).c && !(stage 6).d) = false ∧
    ((stage 5).p && (stage 5).c && !(stage 5).d) = true ∧ ((stage 7).d && !(stage 7).k) = false ∧
    ((stage 6).d && !(stage 6).k) = true ∧ State.reset.errCode = 0 := by decide

theorem test_witness_ImmediateRanges :
    (stage 1).canBuild = true ∧ 32 < 33 ∧
    (oneSegment 0 [] 0 0 .reset (stage 1)).operand.nseg.toNat ≤ 1 ∧ 64 / 64 ≠ 0 ∧ 8 / 8 % 2 = 1 ∧ 6 < 7 ∧ 40 < 41 ∧
    (stage 6).canMask = true ∧ 7 < 8 := by decide

theorem test_witness_GfLogAndExp :
    State.reset.operand.gfA = 0 ∧ (1 : Byte) ≠ 0 ∧ (small { OperandRegs.reset with gfA := 255 } .reset .reset []).operand.gfA ≠ 0 := by
  decide

/-- The last descriptor: reserved bits; one byte past INBUF; an odd KANJI length; a bad digit at offset 1; a good digit. -/
theorem test_witness_SegmentCheck :
    let cell : List Byte → Nat → Nat := fun bs k =>
      ((small .reset .reset .reset (cellsFrom 0x478 bs)).buf .segtab (8 * 15 + k)).toNat
    let s : State := small .reset .reset .reset (cellsFrom 0x478 [0, 0, 0, 0, 0, 0, 2, 0] ++ cellsFrom 0x1000 [0x39, 0x3A])
    15 < 16 ∧ cell [4, 0, 0, 0, 0, 0, 0, 0] 0 / 4 ≠ 0 ∧
    (cell [0, 0, 0, 0, 0, 0x20, 1, 0] 0 / 4 = 0 ∧
      8192 < 256 * cell [0, 0, 0, 0, 0, 0x20, 1, 0] 5 + cell [0, 0, 0, 0, 0, 0x20, 1, 0] 6) ∧
    (cell [3, 0, 0, 0, 0, 0, 3, 0] 0 % 4 = 3 ∧ cell [3, 0, 0, 0, 0, 0, 3, 0] 6 % 2 = 1) ∧
    (s.MemoryOk ∧ (s.buf .segtab 120).toNat % 4 = 0 ∧ (s.buf .segtab 126).toNat = 2 ∧ (s.buf .inbuf 0).toNat ≤ 0x39 ∧
      0x39 < (s.buf .inbuf 1).toNat) := by decide +kernel

/-- "HELLO WORLD" at level H needs version 2 (V-VS-12). -/
theorem test_witness_VselChoosesLeastVersion :
    let s := oneSegment 1 helloWorld 3 0 .reset .reset
    s.operand.nseg.toNat ≤ 16 ∧ s.operand.cfgVersion.toNat ≤ 40 ∧
    (∀ i, i < s.operand.nseg.toNat → s.checkSegment i = .ok ()) ∧ s.Candidate 2 ∧ s.Acceptable 2 ∧
    (∀ u, s.Candidate u → u < 2 → ¬ s.Acceptable u) := by
  refine ⟨by decide +kernel, by decide +kernel, by decide +kernel, by decide +kernel, by decide +kernel, ?_⟩
  intro u h hu
  obtain rfl : u = 1 := by have := h.1; omega
  decide +kernel

/-- NSEG = 17; CFG_VERSION = 41; "12A4" as NUMERIC; "HELLO WORLD" at level H, version 1 (P5). -/
theorem test_witness_VselErrors :
    (16 < (17 : BitVec 5).toNat ∧ 40 < (41 : BitVec 6).toNat) ∧
    (oneSegment 0 [0x31, 0x32, 0x41, 0x34] 0 0 .reset .reset).checkSegment 0 = .error (raise .invalidMode 2) ∧
    (oneSegment 1 helloWorld 3 1 .reset .reset).checkSegment 0 = .ok () ∧
    (∀ v, (oneSegment 1 helloWorld 3 1 .reset .reset).Candidate v →
      ¬ (oneSegment 1 helloWorld 3 1 .reset .reset).Acceptable v) := by
  refine ⟨by decide, by decide +kernel, by decide +kernel, ?_⟩
  intro v h
  obtain rfl : v = 1 := h.2.2.resolve_left (by decide)
  decide +kernel

theorem test_witness_BsClearEmptiesBuffer :
    (small .reset (version1 0 19 8) (stage 1) [(0x3FFF, 1)]).MemoryOk := by decide

/-- At 1-L, 152 bits: one bit too many, and exactly the capacity (V-BS-9). -/
theorem test_witness_BsAppendAppendsBits :
    let s := small .reset (version1 0 19 150) (stage 1) [(0x3000, 1)]
    s.MemoryOk ∧ s.phase.v = true ∧ s.phase.f = false ∧ 8 * s.result.dataCw.toNat < s.result.bitLen.toNat + 3 ∧
    s.result.bitLen.toNat + 2 ≤ 8 * s.result.dataCw.toNat := by decide

/-- Two KANJI characters; two digits; one ALPHANUMERIC character of the set; one byte. -/
theorem test_witness_SerialisedSegment :
    ((⟨3, 0x00040000⟩ : Descriptor).mode = .kanji ∧ kanjiPair.length = (⟨3, 0x00040000⟩ : Descriptor).len ∧
      (⟨3, 0x00040000⟩ : Descriptor).len % 2 = 0) ∧
    ((⟨0, 0x00020000⟩ : Descriptor).mode = .numeric ∧ [0x31, 0x32].length = (⟨0, 0x00020000⟩ : Descriptor).len ∧ 2 % 3 = 2) ∧
    ((⟨1, 0x00010000⟩ : Descriptor).mode = .alphanumeric ∧ [0x41].length = (⟨1, 0x00010000⟩ : Descriptor).len ∧
      0x41 ∈ "0123456789ABCDEFGHIJKLMNOPQRSTUVWXYZ $%*+-./:".toList.map Char.toNat) ∧
    ((⟨2, 0x00010000⟩ : Descriptor).mode = .byte ∧ [0xFF].length = (⟨2, 0x00010000⟩ : Descriptor).len) := by decide +kernel

/-- NSEG = 17; a bad character; a BYTE count of 256 at version 1; one bit past the capacity; exactly the capacity. -/
theorem test_witness_BsSegAppendsSegment :
    let s : BitVec 16 → State := fun len => oneSegment 3 kanjiPair 1 0 (version1 1 16 len) (stage 1)
    (16 < (17 : BitVec 5).toNat) ∧
    (oneSegment 0 [0x3A] 0 0 (version1 1 16 0) (stage 1)).checkSegment 0 = .error (raise .invalidMode 0) ∧
    2 ^ cciWidth .byte 1 ≤ (⟨2, 0x01000000⟩ : Descriptor).count ∧
    ((s 91).MemoryOk ∧ (s 91).phase.v = true ∧ (s 91).phase.f = false ∧ (s 91).checkSegment 0 = .ok () ∧
      0 < (s 91).operand.nseg.toNat ∧ (s 91).operand.nseg.toNat ≤ 16) ∧
    ((s 91).descriptor 0).count < 2 ^ cciWidth ((s 91).descriptor 0).mode 1 ∧
    8 * (s 91).result.dataCw.toNat < (s 91).result.bitLen.toNat + segBits ((s 91).descriptor 0) 1 ∧
    (s 90).result.bitLen.toNat + segBits ((s 90).descriptor 0) 1 ≤ 8 * (s 90).result.dataCw.toNat := by decide +kernel

theorem test_witness_BsFinishFillsCapacity :
    let s : BitVec 16 → State := fun len => small .reset (version1 0 19 len) (stage 1) []
    (s 153).MemoryOk ∧ (s 153).phase.v = true ∧ (s 153).phase.f = false ∧
    8 * (s 153).result.dataCw.toNat < (s 153).result.bitLen.toNat ∧
    (s 152).result.bitLen.toNat ≤ 8 * (s 152).result.dataCw.toNat := by decide

theorem test_witness_RsGenWritesGenerator :
    State.reset.MemoryOk ∧ (0 : Byte).toNat < 1 ∧ 30 < (31 : Byte).toNat ∧ 1 ≤ (1 : Byte).toNat ∧
    (30 : Byte).toNat ≤ 30 := by decide

theorem test_witness_RsEncMakesCodeword :
    let s : State := small { OperandRegs.reset with rsDeg := 30, rsLen := 225, rsSrc := 3871 } .reset .reset [(0x3FFF, 5)]
    s.MemoryOk ∧ 1 ≤ s.operand.rsDeg.toNat ∧ s.operand.rsDeg.toNat ≤ 30 ∧ 1 ≤ s.operand.rsLen.toNat ∧
    s.operand.rsLen.toNat ≤ 255 - s.operand.rsDeg.toNat ∧ s.operand.rsSrc.toNat + s.operand.rsLen.toNat ≤ 4096 ∧
    255 - s.operand.rsDeg.toNat < (226 : Byte).toNat ∧ 4096 < (3872 : BitVec 12).toNat + s.operand.rsLen.toNat ∧
    30 < (31 : Byte).toNat := by decide

/-- Version 5 at Q has two short and two long blocks; version 1 at L one block. -/
theorem test_witness_InterleavePositions :
    (List.replicate 62 (0 : Byte)).length = dataCodewords 5 .Q ∧ (List.replicate 19 (0 : Byte)).length = dataCodewords 1 .L ∧
    numBlocks 5 .Q = 4 ∧ totalCodewords 5 % numBlocks 5 .Q = 2 ∧ 0 < numBlocks 1 .L := by decide +kernel

theorem test_witness_IleaveWritesFinalSequence :
    let s := small .reset (version1 2 13 104) (stage 2) (cellsFrom 0x3000 (helloCodewords.take 13))
    s.MemoryOk ∧ s.phase.Ok ∧ s.SymbolOk ∧ s.phase.f = true := by decide +kernel

theorem test_witness_MxInitClearsMatrix :
    State.reset.phase.v = false ∧
    (small .reset (version1 0 19 0) (stage 6) [(0xFA60, 7)]).MemoryOk ∧
    (small .reset (version1 0 19 0) (stage 6) [(0xFA60, 7)]).phase.v = true := by decide

/-- The grid of a 21×21 symbol from the bytes of the map of R303. -/
def roleGrid (f : Byte → Module) : Grid := (funcMap.map rowBytes).map (·.map f)

theorem placedModule_version1 :
    ((List.range 21).map fun r => (List.range 21).map fun c => placedModule 1 r c) = roleGrid .ofByte := by
  decide +kernel

theorem funcMap_rows : ∀ row ∈ funcMap.map rowBytes, row.length = 21 ∧ ∀ x ∈ row, x = 3 ∨ x = 2 ∨ x = 6 ∨ x = 0 := by
  have h : ((funcMap.map rowBytes).all fun row => decide (row.length = 21) &&
      row.all fun x => decide (x = 3 ∨ x = 2 ∨ x = 6 ∨ x = 0)) = true := by decide +kernel
  simpa only [List.all_eq_true, Bool.and_eq_true, decide_eq_true_eq] using h

/-- A state of version 1 at stage k that holds a grid. -/
def holding (k : Nat) (f : Byte → Module) : State :=
  (small .reset (version1 2 13 104) (stage k) []).setGrid (roleGrid f)

/-- Such a state has canonical memory, and its matrix is at stage k if the module of each kind is. -/
theorem holding_ok (k : Nat) (f : Byte → Module)
    (hf : ∀ x : Byte, x = 3 ∨ x = 2 ∨ x = 6 ∨ x = 0 → ModuleOk (stage k) (.ofByte x) (f x)) :
    (holding k f).MemoryOk ∧ (holding k f).MatrixOk ∧
      (holding k f).result = version1 2 13 104 ∧ (holding k f).phase = stage k := by
  have hm : (small .reset (version1 2 13 104) (stage k) []).MemoryOk :=
    ⟨⟨List.Pairwise.nil, nofun⟩, nofun⟩
  have hg : Grid.Square 21 (roleGrid f) := by
    refine ⟨by simp [roleGrid, funcMap], fun row hrow => ?_⟩
    obtain ⟨x, hx, rfl⟩ := List.mem_map.1 hrow
    rw [List.length_map]
    exact (funcMap_rows _ hx).1
  have hn : (small .reset (version1 2 13 104) (stage k) []).side ≤ 177 := by
    rw [show (small .reset (version1 2 13 104) (stage k) []).side = 21 from rfl]; decide
  refine ⟨State.memoryOk_setGrid hm hn hg, ?_, rfl, rfl⟩
  intro _ r hr c hc
  have hr' : r < (funcMap.map rowBytes).length := hr
  have hrow := funcMap_rows _ (List.getElem_mem hr')
  have hc' : c < ((funcMap.map rowBytes)[r]).length := hrow.1 ▸ hc
  have get (h : Byte → Module) : (roleGrid h).get r c = h ((funcMap.map rowBytes)[r][c]) := by
    rw [roleGrid, Grid.get, List.getD, List.getD, List.getElem?_map, List.getElem?_eq_getElem hr', Option.map_some,
      Option.getD_some, List.getElem?_map, List.getElem?_eq_getElem hc']
    rfl
  have hp : placedModule 1 r c = .ofByte ((funcMap.map rowBytes)[r][c]) := by
    rw [← get .ofByte, ← placedModule_version1]
    have h1 : r < 21 := hr
    have h2 : c < 21 := hc
    simp [Grid.get, List.getD, h1, h2]
  rw [holding, State.moduleAt_setGrid hm hn hg hr hc, get]
  exact (congrArg (fun q => ModuleOk (stage k) q _) hp).mpr (hf _ (hrow.2 _ (List.getElem_mem hc')))

theorem symbolOk_version1 {s : State} (hr : s.result = version1 2 13 104) : s.phase.v = true → s.SymbolOk := by
  intro hp
  simp only [State.SymbolOk, State.level, State.capacity, hr, hp]
  decide

/-- A 21×21 symbol after MX_INIT. -/
theorem test_witness_MxFuncPlacesPatterns :
    ∃ s : State, s.MemoryOk ∧ s.phase.Ok ∧ s.SymbolOk ∧ s.MatrixOk ∧ s.phase.m = true ∧ s.phase.p = false := by
  obtain ⟨hm, hx, hr, hp⟩ := holding_ok 4 (fun _ => .blank) (by
    rintro x (rfl | rfl | rfl | rfl) <;> decide)
  exact ⟨_, hm, hp ▸ (by decide), symbolOk_version1 hr (by rw [hp]; decide), hx, by rw [hp]; decide⟩

/-- A 21×21 symbol after MX_FUNC. -/
theorem test_witness_MxPlaceFillsMatrix :
    ∃ s : State, s.MemoryOk ∧ s.phase.Ok ∧ s.SymbolOk ∧ s.MatrixOk ∧ s.phase.p = true ∧ s.phase.c = true ∧ s.phase.d = false := by
  obtain ⟨hm, hx, hr, hp⟩ := holding_ok 5 .ofByte (by
    rintro x (rfl | rfl | rfl | rfl) <;> decide)
  exact ⟨_, hm, hp ▸ (by decide), symbolOk_version1 hr (by rw [hp]; decide), hx, by rw [hp]; decide⟩

/-- A 21×21 symbol after MX_PLACE, all its DATA modules light; the same state serves mask.eval, mask.apply and
mask.select. -/
theorem test_witness_MaskApplyMasksMatrix :
    ∃ s : State, s.MemoryOk ∧ s.phase.Ok ∧ s.SymbolOk ∧ s.MatrixOk ∧ s.phase.d = true ∧ s.phase.k = false := by
  obtain ⟨hm, hx, hr, hp⟩ := holding_ok 6 (fun x => .ofByte (if x = 0 then 4 else x)) (by
    rintro x (rfl | rfl | rfl | rfl) <;> decide)
  exact ⟨_, hm, hp ▸ (by decide), symbolOk_version1 hr (by rw [hp]; decide), hx, by rw [hp]; decide⟩

theorem test_witness_BchFmtComputesFormatWord :
    0x37 / 64 = 0 ∧ 0x37 / 8 % 2 = 0 ∧ 0x40 / 64 ≠ 0 ∧ 0x08 / 8 % 2 ≠ 0 ∧ 255 < 256 := by decide

theorem test_witness_BchVerComputesVersionWord : 7 ≤ 7 ∧ 40 ≤ 40 ∧ 6 < 7 ∧ 40 < 41 := by decide

theorem test_witness_RawModuleCount : 1 ≤ 1 ∧ 7 ≤ 40 ∧ 40 ≤ 40 := by decide

/-- The matrix after MX_PLACE, mask numbers up to 7. -/
theorem test_witness_MaskEvalReportsScore : ∃ s : State, ∃ m : Fin 8, m.val = 7 ∧ s.MemoryOk ∧ s.phase.Ok ∧ s.SymbolOk ∧
    s.phase.d = true ∧ s.phase.k = false :=
  have ⟨s, hm, hp, hy, _, h⟩ := test_witness_MaskApplyMasksMatrix
  ⟨s, 7, rfl, hm, hp, hy, h⟩

theorem test_witness_MaskSelectChoosesLeastPenalty : ∃ s : State, s.phase.Ok ∧ s.SymbolOk ∧ s.phase.d = true ∧
    s.phase.k = false :=
  have ⟨s, _, hp, hy, _, h⟩ := test_witness_MaskApplyMasksMatrix
  ⟨s, hp, hy, h⟩

theorem test_witness_RunPenalty :
    (∀ x ∈ [(true, 7), (false, 5), (true, 4)], 1 ≤ x.2) ∧
    [(true, 7), (false, 5), (true, 4)].IsChain (fun x y => x.1 ≠ y.1) := by decide

theorem test_witness_BlockPenalty :
    [[true, true], [true, false]].length = 2 ∧ ∀ row ∈ [[true, true], [true, false]], row.length = 2 := by decide

theorem test_witness_DarkPenalty : 0 < 21 := by decide

theorem test_witness_EncodeBuildsSymbol :
    (oneSegment 1 helloWorld 2 0 .reset .reset).MemoryOk ∧
    (oneSegment 1 helloWorld 2 0 .reset .reset).chooseVersion = .ok 1 ∧
    (oneSegment 1 helloWorld 3 1 .reset .reset).chooseVersion = .error (raise .dataTooLong 74) ∧
    ((zigzagAll 21).filter fun p => decide ((placedModule 1 p.1 p.2).role = .empty))[0]? = some (20, 20) ∧
    (placedModule 1 0 20).role = .function := by decide +kernel

theorem test_witness_EncodeEqualsStepSequence :
    (runCommands ([.vsel, .bsClear] ++ (List.range 1).map Instr.bsSeg ++
      [.bsFinish, .ileave, .mxInit, .mxFunc, .mxPlace, .maskSelect])
      (oneSegment 1 helloWorld 2 0 .reset .reset)).isSome = true ∧
    after (exec .vsel ((oneSegment 1 helloWorld 2 0 .reset .reset).accept (encode .vsel))) (·.err) = some false := by
  decide +kernel

/-- The last offset of the block is reserved; a read of the last PENALTY register. -/
theorem test_witness_RegisterReads :
    (idle [.read 0x0BC .four]).busy = false ∧ (0x0BC : Addr).toNat < 0x100 ∧ (0x0BC : Addr).toNat % 4 = 0 ∧
    (0x0FC : Addr).toNat < 0x100 ∧ (idle [.read 0x0BC .four]).inbox = [.read 0x0BC .four] := by decide

theorem test_witness_FieldLaws :
    after (exec .gfMul State.reset) (·.result.gfR) = some 0 ∧ (0xFF : Byte) ≠ 0 := by decide +kernel

end Sys2Proof.Tests
end

section
/-! PROOFS. The bits of a serialised segment (42_bitstream.md R204 to R208): indicator, count, and the data bits group
by group. The data bits from group j on are the data bits of the characters from group j on, so each group is read at
the head of a shorter character list. -/

namespace Sys2Proof.Machine

open Sys2Proof

/-! ### Bit sequences (R8) -/

@[simp] theorem bitSeq_length (v n : Nat) : (bitSeq v n).length = n := by
  induction n with
  | zero => rfl
  | succ n ih => rw [bitSeq, List.length_cons, ih]

/-- The most significant bit of an n-bit sequence stands first. -/
theorem bitSeq_eq_map_range (v n : Nat) : bitSeq v n = (List.range n).map fun k => v.testBit (n - 1 - k) := by
  induction n with
  | zero => rfl
  | succ n ih =>
    rw [bitSeq, ih, List.range_succ_eq_map, List.map_cons, List.map_map]
    refine congrArg _ (List.map_congr_left fun k _ => ?_)
    simp only [Function.comp_apply]
    congr 1
    omega

theorem getD_drop (l : List Byte) (i k : Nat) : (l.drop i).getD k 0 = l.getD (i + k) 0 := by
  simp [List.getD_eq_getElem?_getD]

/-! ### Groups -/

/-- Where the first w bits belong to the first c characters, the bits from group j on belong to the characters from
group j on. -/
theorem drop_groups {f : List Byte → List Bool} {w c : Nat} (h : ∀ l, (f l).drop w = f (l.drop c)) (j : Nat)
    (l : List Byte) : (f l).drop (w * j) = f (l.drop (c * j)) := by
  induction j with
  | zero => rfl
  | succ j ih => rw [Nat.mul_succ, ← List.drop_drop, ih, h, List.drop_drop, Nat.mul_succ]

theorem numericBits_drop (j : Nat) (l : List Byte) : (numericBits l).drop (10 * j) = numericBits (l.drop (3 * j)) := by
  refine drop_groups (fun l => ?_) j l
  match l with
  | [] => rfl
  | [_] => rfl
  | [_, _] => rfl
  | a :: b :: c :: r => exact List.drop_left' (bitSeq_length ..)

theorem alnumBits_drop (j : Nat) (l : List Byte) : (alnumBits l).drop (11 * j) = alnumBits (l.drop (2 * j)) := by
  refine drop_groups (fun l => ?_) j l
  match l with
  | [] => rfl
  | [_] => rfl
  | a :: b :: r => exact List.drop_left' (bitSeq_length ..)

theorem byteBits_drop (j : Nat) (l : List Byte) : (byteBits l).drop (8 * j) = byteBits (l.drop j) := by
  rw [drop_groups (c := 1) (fun l => ?_) j l, Nat.one_mul]
  match l with
  | [] => rfl
  | a :: r => exact List.drop_left' (bitSeq_length ..)

theorem kanjiBits_drop (j : Nat) (l : List Byte) :
    (kanjiBits (kanjiCodes l)).drop (13 * j) = kanjiBits (kanjiCodes (l.drop (2 * j))) := by
  refine drop_groups (f := fun l => kanjiBits (kanjiCodes l)) (fun l => ?_) j l
  match l with
  | [] => rfl
  | [_] => rfl
  | a :: b :: r => exact List.drop_left' (bitSeq_length ..)

/-! ### The first group -/

/-- R204: the first three digits. -/
theorem numericBits_take : ∀ l : List Byte, 3 ≤ l.length → (numericBits l).take 10 =
    bitSeq (100 * digitValue (l.getD 0 0) + 10 * digitValue (l.getD 1 0) + digitValue (l.getD 2 0)) 10
  | _ :: _ :: _ :: _, _ => List.take_left' (bitSeq_length ..)

/-- R204: one last digit. -/
theorem numericBits_take_one : ∀ l : List Byte, l.length = 1 →
    (numericBits l).take 4 = bitSeq (digitValue (l.getD 0 0)) 4
  | [_], _ => rfl

/-- R204: two last digits. -/
theorem numericBits_take_two : ∀ l : List Byte, l.length = 2 →
    (numericBits l).take 7 = bitSeq (10 * digitValue (l.getD 0 0) + digitValue (l.getD 1 0)) 7
  | [_, _], _ => rfl

/-- R205: the first pair. -/
theorem alnumBits_take : ∀ l : List Byte, 2 ≤ l.length →
    (alnumBits l).take 11 = bitSeq (45 * alnumCode (l.getD 0 0) + alnumCode (l.getD 1 0)) 11
  | _ :: _ :: _, _ => List.take_left' (bitSeq_length ..)

/-- R205: a last character without a partner. -/
theorem alnumBits_take_one : ∀ l : List Byte, l.length = 1 →
    (alnumBits l).take 6 = bitSeq (alnumCode (l.getD 0 0)) 6
  | [_], _ => rfl

/-- R206: the first byte. -/
theorem byteBits_take : ∀ l : List Byte, 1 ≤ l.length → (byteBits l).take 8 = bitSeq (l.getD 0 0).toNat 8
  | _ :: _, _ => List.take_left' (bitSeq_length ..)

/-- R207: the first pair of bytes. -/
theorem kanjiBits_take : ∀ l : List Byte, 2 ≤ l.length → (kanjiBits (kanjiCodes l)).take 13 =
    bitSeq (kanjiValue ((l.getD 0 0).toNat * 256 + (l.getD 1 0).toNat)) 13
  | _ :: _ :: _, _ => List.take_left' (bitSeq_length ..)

/-! ### The group at a place -/

theorem numericBits_group {l : List Byte} {j : Nat} (hj : j < l.length / 3) :
    ((numericBits l).drop (10 * j)).take 10 = bitSeq (100 * digitValue (l.getD (3 * j) 0) +
      10 * digitValue (l.getD (3 * j + 1) 0) + digitValue (l.getD (3 * j + 2) 0)) 10 := by
  rw [numericBits_drop, numericBits_take _ (by rw [List.length_drop]; omega)]
  simp only [getD_drop, Nat.add_zero]

theorem numericBits_last_one {l : List Byte} (h : l.length % 3 = 1) :
    ((numericBits l).drop (10 * (l.length / 3))).take 4 = bitSeq (digitValue (l.getD (l.length - 1) 0)) 4 := by
  rw [numericBits_drop, numericBits_take_one _ (by rw [List.length_drop]; omega), getD_drop, Nat.add_zero,
    show l.length - 1 = 3 * (l.length / 3) by omega]

theorem numericBits_last_two {l : List Byte} (h : l.length % 3 = 2) :
    ((numericBits l).drop (10 * (l.length / 3))).take 7 =
      bitSeq (10 * digitValue (l.getD (l.length - 2) 0) + digitValue (l.getD (l.length - 1) 0)) 7 := by
  rw [numericBits_drop, numericBits_take_two _ (by rw [List.length_drop]; omega), getD_drop, getD_drop, Nat.add_zero,
    show l.length - 2 = 3 * (l.length / 3) by omega, show l.length - 1 = 3 * (l.length / 3) + 1 by omega]

theorem alnumBits_group {l : List Byte} {j : Nat} (hj : j < l.length / 2) : ((alnumBits l).drop (11 * j)).take 11 =
    bitSeq (45 * alnumCode (l.getD (2 * j) 0) + alnumCode (l.getD (2 * j + 1) 0)) 11 := by
  rw [alnumBits_drop, alnumBits_take _ (by rw [List.length_drop]; omega), getD_drop, getD_drop, Nat.add_zero]

theorem alnumBits_last {l : List Byte} (h : l.length % 2 = 1) :
    ((alnumBits l).drop (11 * (l.length / 2))).take 6 = bitSeq (alnumCode (l.getD (l.length - 1) 0)) 6 := by
  rw [alnumBits_drop, alnumBits_take_one _ (by rw [List.length_drop]; omega), getD_drop, Nat.add_zero,
    show l.length - 1 = 2 * (l.length / 2) by omega]

theorem byteBits_group {l : List Byte} {j : Nat} (hj : j < l.length) :
    ((byteBits l).drop (8 * j)).take 8 = bitSeq (l.getD j 0).toNat 8 := by
  rw [byteBits_drop, byteBits_take _ (by rw [List.length_drop]; omega), getD_drop, Nat.add_zero]

theorem kanjiBits_group {l : List Byte} {j : Nat} (hj : j < l.length / 2) :
    ((kanjiBits (kanjiCodes l)).drop (13 * j)).take 13 =
      bitSeq (kanjiValue ((l.getD (2 * j) 0).toNat * 256 + (l.getD (2 * j + 1) 0).toNat)) 13 := by
  rw [kanjiBits_drop, kanjiBits_take _ (by rw [List.length_drop]; omega), getD_drop, getD_drop, Nat.add_zero]

/-- R175: the value of a character of the set is its place in the set. -/
theorem alnumCode_eq_idxOf {b : Byte} (h : b.toNat ∈ alnumCharacters) :
    alnumCode b = alnumCharacters.idxOf b.toNat := by
  have table : ∀ c ∈ alnumCharacters, alnumCode (BitVec.ofNat 8 c) = alnumCharacters.idxOf c := by decide +kernel
  simpa using table _ h

/-! ### Lengths -/

theorem numericBits_length : ∀ l : List Byte, (numericBits l).length = dataBits .numeric l.length
  | [] => rfl
  | [_] => by simp [numericBits, dataBits]
  | [_, _] => by simp [numericBits, dataBits]
  | a :: b :: c :: r => by
    rw [numericBits, List.length_append, bitSeq_length, numericBits_length r]
    simp only [dataBits, List.length_cons, Nat.add_assoc, Nat.reduceAdd, Nat.add_mod_right]
    omega

theorem alnumBits_length : ∀ l : List Byte, (alnumBits l).length = dataBits .alphanumeric l.length
  | [] => rfl
  | [_] => by simp [alnumBits, dataBits]
  | a :: b :: r => by
    rw [alnumBits, List.length_append, bitSeq_length, alnumBits_length r]
    simp only [dataBits, List.length_cons]
    omega

theorem byteBits_length (l : List Byte) : (byteBits l).length = dataBits .byte l.length := by
  induction l with
  | nil => rfl
  | cons a r ih =>
    rw [byteBits, List.length_append, bitSeq_length, ih]
    simp only [dataBits, List.length_cons]
    omega

theorem kanjiBits_length (codes : List Nat) : (kanjiBits codes).length = dataBits .kanji codes.length := by
  induction codes with
  | nil => rfl
  | cons a r ih =>
    rw [kanjiBits, List.length_append, bitSeq_length, ih]
    simp only [dataBits, List.length_cons]
    omega

theorem Descriptor.count_eq (d : Descriptor) : d.count = if d.mode = .kanji then d.len / 2 else d.len := by
  rw [Descriptor.count]
  cases d.mode <;> rfl

theorem segmentDataBits_length {d : Descriptor} {chars : List Byte} (h : chars.length = d.len) :
    (segmentDataBits d.mode chars).length = dataBits d.mode d.count := by
  rw [Descriptor.count_eq, ← h]
  cases d.mode with
  | numeric => exact numericBits_length chars
  | alphanumeric => exact alnumBits_length chars
  | byte => exact byteBits_length chars
  | kanji => exact (kanjiBits_length _).trans (congrArg _ (kanjiCodes_length chars))

/-! ### The whole segment (R208) -/

theorem emitSegment_length (d : Descriptor) (v : Nat) {chars : List Byte} (h : chars.length = d.len) :
    (emitSegment d v chars).length = segBits d v := by
  rw [emitSegment, List.length_append, List.length_append, bitSeq_length, bitSeq_length, segmentDataBits_length h,
    segBits]

theorem emitSegment_take_indicator (d : Descriptor) (v : Nat) (chars : List Byte) :
    (emitSegment d v chars).take 4 = bitSeq d.mode.indicator 4 := by
  rw [emitSegment, List.append_assoc]
  exact List.take_left' (bitSeq_length ..)

theorem emitSegment_drop_indicator (d : Descriptor) (v : Nat) (chars : List Byte) :
    (emitSegment d v chars).drop 4 = bitSeq d.count (cciWidth d.mode v) ++ segmentDataBits d.mode chars := by
  rw [emitSegment, List.append_assoc]
  exact List.drop_left' (bitSeq_length ..)

theorem emitSegment_take_count (d : Descriptor) (v : Nat) (chars : List Byte) :
    ((emitSegment d v chars).drop 4).take (cciWidth d.mode v) = bitSeq d.count (cciWidth d.mode v) := by
  rw [emitSegment_drop_indicator]
  exact List.take_left' (bitSeq_length ..)

theorem emitSegment_drop_count (d : Descriptor) (v : Nat) (chars : List Byte) (k : Nat) :
    (emitSegment d v chars).drop (4 + cciWidth d.mode v + k) = (segmentDataBits d.mode chars).drop k := by
  rw [← List.drop_drop, ← List.drop_drop, emitSegment_drop_indicator, List.drop_left' (bitSeq_length ..)]

/-- Settles O32: indicator and count stand before the data bits, and each mode's groups are read off its data bits. -/
theorem serialisedSegment : Obligations.SerialisedSegment := by
  unfold Obligations.SerialisedSegment
  intro d v chars hlen _ w n bits data code digit alphabet value
  have hbits : ∀ x count, bits x count = bitSeq x count := fun x count => (bitSeq_eq_map_range x count).symm
  have hdata : ∀ k count, data k count = ((segmentDataBits d.mode chars).drop k).take count := fun k count =>
    congrArg (List.take count) (emitSegment_drop_count d v chars k)
  have hn : n = if d.mode = .kanji then chars.length / 2 else chars.length := by rw [hlen]
  refine ⟨emitSegment_length d v hlen, ?_, ?_, ?_⟩
  · rw [emitSegment_take_indicator]
    cases d.mode <;> rfl
  · rw [emitSegment_take_count, hbits, Descriptor.count_eq]
  · simp only [hbits, hdata]
    cases hmode : d.mode with
    | numeric =>
      rw [show n = chars.length by rw [hn, hmode]; rfl]
      exact ⟨fun j hj => numericBits_group hj, numericBits_last_one, numericBits_last_two⟩
    | alphanumeric =>
      rw [show n = chars.length by rw [hn, hmode]; rfl]
      intro hset
      have hvalue : ∀ j, j < chars.length → value j = alnumCode (chars.getD j 0) := fun j hj =>
        (alnumCode_eq_idxOf (hset j hj)).symm
      refine ⟨fun j hj => ?_, fun h => ?_⟩
      · rw [hvalue _ (by omega), hvalue _ (by omega)]
        exact alnumBits_group hj
      · rw [hvalue _ (by omega)]
        exact alnumBits_last h
    | byte =>
      rw [show n = chars.length by rw [hn, hmode]; rfl]
      exact fun j hj => byteBits_group hj
    | kanji =>
      rw [show n = chars.length / 2 by rw [hn, hmode]; rfl]
      exact fun j hj => kanjiBits_group hj

end Sys2Proof.Machine
end

section
/-! PROOFS. The invariant `State.Inv` and the memory: which fields it reads, and that it holds after a run of bytes is
written outside MX and after a buffer is redrawn. -/

namespace Sys2Proof.Machine

open Sys2Proof

/-! ### What the invariant reads -/

/-- The state with every field the invariant does not read at its reset value. -/
def State.invPart (s : State) : State :=
  { State.reset with
    result := { ResultRegs.reset with
      version := s.result.version, size := s.result.size, dataCw := s.result.dataCw, totalCw := s.result.totalCw,
      bitLen := s.result.bitLen, reqBits := s.result.reqBits, level := s.result.level }
    phase := s.phase, done := s.done, err := s.err, errCode := s.errCode, errInfo := s.errInfo, latch := s.latch,
    mem := s.mem, epoch := s.epoch }

theorem State.inv_invPart (s : State) : s.invPart.Inv ↔ s.Inv :=
  ⟨fun h => ⟨h.memory, h.status, h.phase, h.symbol, h.stream, h.matrix, h.margin⟩,
    fun h => ⟨h.memory, h.status, h.phase, h.symbol, h.stream, h.matrix, h.margin⟩⟩

/-- Two states that agree in what the invariant reads. -/
theorem State.Inv.congr {s t : State} (h : s.Inv) (e : t.invPart = s.invPart) : t.Inv :=
  t.inv_invPart.1 (e ▸ s.inv_invPart.2 h)

/-- With V = 1 the symbol has a version 1..40. -/
theorem State.Inv.version_bounds {s : State} (h : s.Inv) (hv : s.phase.v = true) :
    1 ≤ s.result.version.toNat ∧ s.result.version.toNat ≤ 40 := by
  have hs := h.symbol
  rw [State.SymbolOk, if_pos hv] at hs
  exact ⟨hs.1, hs.2.1⟩

/-! R40, flag by flag: each stage of the stream and of the matrix implies the one before it. -/

theorem State.Inv.v_of_f {s : State} (h : s.Inv) (hf : s.phase.f = true) : s.phase.v = true := h.phase.2.1 hf

theorem State.Inv.d_of_k {s : State} (h : s.Inv) (hk : s.phase.k = true) : s.phase.d = true := h.phase.2.2.1 hk

theorem State.Inv.p_of_d {s : State} (h : s.Inv) (hd : s.phase.d = true) : s.phase.p = true := h.phase.2.2.2.1 hd

theorem State.Inv.m_of_p {s : State} (h : s.Inv) (hp : s.phase.p = true) : s.phase.m = true := h.phase.2.2.2.2.1 hp

theorem State.Inv.v_of_m {s : State} (h : s.Inv) (hm : s.phase.m = true) : s.phase.v = true := h.phase.2.2.2.2.2 hm

theorem State.side_le_of_version {s : State} (h : s.result.version.toNat ≤ 40) : s.side ≤ 177 := by
  rw [State.side, sideOf]
  omega

/-- With V = 1 the matrix has at most 177 rows. -/
theorem State.Inv.side_le {s : State} (h : s.Inv) (hv : s.phase.v = true) : s.side ≤ 177 :=
  State.side_le_of_version (h.version_bounds hv).2

theorem moduleIndex_lt {n r c : Nat} (hn : n ≤ 177) (hr : r < n) (hc : c < n) : moduleIndex r c < 31329 := by
  have : 177 * (r + 1) ≤ 177 * 177 := Nat.mul_le_mul_left _ (by omega)
  rw [moduleIndex, Config.mxStride]
  omega

/-- The matrix parts of the invariant stay when the bytes of MX, the version and the flags M, P, D and K stay. -/
theorem State.Inv.matrix_of_mx_eq {s t : State} (h : s.Inv) (hver : t.result.version = s.result.version)
    (hph : t.phase = { s.phase with f := t.phase.f, c := t.phase.c })
    (hbuf : ∀ i, i < 31329 → t.buf .mx i = s.buf .mx i) : t.MatrixOk ∧ t.MarginOk := by
  have hside : t.side = s.side := by rw [State.side, hver, State.side]
  have hm : t.phase.m = true → s.phase.m = true := by rw [hph]; exact id
  constructor
  · intro ht r hr c hc
    rw [hside] at hr hc
    have hN := h.side_le (h.v_of_m (hm ht))
    have old := h.matrix (hm ht) r hr c hc
    rw [hver, State.moduleAt, hbuf _ (moduleIndex_lt hN hr hc), hph]
    exact old
  · intro ht i hi hout
    rw [hbuf i hi]
    exact h.margin (hm ht) i hi (by rwa [State.outside, hside] at hout)

/-! ### Writing a run of bytes -/

theorem State.memoryOk_setBytes {s : State} (hs : s.MemoryOk) {g : Region} {i : Nat} {bs : List Byte}
    (hi : i + bs.length ≤ g.size) (hmx : g = .mx → ∀ b ∈ bs, b.toNat < 8) : (s.setBytes g i bs).MemoryOk := by
  refine ⟨s.wf_setBytes hs.1 hi, fun x hx hr => ?_⟩
  rcases Memory.mem_store hx with hx | hx
  · obtain ⟨h1, h2, hb⟩ := mem_cellsFrom hx
    have hg := regionAt_base g (i := x.1 - g.base) (by omega)
    rw [show g.base + (x.1 - g.base) = x.1 by omega, hr] at hg
    exact hmx (Option.some.inj hg).symm _ hb
  · exact hs.2 x hx hr

theorem State.buf_setBytes_of_ne {s : State} (hm : s.mem.wf) {g h : Region} {i j : Nat} {bs : List Byte}
    (hi : i + bs.length ≤ g.size) (hj : j < h.size) (hne : h ≠ g) : (s.setBytes g i bs).buf h j = s.buf h j := by
  rw [State.buf_setBytes s hm hi hj, if_neg fun e => hne e.1]

/-- The invariant after a run of bytes is written into a buffer other than MX. -/
theorem State.Inv.setBytes {s : State} (h : s.Inv) {g : Region} (hg : g ≠ .mx) {i : Nat} {bs : List Byte}
    (hi : i + bs.length ≤ g.size) : (s.setBytes g i bs).Inv := by
  obtain ⟨hmat, hmar⟩ := h.matrix_of_mx_eq (t := s.setBytes g i bs) rfl rfl fun j hj =>
    State.buf_setBytes_of_ne h.memory.1 hi hj hg.symm
  exact ⟨State.memoryOk_setBytes h.memory hi fun e => absurd e hg, h.status, h.phase, h.symbol, h.stream, hmat, hmar⟩

/-! ### Redrawing and resetting -/

theorem State.memoryOk_redraw {s : State} (hs : s.MemoryOk) (g : Region) : (s.redraw g).MemoryOk :=
  ⟨s.wf_redraw g hs.1, fun x hx => hs.2 x (List.mem_of_mem_filter hx)⟩

theorem State.memoryOk_redrawAll {s : State} (hs : s.MemoryOk) (gs : List Region) : (s.redrawAll gs).MemoryOk := by
  induction gs generalizing s with
  | nil => exact hs
  | cons g gs ih => exact ih (State.memoryOk_redraw hs g)

/-- R441: registers at their reset values meet the invariant, whatever RAM holds. -/
theorem State.inv_resetRegisters {s : State} (hs : s.MemoryOk) : s.resetRegisters.Inv where
  memory := hs
  status := by
    refine ⟨fun h => ?_, fun h => ?_, fun h => ?_, List.mem_cons_self⟩ <;> cases h
  phase := by
    refine ⟨fun h => ?_, fun h => ?_, fun h => ?_, fun h => ?_, fun h => ?_, fun h => ?_⟩ <;> cases h
  symbol := ⟨rfl, rfl, rfl, rfl, rfl⟩
  stream := ⟨Nat.zero_le _, fun h => by cases h⟩
  matrix := fun h => by cases h
  margin := fun h => by cases h

/-- Settles O2: the reset state is an empty memory with its registers reset. -/
theorem resetHasInvariant : Obligations.ResetHasInvariant := by
  unfold Obligations.ResetHasInvariant
  exact State.inv_resetRegisters (s := State.reset) ⟨⟨.nil, by simp [State.reset]⟩, by simp [State.reset]⟩

theorem State.Inv.resetKeepingRam {s : State} (h : s.Inv) : s.resetKeepingRam.Inv :=
  State.inv_resetRegisters (State.memoryOk_redrawAll h.memory _)

theorem State.Inv.powerOn {s : State} (h : s.Inv) : s.powerOn.Inv :=
  State.inv_resetRegisters (State.memoryOk_redrawAll h.memory _)

end Sys2Proof.Machine
end

section
/-! PROOFS. Every command's body keeps the invariant where it writes symbol registers, the stream or a buffer other than
MX: vsel, the bitstream builder, the Reed-Solomon encoder and the interleaver. -/

namespace Sys2Proof.Machine

open Sys2Proof

theorem State.capacity_lt (s : State) : s.capacity < 32768 := by
  have := s.result.dataCw.isLt
  rw [State.capacity]
  omega

/-! ### The stream flags and BITLEN -/

theorem State.Inv.setBitLen {s : State} (h : s.Inv) (hf : s.phase.f = false) {n : Nat} (hn : n ≤ 32768) :
    (s.setBitLen n).Inv := by
  refine ⟨h.memory, h.status, h.phase, h.symbol, ⟨?_, fun ht => ?_⟩, h.matrix, h.margin⟩
  · show (BitVec.ofNat 16 n).toNat ≤ 32768
    rw [BitVec.toNat_ofNat, Nat.mod_eq_of_lt (by omega)]
    exact hn
  · cases hf.symm.trans ht

theorem State.Inv.setStreamFlags {s : State} (h : s.Inv) {f c : Bool} (hcf : c = true → f = true)
    (hfv : f = true → s.phase.v = true) (hlen : f = true → s.result.bitLen.toNat = s.capacity) :
    ({ s with phase := { s.phase with f := f, c := c } } : State).Inv :=
  ⟨h.memory, h.status, ⟨hcf, hfv, h.phase.2.2⟩, h.symbol, ⟨h.stream.1, hlen⟩, h.matrix, h.margin⟩

/-- An append within the 32768 bits of DCW, while the stream is not finished. -/
theorem State.Inv.appendBits {s : State} (h : s.Inv) (hf : s.phase.f = false) {bs : List Bool}
    (hk : s.result.bitLen.toNat + bs.length ≤ 32768) : (s.appendBits bs).Inv := by
  cases bs with
  | nil => exact h
  | cons b bs =>
    refine State.Inv.setBitLen (h.setBytes (by decide) ?_) hf hk
    rw [putBits_length, State.bytes_length]
    show _ ≤ 4096
    omega

theorem Phase.canBuild_iff (p : Phase) : p.canBuild = true ↔ p.v = true ∧ p.f = false := by
  simp [Phase.canBuild]

/-! ### The pad of bs.finish (R210) -/

theorem padBits_length (n : Nat) (odd : Bool) : (padBits n odd).length = 8 * n := by
  induction n generalizing odd with
  | zero => rfl
  | succ n ih => rw [padBits, List.length_append, bitSeq_length, ih]; omega

/-- The terminator, the zero bits and the pad codewords fill the capacity. -/
theorem finishBits_length {len cap : Nat} (h : len ≤ cap) (h8 : cap % 8 = 0) :
    (finishBits len cap).length = cap - len := by
  simp only [finishBits, List.length_append, List.length_replicate, padBits_length]
  omega

/-! ### The length of the final sequence (R262) -/

theorem sum_length_splitBlocks_le (bytes : List Byte) (ns : List Nat) :
    ((splitBlocks bytes ns).map List.length).sum ≤ bytes.length := by
  induction ns generalizing bytes with
  | nil => exact Nat.zero_le _
  | cons n ns ih =>
    have := ih (bytes.drop n)
    simp only [splitBlocks, List.map_cons, List.sum_cons, List.length_take, List.length_drop] at this ⊢
    omega

theorem splitBlocks_length (bytes : List Byte) (ns : List Nat) : (splitBlocks bytes ns).length = ns.length := by
  induction ns generalizing bytes with
  | nil => rfl
  | cons n ns ih => rw [splitBlocks, List.length_cons, ih, List.length_cons]

theorem sum_length_getElem?_le (b : List Byte) (n : Nat) :
    ((List.range n).map fun i => b[i]?.toList.length).sum ≤ b.length := by
  suffices ((List.range n).map fun i => b[i]?.toList.length).sum = min n b.length by omega
  induction n with
  | zero => simp
  | succ n ih =>
    rw [List.range_succ, List.map_append, List.sum_append, ih, List.map_singleton, List.sum_singleton]
    rcases Nat.lt_or_ge n b.length with h | h
    · rw [List.getElem?_eq_getElem h, Option.toList_some, List.length_singleton]
      omega
    · rw [List.getElem?_eq_none h, Option.toList_none, List.length_nil]
      omega

/-- The columns of a list of blocks hold each codeword of a block at most once. -/
theorem roundRobin_length_le (blocks : List (List Byte)) (n : Nat) :
    (roundRobin blocks n).length ≤ (blocks.map List.length).sum := by
  rw [roundRobin, List.length_flatMap]
  induction blocks with
  | nil => simp [column]
  | cons b blocks ih =>
    have split : ∀ i, (column (b :: blocks) i).length = b[i]?.toList.length + (column blocks i).length := fun i => by
      simp only [column, List.filterMap_cons]
      cases b[i]? <;> simp [Nat.add_comm]
    simp only [split, List.sum_map_add, List.map_cons, List.sum_cons]
    have := sum_length_getElem?_le b n
    omega

theorem divStep_length_le (c r : List Byte) (x : Byte) : (divStep c r x).length ≤ c.length - 1 := by
  simp [divStep]

theorem genPoly_length (d : Nat) : (genPoly d).length = d + 1 := by
  induction d with
  | zero => rfl
  | succ d ih => simp [genPoly, timesLinear, ih]

theorem rsRemainder_length_le (block : List Byte) (d : Nat) : (rsRemainder block d).length ≤ d := by
  suffices ∀ r : List Byte, r.length ≤ d → (block.foldl (divStep (genPoly d)) r).length ≤ d from
    this _ (List.length_replicate ..).le
  induction block with
  | nil => exact fun r hr => hr
  | cons x block ih => exact fun r _ => ih _ (by simpa [genPoly_length] using divStep_length_le (genPoly d) r x)

theorem blockLengths_length {v : Nat} {l : Level} (h : 0 < numBlocks v l) :
    (blockLengths v l).length = numBlocks v l := by
  have := Nat.mod_lt (totalCodewords v) h
  simp only [blockLengths, List.length_append, List.length_replicate]
  omega

/-- R180: the data codewords and the EC codewords of all blocks fit FCW. -/
theorem codewords_fit_all : ∀ v, v ≤ 40 → 1 ≤ v → ∀ l ∈ [Level.L, .M, .Q, .H],
    0 < numBlocks v l ∧ dataCodewords v l + numBlocks v l * eccPerBlock v l ≤ 4096 := by
  decide +kernel

theorem codewords_fit {v : Nat} (h1 : 1 ≤ v) (h2 : v ≤ 40) (l : Level) :
    0 < numBlocks v l ∧ dataCodewords v l + numBlocks v l * eccPerBlock v l ≤ 4096 :=
  codewords_fit_all v h2 h1 l (by cases l <;> decide)

theorem finalCodewords_length_le {v : Nat} (h1 : 1 ≤ v) (h2 : v ≤ 40) {l : Level} {data : List Byte}
    (hd : data.length = dataCodewords v l) : (finalCodewords v l data).length ≤ 4096 := by
  obtain ⟨hpos, hfit⟩ := codewords_fit h1 h2 l
  have hdata := sum_length_splitBlocks_le data (blockLengths v l)
  have hec : ((((splitBlocks data (blockLengths v l)).map fun b => rsRemainder b (eccPerBlock v l)).map
      List.length).sum) ≤ numBlocks v l * eccPerBlock v l := by
    rw [← blockLengths_length hpos, ← splitBlocks_length data]
    have := List.sum_le_card_nsmul (((splitBlocks data (blockLengths v l)).map fun b =>
      rsRemainder b (eccPerBlock v l)).map List.length) (eccPerBlock v l) (by
        simpa using fun b _ => rsRemainder_length_le b (eccPerBlock v l))
    simpa using this
  have r1 := roundRobin_length_le (splitBlocks data (blockLengths v l)) (shortLen v l + 1)
  have r2 := roundRobin_length_le ((splitBlocks data (blockLengths v l)).map fun b => rsRemainder b (eccPerBlock v l))
    (eccPerBlock v l)
  rw [finalCodewords, List.length_append]
  omega

/-! ### The bodies -/

theorem vselBody_inv {s t : State} (h : s.Inv) (e : vselBody s = .ok t) : t.Inv := by
  obtain ⟨v, hv, rfl⟩ := vselBody_ok e
  obtain ⟨-, -, -, ⟨h1, h2, -⟩, hacc⟩ := State.chooseVersion_ok hv
  obtain ⟨rver, rlevel, rsize, rdata, rtotal, rreq⟩ := State.selectVersion_registers h2 hacc
  have symbol : (s.selectVersion v).SymbolOk := by
    rw [State.SymbolOk, if_pos (show (s.selectVersion v).phase.v = true from rfl), rver, State.level, rlevel, State.capacity, rdata]
    exact ⟨h1, h2, rsize, rfl, rtotal, rreq ▸ hacc.2⟩
  refine ⟨h.memory, h.status, ?_, symbol, ⟨h.stream.1, nofun⟩, nofun, nofun⟩
  simp [State.selectVersion, Phase.Ok]

theorem bsClearBody_inv {s t : State} (h : s.Inv) (e : bsClearBody s = .ok t) : t.Inv := by
  obtain rfl := bsClearBody_ok e
  have cleared : (s.setBytes .dcw 0 (List.replicate 4096 0)).Inv :=
    h.setBytes (by decide) (by rw [List.length_replicate]; decide)
  exact State.Inv.setBitLen (cleared.setStreamFlags (f := false) (c := false) id nofun nofun) rfl (Nat.zero_le _)

theorem bsAppendBody_inv {n : Nat} {s t : State} (h : s.Inv) (e : bsAppendBody n s = .ok t) : t.Inv := by
  obtain ⟨hb, -, -, hcap, rfl⟩ := bsAppendBody_ok e
  have := s.capacity_lt
  exact h.appendBits (s.phase.canBuild_iff.1 hb).2 (by rw [bitSeq_length]; omega)

theorem bsSegBody_inv {i : Nat} {s t : State} (h : s.Inv) (e : bsSegBody i s = .ok t) : t.Inv := by
  obtain ⟨hb, -, -, -, -, hcap, rfl⟩ := bsSegBody_ok e
  have := s.capacity_lt
  exact h.appendBits (s.phase.canBuild_iff.1 hb).2 (by rw [emitSegment_length _ _ (by simp)]; omega)

theorem bsSegAll_inv {is : List Nat} {s t : State} (h : s.Inv) (e : bsSegAll is s = .ok t) : t.Inv := by
  induction is generalizing s with
  | nil => cases e; exact h
  | cons i is ih =>
    obtain ⟨u, e1, e2⟩ := andThen_ok e
    exact ih (bsSegBody_inv h e1) e2

theorem bsFinishBody_inv {s t : State} (h : s.Inv) (e : bsFinishBody s = .ok t) : t.Inv := by
  obtain ⟨hb, hle, rfl⟩ := bsFinishBody_ok e
  obtain ⟨hv, hf⟩ := s.phase.canBuild_iff.1 hb
  have hcap := s.capacity_lt
  have hlen := finishBits_length hle (by rw [State.capacity]; omega)
  have hfit : s.result.bitLen.toNat + (finishBits s.result.bitLen.toNat s.capacity).length ≤ 32768 := by omega
  obtain ⟨-, hres, hframe, -, -⟩ := State.appendBits_spec h.memory hfit
  have happ := h.appendBits hf hfit
  generalize s.appendBits _ = u at *
  have hphase : u.phase = s.phase := by rw [hframe]
  refine happ.setStreamFlags (f := true) (fun _ => rfl) (fun _ => hphase ▸ hv) fun _ => ?_
  rw [State.capacity, hres]
  show (BitVec.ofNat 16 _).toNat = s.capacity
  rw [BitVec.toNat_ofNat, Nat.mod_eq_of_lt (by omega)]
  omega

theorem fill32_length (bs : List Byte) : (fill32 bs).length = 32 := by
  simp [fill32]

theorem rsGenBody_inv {s t : State} (h : s.Inv) (e : rsGenBody s = .ok t) : t.Inv := by
  obtain ⟨-, -, rfl⟩ := rsGenBody_ok e
  exact h.setBytes (by decide) (by rw [fill32_length]; decide)

theorem rsEncBody_inv {s t : State} (h : s.Inv) (e : rsEncBody s = .ok t) : t.Inv := by
  obtain ⟨-, -, -, rfl⟩ := rsEncBody_ok e
  exact h.setBytes (by decide) (by rw [fill32_length]; decide)

theorem ileaveBody_inv {s t : State} (h : s.Inv) (e : ileaveBody s = .ok t) : t.Inv := by
  obtain ⟨hf, rfl⟩ := ileaveBody_ok e
  have hv := h.v_of_f hf
  obtain ⟨h1, h2⟩ := h.version_bounds hv
  have hs := h.symbol
  rw [State.SymbolOk, if_pos hv] at hs
  obtain ⟨-, -, -, hdata, -, -⟩ := hs
  have hlen := finalCodewords_length_le h1 h2 (l := s.level) (data := s.bytes .dcw 0 s.result.dataCw.toNat)
    (by rw [State.bytes_length, hdata])
  exact (h.setBytes (g := .fcw) (by decide) (by rw [Nat.zero_add]; exact hlen)).setStreamFlags (f := s.phase.f) (c := true)
    (fun _ => hf) (fun _ => hv) h.stream.2

end Sys2Proof.Machine
end

section
/-! PROOFS. Every command's body keeps the invariant where it writes the matrix: mx.init, mx.func, mx.place, mask.select
and mask.apply take each module from one stage of `ModuleOk` to the next. -/

namespace Sys2Proof.Machine

open Sys2Proof

/-! ### What MX_FUNC puts at a module (R283 to R294) -/

theorem finderAt_role {n cr cc : Nat} : ∀ p ∈ finderAt n cr cc, p.mod.role = .function := by
  intro p hp
  simp only [finderAt, List.mem_flatMap, List.mem_filterMap] at hp
  obtain ⟨i, -, j, -, h⟩ := hp
  split at h <;> cases h
  rfl

theorem timingPatterns_role {v : Nat} : ∀ p ∈ timingPatterns v, p.mod.role = .function := by
  intro p hp
  simp only [timingPatterns, List.mem_flatMap, List.mem_append] at hp
  obtain ⟨k, -, h | h⟩ := hp <;> split at h <;> simp at h <;> rw [h] <;> rfl

theorem alignmentPatterns_role {v : Nat} : ∀ p ∈ alignmentPatterns v, p.mod.role = .function := by
  intro p hp
  simp only [alignmentPatterns, alignmentAt, List.mem_flatMap, List.mem_map] at hp
  obtain ⟨c, -, i, -, j, -, rfl⟩ := hp
  rfl

theorem versionInformation_role {v : Nat} : ∀ p ∈ versionInformation v, p.mod.role = .function := by
  intro p hp
  unfold versionInformation at hp
  split at hp
  · simp at hp
  · simp only [List.mem_flatMap, List.mem_cons, List.not_mem_nil, or_false] at hp
    obtain ⟨i, -, rfl | rfl⟩ := hp <;> rfl

/-- A placement of MX_FUNC is a FUNCTION module or one of the format reservation. -/
theorem role_of_mem_functionPlacements {v : Nat} {p : Placement} (hp : p ∈ functionPlacements v) :
    p.mod.role = .function ∨ p ∈ formatReservation (sideOf v) := by
  simp only [functionPlacements, finderPatterns, List.mem_append, List.mem_cons] at hp
  rcases hp with (((((hp | hp) | hp) | hp) | hp) | (rfl | hp)) | hp
  · exact .inl (finderAt_role p hp)
  · exact .inl (finderAt_role p hp)
  · exact .inl (finderAt_role p hp)
  · exact .inl (timingPatterns_role p hp)
  · exact .inl (alignmentPatterns_role p hp)
  · exact .inl rfl
  · exact .inr hp
  · exact .inl (versionInformation_role p hp)

theorem mem_functionPlacements_of_reservation {v : Nat} {p : Placement} (hp : p ∈ formatReservation (sideOf v)) :
    p ∈ functionPlacements v := by
  simp [functionPlacements, hp]

theorem placedAt_some {ps : List Placement} {r c : Nat} {p : Placement} (h : placedAt ps r c = some p) :
    p ∈ ps ∧ p.row = r ∧ p.col = c := by
  have := List.find?_some h
  simp only [Bool.and_eq_true, decide_eq_true_eq] at this
  exact ⟨List.mem_of_find?_eq_some h, this⟩

theorem placedAt_eq_none {ps : List Placement} {r c : Nat} :
    placedAt ps r c = none ↔ (r, c) ∉ ps.map fun p => (p.row, p.col) := by
  rw [placedAt, List.find?_eq_none]
  simp

/-- In a list of disjoint placements each is found at its own module. -/
theorem placedAt_of_mem {ps : List Placement} (hd : ps.Pairwise fun p q => ¬ (p.row = q.row ∧ p.col = q.col))
    {p : Placement} (hp : p ∈ ps) : placedAt ps p.row p.col = some p := by
  induction ps with
  | nil => simp at hp
  | cons q ps ih =>
    rw [placedAt_cons]
    rcases List.mem_cons.1 hp with rfl | hp
    · rw [if_pos ⟨rfl, rfl⟩]
    · rw [if_neg ((List.pairwise_cons.1 hd).1 p hp), ih hd.of_cons hp]

/-- A module MX_FUNC leaves EMPTY is one it does not write. -/
theorem placedModule_eq_blank {v r c : Nat} (h : (placedModule v r c).role = .empty) :
    placedAt (functionPlacements v) r c = none := by
  rw [placedModule_eq] at h
  cases e : placedAt (functionPlacements v) r c with
  | none => rfl
  | some p =>
    rw [e] at h
    rcases functionPlacements_role p (placedAt_some e).1 with hp | hp
    · cases hp.symm.trans h
    · have h : p.mod.role = .empty := h
      rw [hp] at h
      cases h

/-- R283, R290: MX_FUNC leaves the 30 format modules RESERVED, and no other. -/
theorem placedModule_reserved_iff {v : Nat} (h1 : 1 ≤ v) (h2 : v ≤ 40) {r c : Nat} :
    (placedModule v r c).role = .reserved ↔ (r, c) ∈ formatModules (sideOf v) := by
  rw [← formatReservation_modules, List.mem_map]
  constructor
  · intro h
    rw [placedModule_eq] at h
    cases e : placedAt (functionPlacements v) r c with
    | none => rw [e] at h; cases h
    | some p =>
      rw [e] at h
      obtain ⟨hp, rfl, rfl⟩ := placedAt_some e
      rcases role_of_mem_functionPlacements hp with hf | hf
      · cases hf.symm.trans h
      · exact ⟨p, hf, rfl⟩
  · rintro ⟨p, hp, e⟩
    obtain ⟨rfl, rfl⟩ := Prod.mk.inj e
    rw [placedModule_eq, placedAt_of_mem (functionPlacements_disjoint h1 h2) (mem_functionPlacements_of_reservation hp)]
    simp only [formatReservation, List.mem_flatMap, List.mem_cons, List.not_mem_nil, or_false] at hp
    obtain ⟨i, -, rfl | rfl⟩ := hp <;> rfl

/-- The zigzag reaches every module MX_FUNC leaves EMPTY. -/
theorem mem_zigzagAll_of_empty {v : Nat} (h1 : 1 ≤ v) (h2 : v ≤ 40) {r c : Nat} (hr : r < sideOf v) (hc : c < sideOf v)
    (h : (placedModule v r c).role = .empty) : (r, c) ∈ zigzagAll (sideOf v) := by
  refine (mem_zigzagAll h1).2 ⟨hr, hc, ?_⟩
  rintro (rfl : c = 6)
  obtain ⟨p, hp, rfl, hcol⟩ := functionPlacements_column h1 h2 r hr
  have := placedAt_eq_none.1 (placedModule_eq_blank h)
  exact this (List.mem_map.2 ⟨p, hp, by rw [hcol]⟩)

/-! ### What mx.place and a mask do to a module -/

/-- R299: a module that is not EMPTY stays, an EMPTY one outside column 6 becomes a DATA module. -/
theorem placeBits_zigzag {v : Nat} (h1 : 1 ≤ v) {g : Grid} (hg : g.Square (sideOf v)) (bs : List Bool) :
    Grid.Square (sideOf v) (placeBits g (zigzag (sideOf v) g) bs) ∧
    ∀ r c, ((g.get r c).role ≠ .empty → (placeBits g (zigzag (sideOf v) g) bs).get r c = g.get r c) ∧
      ((g.get r c).role = .empty → (r, c) ∈ zigzagAll (sideOf v) →
        ((placeBits g (zigzag (sideOf v) g) bs).get r c).role = .data) := by
  have hin : ∀ p ∈ zigzag (sideOf v) g, p.1 < sideOf v ∧ p.2 < sideOf v := fun p hp => by
    obtain ⟨hr, hc, -⟩ := (mem_zigzagAll h1).1 (List.mem_of_mem_filter hp)
    exact ⟨hr, hc⟩
  obtain ⟨hsq, hpath, hother⟩ := placeBits_spec hg hin ((nodup_zigzagAll h1).filter _) bs
  refine ⟨hsq, fun r c => ⟨fun hne => hother r c (by simp [zigzag, hne]), fun he hz => ?_⟩⟩
  obtain ⟨k, hk, e⟩ := List.mem_iff_getElem.1 (show (r, c) ∈ zigzag (sideOf v) g by simp [zigzag, hz, he])
  have := hpath k hk
  rw [e] at this
  rw [this]

theorem maskModule_role (m i j : Nat) (x : Module) : (maskModule m i j x).role = x.role := by
  unfold maskModule
  split <;> rfl

theorem maskModule_of_ne_data {m i j : Nat} {x : Module} (h : x.role ≠ .data) : maskModule m i j x = x := by
  rw [maskModule, if_neg fun e => h e.1]

/-- R302: a masked grid's format modules are FUNCTION modules; R331: at any other module the mask acts. -/
theorem maskedGrid_get {v : Nat} (h1 : 1 ≤ v) (h2 : v ≤ 40) (l : Level) (m : Nat) {g : Grid} (hg : g.Square (sideOf v))
    {r c : Nat} (hr : r < sideOf v) (hc : c < sideOf v) :
    ((r, c) ∈ formatModules (sideOf v) → ((maskedGrid (sideOf v) l m g).get r c).role = .function) ∧
    ((r, c) ∉ formatModules (sideOf v) → (maskedGrid (sideOf v) l m g).get r c = maskModule m r c (g.get r c)) := by
  rw [(maskedGrid_spec h1 h2 l m hg).2 r hr c hc, ← formatPlacements_modules _ l m]
  constructor
  · intro h
    cases e : placedAt (formatPlacements (sideOf v) l m) r c with
    | none => exact absurd h (placedAt_eq_none.1 e)
    | some p =>
      have hp := (placedAt_some e).1
      simp only [formatPlacements, List.mem_flatMap, List.mem_cons, List.not_mem_nil, or_false] at hp
      obtain ⟨i, -, rfl | rfl⟩ := hp <;> rfl
  · intro h
    rw [placedAt_eq_none.2 h]
    rfl

/-! ### From stage to stage -/

/-- MX_PLACE (R299): EMPTY modules become DATA modules, the others stay. -/
theorem ModuleOk.place {p : Phase} {placed m m' : Module} (h : ModuleOk p placed m) (hp : p.p = true)
    (hd : p.d = false) (hk : p.k = false) (hstay : m.role ≠ .empty → m' = m)
    (hdata : m.role = .empty → placed.role = .empty → m'.role = .data) : ModuleOk { p with d := true } placed m' := by
  obtain ⟨-, hfun, hres, hemp⟩ := h
  have stays : m = placed → placed.role ≠ .empty → m' = placed := by
    rintro rfl hne
    exact hstay hne
  refine ⟨fun hp' => ?_, fun _ hf => ?_, fun _ hr => ⟨fun _ => ?_, fun hk' => ?_⟩, fun _ he => ⟨nofun, fun _ => ?_⟩⟩
  · cases hp.symm.trans hp'
  · exact stays (hfun hp hf) (by rw [hf]; decide)
  · exact stays ((hres hp hr).1 hk) (by rw [hr]; decide)
  · cases hk.symm.trans hk'
  · exact hdata (by rw [(hemp hp he).1 hd]; rfl) he

/-- A mask and its format write (R302, R331): RESERVED modules become FUNCTION modules, the mask acts on the others. -/
theorem ModuleOk.mask {p : Phase} {placed m m' : Module} {i r c : Nat} (h : ModuleOk p placed m) (hp : p.p = true)
    (hd : p.d = true) (hformat : placed.role = .reserved → m'.role = .function)
    (hother : placed.role ≠ .reserved → m' = maskModule i r c m) : ModuleOk { p with k := true } placed m' := by
  obtain ⟨-, hfun, -, hemp⟩ := h
  refine ⟨fun hp' => ?_, fun _ hf => ?_, fun _ hr => ⟨nofun, fun _ => hformat hr⟩,
    fun _ he => ⟨fun hd' => ?_, fun _ => ?_⟩⟩
  · cases hp.symm.trans hp'
  · obtain rfl := hfun hp hf
    rw [hother (by rw [hf]; decide), maskModule_of_ne_data (by rw [hf]; decide)]
  · cases hd.symm.trans hd'
  · rw [hother (by rw [he]; decide), maskModule_role, (hemp hp he).2 hd]

/-! ### Writing the matrix back -/

/-- The grid of an initialised matrix is square and holds the modules the invariant speaks of. -/
theorem State.Inv.grid {s : State} (h : s.Inv) (hm : s.phase.m = true) :
    Grid.Square (sideOf s.result.version.toNat) s.grid ∧
    ∀ r, r < sideOf s.result.version.toNat → ∀ c, c < sideOf s.result.version.toNat →
      ModuleOk s.phase (placedModule s.result.version.toNat r c) (s.grid.get r c) := by
  have hN := h.side_le (h.v_of_m hm)
  refine ⟨s.grid_square hN, fun r hr c hc => ?_⟩
  rw [s.grid_get h.memory.1 hr hc hN]
  exact h.matrix hm r hr c hc

/-- The invariant after a grid at the stage of the flags P, D and K is written back. -/
theorem State.Inv.setGrid {s : State} (h : s.Inv) (hm : s.phase.m = true) {p d k : Bool}
    (hkd : k = true → d = true) (hdp : d = true → p = true) {g : Grid}
    (hg : Grid.Square (sideOf s.result.version.toNat) g)
    (hok : ∀ r, r < sideOf s.result.version.toNat → ∀ c, c < sideOf s.result.version.toNat →
      ModuleOk { s.phase with p := p, d := d, k := k } (placedModule s.result.version.toNat r c) (g.get r c)) :
    ({ s.setGrid g with phase := { s.phase with p := p, d := d, k := k } } : State).Inv := by
  obtain ⟨hcf, hfv, -, -, -, hmv⟩ := h.phase
  have hN := h.side_le (h.v_of_m hm)
  refine ⟨State.memoryOk_setGrid h.memory hN hg, h.status, ⟨hcf, hfv, hkd, hdp, fun _ => hm, hmv⟩, h.symbol, h.stream,
    fun _ r hr c hc => ?_, fun _ i hi hout => ?_⟩
  · have := hok r hr c hc
    rwa [← State.moduleAt_setGrid h.memory hN hg hr hc] at this
  · refine (State.buf_setGrid h.memory hN hg .mx hi).trans ?_
    rw [if_neg fun e => hout e.2]
    exact h.margin hm i hi hout

/-! ### The bodies -/

theorem mxInitBody_inv {s t : State} (h : s.Inv) (e : mxInitBody s = .ok t) : t.Inv := by
  obtain ⟨hv, rfl⟩ := mxInitBody_ok e
  obtain ⟨hcf, hfv, -⟩ := h.phase
  have hfit : 0 + (List.replicate 31329 (0 : Byte)).length ≤ Region.size .mx := by rw [List.length_replicate]; decide
  have zero : ∀ i, i < 31329 → (s.setBytes .mx 0 (List.replicate 31329 0)).buf .mx i = 0 := fun i hi => by
    rw [State.buf_setBytes s h.memory.1 hfit hi, if_pos ⟨rfl, Nat.zero_le _⟩, Nat.sub_zero,
      List.getElem?_replicate_of_lt hi, Option.getD_some]
  refine ⟨State.memoryOk_setBytes h.memory hfit fun _ b hb => ?_, h.status,
    ⟨hcf, hfv, nofun, nofun, nofun, fun _ => hv⟩, h.symbol, h.stream, fun _ r hr c hc => ⟨fun _ => ?_, nofun, nofun, nofun⟩,
    fun _ i hi _ => zero i hi⟩
  · rw [List.eq_of_mem_replicate hb]
    decide
  · exact congrArg Module.ofByte (zero _ (moduleIndex_lt (h.side_le hv) hr hc))

theorem mxFuncBody_inv {s t : State} (h : s.Inv) (e : mxFuncBody s = .ok t) : t.Inv := by
  obtain ⟨hm, hp, g, hplace, rfl⟩ := mxFuncBody_ok e
  obtain ⟨h1, h2⟩ := h.version_bounds (h.v_of_m hm)
  obtain ⟨hsq, hstage⟩ := h.grid hm
  obtain ⟨g', hplace', hsq', hget⟩ := placeAll_blank h1 h2 hsq fun r hr c hc => (hstage r hr c hc).1 hp
  obtain rfl : g = g' := Except.ok.inj (hplace.symm.trans hplace')
  have hd : s.phase.d = false := Bool.eq_false_iff.2 fun hd => by cases hp.symm.trans (h.p_of_d hd)
  have hk : s.phase.k = false := Bool.eq_false_iff.2 fun hk => by cases hd.symm.trans (h.d_of_k hk)
  refine h.setGrid hm (p := true) (d := s.phase.d) (k := s.phase.k) h.d_of_k (fun _ => rfl) hsq' fun r hr c hc => ?_
  rw [hget r hr c hc, hd, hk]
  refine ⟨nofun, fun _ _ => rfl, fun _ _ => ⟨fun _ => rfl, nofun⟩, fun _ he => ⟨fun _ => ?_, nofun⟩⟩
  rw [placedModule_eq, placedModule_eq_blank he]
  rfl

theorem mxPlaceBody_inv {s t : State} (h : s.Inv) (e : mxPlaceBody s = .ok t) : t.Inv := by
  obtain ⟨hp, -, hd, rfl⟩ := mxPlaceBody_ok e
  have hm := h.m_of_p hp
  obtain ⟨h1, h2⟩ := h.version_bounds (h.v_of_m hm)
  obtain ⟨hsq, hstage⟩ := h.grid hm
  obtain ⟨hsq', hget⟩ := placeBits_zigzag h1 hsq (placementBits (s.bytes .fcw 0 s.result.totalCw.toNat)
    (remainderBits s.result.version.toNat))
  have hk : s.phase.k = false := Bool.eq_false_iff.2 fun hk => by cases hd.symm.trans (h.d_of_k hk)
  refine h.setGrid hm (p := s.phase.p) (d := true) (k := s.phase.k) (fun _ => rfl) (fun _ => hp) hsq' fun r hr c hc => ?_
  obtain ⟨hstay, hdata⟩ := hget r c
  exact (hstage r hr c hc).place hp hd hk hstay fun hne he => hdata hne (mem_zigzagAll_of_empty h1 h2 hr hc he)

theorem commitMask_inv {s : State} (h : s.Inv) (hd : s.phase.d = true) (m : Nat) :
    (s.commitMask m).Inv := by
  have hp := h.p_of_d hd
  have hm := h.m_of_p hp
  obtain ⟨h1, h2⟩ := h.version_bounds (h.v_of_m hm)
  obtain ⟨hsq, hstage⟩ := h.grid hm
  have masked := h.setGrid hm (p := s.phase.p) (d := s.phase.d) (k := true) (fun _ => hd) h.p_of_d
    (maskedGrid_spec h1 h2 s.level m hsq).1 fun r hr c hc => by
      obtain ⟨hformat, hother⟩ := maskedGrid_get h1 h2 s.level m hsq hr hc
      rw [← placedModule_reserved_iff h1 h2] at hformat hother
      exact (hstage r hr c hc).mask hp hd hformat hother
  exact masked.congr rfl

/-- No penalty register is read by the invariant. -/
theorem State.Inv.withScore {s : State} (h : s.Inv) (x : Score) (totals : Vector Word 8) :
    ({ s with result := { s.result.withScore x with penalty := totals } } : State).Inv :=
  h.congr rfl

theorem maskEvalBody_inv {m : Nat} {s t : State} (h : s.Inv) (e : maskEvalBody m s = .ok t) : t.Inv := by
  obtain ⟨-, -, -, rfl⟩ := maskEvalBody_ok e
  exact h.withScore _ _

theorem maskSelectBody_inv {s t : State} (h : s.Inv) (e : maskSelectBody s = .ok t) : t.Inv := by
  obtain ⟨hd, -, rfl⟩ := maskSelectBody_ok e
  have committed := commitMask_inv h hd s.bestMask
  exact committed.withScore _ _

theorem maskApplyBody_inv {m : Nat} {s t : State} (h : s.Inv) (e : maskApplyBody m s = .ok t) : t.Inv := by
  obtain ⟨hd, -, -, rfl⟩ := maskApplyBody_ok e
  exact commitMask_inv h hd m

end Sys2Proof.Machine
end

section
/-! PROOFS. Every step keeps the invariant (O3): every body does, so both ways a command completes do; and so do the
host's accesses and the resets. -/

namespace Sys2Proof.Machine

open Sys2Proof

/-! ### Commands -/

theorem encodeBody_inv {s t : State} (h : s.Inv) (e : encodeBody s = .ok t) : t.Inv := by
  obtain ⟨u1, u2, u3, u4, u5, u6, u7, u8, e1, e2, e3, e4, e5, e6, e7, e8, e9⟩ := encodeBody_ok e
  have h3 := bsSegAll_inv (bsClearBody_inv (vselBody_inv h e1) e2) e3
  have h6 := mxInitBody_inv (ileaveBody_inv (bsFinishBody_inv h3 e4) e5) e6
  exact maskSelectBody_inv (mxPlaceBody_inv (mxFuncBody_inv h6 e7) e8) e9

/-- A body that succeeds keeps the invariant. -/
theorem bodyOf_inv {i : Instr} {s t : State} (h : s.Inv) (e : bodyOf i s = .ok t) : t.Inv := by
  cases i with
  | nop => cases e; exact h
  | encode => exact encodeBody_inv h e
  | gfMul => cases e; exact h.congr rfl
  | gfPow => cases e; exact h.congr rfl
  | gfLog => obtain ⟨-, rfl⟩ := gfLogBody_ok e; exact h.congr rfl
  | gfExp => cases e; exact h.congr rfl
  | vsel => exact vselBody_inv h e
  | bsClear => exact bsClearBody_inv h e
  | bsAppend n => exact bsAppendBody_inv h e
  | bsSeg i => exact bsSegBody_inv h e
  | bsFinish => exact bsFinishBody_inv h e
  | rsGen => exact rsGenBody_inv h e
  | rsEnc => exact rsEncBody_inv h e
  | ileave => exact ileaveBody_inv h e
  | mxInit => exact mxInitBody_inv h e
  | mxFunc => exact mxFuncBody_inv h e
  | mxPlace => exact mxPlaceBody_inv h e
  | bchFmt sel => obtain rfl := bchFmtBody_ok e; exact h.congr rfl
  | bchVer v => obtain rfl := bchVerBody_ok e; exact h.congr rfl
  | maskEval m => exact maskEvalBody_inv h e
  | maskSelect => exact maskSelectBody_inv h e
  | maskApply m => exact maskApplyBody_inv h e

/-- R405: while BUSY the record is clear, so a completion without error leaves DONE alone. -/
theorem State.Inv.completeOk {s : State} (h : s.Inv) (hb : s.busy = true) : s.completeOk.Inv := by
  obtain ⟨-, herr, hcode, hinfo⟩ := h.status.1 hb
  refine ⟨h.memory, ⟨nofun, fun _ => ⟨herr, hcode, hinfo⟩, fun he => ?_, h.status.2.2.2⟩, h.phase, h.symbol, h.stream,
    h.matrix, h.margin⟩
  cases herr.symm.trans he

theorem ErrorKind.code_ok (k : ErrorKind) : k.code ≠ 0 ∧ k.code ∈ errorCodes := by
  cases k <;> decide

/-- R402: a completion with an error leaves ERR and a code of R401. -/
theorem State.Inv.completeError {s : State} (h : s.Inv) (hb : s.busy = true) (e : CommandError) :
    (s.completeError e).Inv := by
  obtain ⟨hdone, -⟩ := h.status.1 hb
  refine ⟨h.memory, ⟨nofun, fun hd => ?_, fun _ => e.kind.code_ok.1, e.kind.code_ok.2⟩, h.phase, h.symbol, h.stream,
    h.matrix, h.margin⟩
  cases hdone.symm.trans hd

/-- The engine's turn completes the command in flight, with or without error, or is idle. -/
theorem engineTurn_inv {s t : State} (h : s.Inv) (e : engineTurn s = .next t) : t.Inv := by
  cases hl : s.latch with
  | none =>
    obtain rfl := Host.Outcome.next.inj ((engineTurn_none hl).symm.trans e)
    exact h
  | some w =>
    have hb : s.busy = true := by rw [State.busy, hl]; rfl
    cases hd : decode w with
    | error r =>
      obtain rfl := Host.Outcome.next.inj ((engineTurn_error hl hd).symm.trans e)
      exact h.completeError hb _
    | ok i =>
      rw [engineTurn_ok hl hd, exec_eq_finish] at e
      obtain ⟨u, hu, rfl⟩ | ⟨err, -, rfl⟩ := finish_cases e
      · have hbu : u.busy = true := by rw [bodyOf_frame hu]; exact hb
        exact (bodyOf_inv h hu).completeOk hbu
      · exact h.completeError hb err

/-! ### The host's accesses -/

theorem State.Inv.busRead {s : State} (h : s.Inv) (a : Addr) (n : Width) : (s.busRead a n).Inv := by
  unfold State.busRead
  split <;> exact h.congr rfl

theorem State.Inv.accept {s : State} (h : s.Inv) (w : Word) : (s.accept w).Inv :=
  ⟨h.memory, ⟨fun _ => ⟨rfl, rfl, rfl, rfl⟩, nofun, nofun, List.mem_cons_self⟩, h.phase, h.symbol, h.stream, h.matrix,
    h.margin⟩

/-- Clearing DONE and ERR keeps the status record. -/
theorem State.Inv.writeStatus {s : State} (h : s.Inv) (v : Word) : (s.writeStatus v).Inv := by
  obtain ⟨hbusy, hdone, herr, hcode⟩ := h.status
  refine ⟨h.memory, ⟨fun hb => ?_, fun hd => ?_, fun he => ?_, hcode⟩, h.phase, h.symbol, h.stream, h.matrix, h.margin⟩
  · obtain ⟨hd, he, hrest⟩ := hbusy hb
    exact ⟨by simp [hd], by simp [he], hrest⟩
  · obtain ⟨he, hrest⟩ := hdone (Bool.and_eq_true_iff.1 hd).1
    exact ⟨by simp [he], hrest⟩
  · exact herr (Bool.and_eq_true_iff.1 he).1

theorem State.Inv.writeCtrl {s : State} (h : s.Inv) (v : Word) : (s.writeCtrl v).Inv := by
  unfold State.writeCtrl
  split
  · exact h.resetKeepingRam
  · exact h.congr rfl

theorem State.Inv.writeRegister {s : State} (h : s.Inv) (offset : Nat) (v : Word) : (s.writeRegister offset v).Inv := by
  unfold State.writeRegister
  split
  case h_1 => exact h.writeCtrl v
  case h_2 => exact h.writeStatus v
  case h_3 => exact h.accept v
  all_goals exact h.congr rfl

/-- The host writes SEGTAB, INBUF and DCW only (R86), never MX. -/
theorem State.Inv.writeByte {s : State} (h : s.Inv) (a : Nat) (b : Byte) : (s.writeByte a b).Inv := by
  unfold State.writeByte
  split
  · next g hg =>
    split
    · next hw =>
      obtain ⟨h1, h2⟩ := regionAt_some hg
      have cell : cellsFrom (g.base + (a - g.base)) [b] = [(a, b)] := by
        rw [show g.base + (a - g.base) = a by omega]; rfl
      rw [← cell]
      exact h.setBytes (by rintro rfl; cases hw) (by rw [List.length_singleton]; omega)
    · exact h
  · exact h

theorem State.Inv.writeBytes {s : State} (h : s.Inv) (a : Nat) (bs : List Byte) : (s.writeBytes a bs).Inv := by
  induction bs generalizing s a with
  | nil => exact h
  | cons b bs ih => exact ih (h.writeByte a b) (a + 1)

theorem State.Inv.setPort {s : State} (h : s.Inv) (p : Option Word) : (s.setPort p).Inv := h.congr rfl

theorem State.Inv.busWrite {s : State} (h : s.Inv) (a : Addr) (n : Width) (v : Word) : (s.busWrite a n v).Inv := by
  rw [busWrite_cases]
  split
  · exact h.congr rfl
  split
  · exact (h.writeRegister _ v).setPort none
  · exact (h.writeBytes _ _).setPort none

/-! ### Steps -/

theorem eventTurn_inv {ev : BusEvent} {s t : State} (h : s.Inv) (e : eventTurn ev s = .next t) : t.Inv := by
  unfold eventTurn at e
  split at e
  case h_1 => exact engineTurn_inv h e
  case h_2 a n =>
    split at e
    · cases e
    · cases e; exact h.busRead a n
  case h_3 a n v =>
    split at e
    · cases e
    · cases e; exact h.busWrite a n v
  case h_4 => cases e; exact h.resetKeepingRam.setPort none
  case h_5 => cases e; exact h.powerOn.setPort none

/-- Settles O3: the step is the engine's turn or one event of the host or the platform, and each keeps the invariant. -/
theorem stepKeepsInvariant : Obligations.StepKeepsInvariant := by
  unfold Obligations.StepKeepsInvariant
  intro s t h e
  rw [step] at e
  split at e
  · exact engineTurn_inv h e
  · next ev rest _ => exact eventTurn_inv (s := { s with inbox := rest }) (h.congr rfl) e

end Sys2Proof.Machine
end

section
/-! PROOFS. Host writes to the register block (10_state.md R33, R34, R38): what STATUS, CMD and the operand registers
take from the written word, and that nothing else changes. -/

namespace Sys2Proof.Machine

open Sys2Proof

/-- An aligned 4-byte write is no bus error (R84). -/
theorem step_wordWrite {s : State} {a : Addr} {v : Word} {rest : List BusEvent}
    (h : s.inbox = .write a .four v :: rest) (h4 : a.toNat % 4 = 0) :
    step s = .next (({ s with inbox := rest } : State).busWrite a .four v) := by
  have ok : accessError a .four = false := (accessError_false_iff a .four).2 ⟨h4, fun _ => rfl⟩
  rw [step_write h, ok]
  rfl

/-- A write that reaches the register block (R88, R90). -/
theorem step_registerWrite {s : State} {a : Addr} {v : Word} {rest : List BusEvent}
    (h : s.inbox = .write a .four v :: rest) (h4 : a.toNat % 4 = 0) (ha : a.toNat < 0x100)
    (hw : s.busy = false ∨ writableWhileBusy a.toNat = true) :
    step s = .next ((({ s with inbox := rest } : State).writeRegister a.toNat v).setPort none) := by
  rw [step_wordWrite h h4, busWrite_cases, if_neg, if_pos ha]
  rintro ⟨hb, hw'⟩
  rcases hw with hw | hw
  · cases hw.symm.trans hb
  · cases hw.symm.trans hw'

/-! ### CMD (R34) -/

/-- Settles O5: the write is an acceptance, or the bus drops it. -/
theorem cmdWriteIssuesCommand : Obligations.CmdWriteIssuesCommand := by
  unfold Obligations.CmdWriteIssuesCommand
  intro s w rest h
  refine ⟨fun hb => ?_, fun hb => ?_, rfl⟩
  · exact ⟨_, step_registerWrite h (by decide) (by decide) (.inl hb), rfl, rfl⟩
  · rw [step_wordWrite h (by decide), busWrite_cases, if_pos ⟨hb, by decide⟩]
    rfl

/-! ### STATUS (R33) -/

theorem statusWord_toNat (s : State) :
    s.statusWord.toNat = s.busy.toNat + 2 * s.done.toNat + 4 * s.err.toNat + 8 * s.ovr.toNat := by
  rw [State.statusWord]
  cases s.busy <;> cases s.done <;> cases s.err <;> cases s.ovr <;> rfl

/-- A flag survives a write that clears it on 1 exactly when the written bit is 0. -/
theorem and_not_getLsbD_iff (b : Bool) (v : Word) (i : Nat) :
    (b && !v.getLsbD i) = true ↔ b = true ∧ v.toNat / 2 ^ i % 2 = 0 := by
  rw [BitVec.getLsbD, Nat.testBit_eq_decide_div_mod_eq]
  simp

/-- Settles O15: STATUS is writable also while BUSY, and each flag is cleared by its own bit. -/
theorem statusIsWriteOneToClear : Obligations.StatusIsWriteOneToClear := by
  unfold Obligations.StatusIsWriteOneToClear
  intro s v rest h
  exact ⟨statusWord_toNat s, _, step_registerWrite h (by decide) (by decide) (.inr (by decide)), rfl,
    and_not_getLsbD_iff s.done v 1, and_not_getLsbD_iff s.err v 2, and_not_getLsbD_iff s.ovr v 3, rfl⟩

/-! ### The operand registers (R38) -/

/-- The operand registers: the offset of each and the number of its bits (10_state.md section 2). -/
def operandRegisters : List (Nat × Nat) :=
  [(0x020, 8), (0x024, 8), (0x028, 8), (0x030, 2), (0x034, 6), (0x038, 5), (0x03C, 32), (0x040, 8), (0x044, 8),
    (0x048, 12)]

theorem operandRegisters_fit : ∀ reg ∈ operandRegisters, reg.1 % 4 = 0 ∧ reg.1 < 0x100 ∧ reg.2 ≤ 32 := by decide

theorem writeRegister_operand_frame (s : State) (v : Word) {reg : Nat × Nat} (h : reg ∈ operandRegisters) :
    s.writeRegister reg.1 v = s.setOperand (s.writeRegister reg.1 v).operand := by
  fin_cases h <;> rfl

/-- An operand register reads back the bits it has of the written word. -/
theorem readRegister_writeRegister_operand (s : State) (v : Word) {reg : Nat × Nat} (h : reg ∈ operandRegisters) :
    (s.writeRegister reg.1 v).readRegister reg.1 = (v.setWidth reg.2).setWidth 32 := by
  fin_cases h
  pick_goal 7 -- BS_VALUE, which stores the whole word
  · exact (BitVec.setWidth_eq v).symm
  all_goals rfl

/-- Every other register reads as before. -/
theorem readRegister_writeRegister_operand_of_ne (s : State) (v : Word) {reg : Nat × Nat} (h : reg ∈ operandRegisters)
    {x : Nat} (hx : x ≠ reg.1) : (s.writeRegister reg.1 v).readRegister x = s.readRegister x := by
  fin_cases h <;> (unfold State.readRegister; split <;> trivial)

/-- Settles O13: the write replaces the operand register it names, and no other one is read from it. -/
theorem operandRegisterWrites : Obligations.OperandRegisterWrites := by
  unfold Obligations.OperandRegisterWrites
  intro s a v rest bits hreg hb h
  have hreg : (a.toNat, bits) ∈ operandRegisters := hreg
  obtain ⟨h4, ha, hbits⟩ := operandRegisters_fit _ hreg
  refine ⟨_, step_registerWrite h h4 ha (.inl hb), ?_, fun x hx => ?_, ?_⟩
  · have read := congrArg BitVec.toNat (readRegister_writeRegister_operand { s with inbox := rest } v hreg)
    rwa [BitVec.toNat_setWidth_of_le hbits, BitVec.toNat_setWidth] at read
  · exact readRegister_writeRegister_operand_of_ne { s with inbox := rest } v hreg hx
  · rw [writeRegister_operand_frame { s with inbox := rest } v hreg]
    rfl

end Sys2Proof.Machine
end

section
/-! PROOFS. Which host accesses are bus errors, and what the bus answers to the others, idle and while BUSY
(20_memory.md R84, R87 to R90). -/

namespace Sys2Proof.Machine

open Sys2Proof

/-! ### Which accesses are no bus errors (R84) -/

theorem accessError_word {a : Addr} (h4 : a.toNat % 4 = 0) : accessError a .four = false :=
  (accessError_false_iff a .four).2 ⟨h4, fun _ => rfl⟩

theorem accessError_memory {a : Addr} {n : Width} (ha : 0x100 ≤ a.toNat) (hn : a.toNat % n.bytes = 0) :
    accessError a n = false :=
  (accessError_false_iff a n).2 ⟨hn, fun hlt => absurd hlt (by omega)⟩

/-- In the register block only an aligned 4-byte access is none. -/
theorem four_of_no_accessError {a : Addr} {n : Width} (he : accessError a n = false) (ha : a.toNat < 0x100) :
    n = .four ∧ a.toNat % 4 = 0 := by
  obtain ⟨h4, hn⟩ := (accessError_false_iff a n).1 he
  obtain rfl := hn ha
  exact ⟨rfl, h4⟩

/-! ### One step of the host (R88) -/

theorem step_read_error {s : State} {a : Addr} {n : Width} {rest : List BusEvent} (h : s.inbox = .read a n :: rest)
    (he : accessError a n = true) : step s = .fault (.busError a n) := by
  rw [step_read h, if_pos he]

theorem step_read_next {s : State} {a : Addr} {n : Width} {rest : List BusEvent} (h : s.inbox = .read a n :: rest)
    (he : accessError a n = false) : step s = .next (({ s with inbox := rest } : State).busRead a n) := by
  rw [step_read h, if_neg (Bool.eq_false_iff.1 he)]

theorem step_write_error {s : State} {a : Addr} {n : Width} {v : Word} {rest : List BusEvent}
    (h : s.inbox = .write a n v :: rest) (he : accessError a n = true) : step s = .fault (.busError a n) := by
  rw [step_write h, if_pos he]

theorem step_write_next {s : State} {a : Addr} {n : Width} {v : Word} {rest : List BusEvent}
    (h : s.inbox = .write a n v :: rest) (he : accessError a n = false) :
    step s = .next (({ s with inbox := rest } : State).busWrite a n v) := by
  rw [step_write h, if_neg (Bool.eq_false_iff.1 he)]

/-- A host access is a bus error or has a next state (R89). -/
theorem step_access {s : State} {a : Addr} {n : Width} {rest : List BusEvent}
    (h : s.inbox = .read a n :: rest ∨ ∃ v, s.inbox = .write a n v :: rest) :
    (accessError a n = true → step s = .fault (.busError a n)) ∧
      (accessError a n = false → ∃ t, step s = .next t) := by
  rcases h with h | ⟨v, h⟩
  · exact ⟨step_read_error h, fun he => ⟨_, step_read_next h he⟩⟩
  · exact ⟨step_write_error h, fun he => ⟨_, step_write_next h he⟩⟩

/-- Settles O10: each clause is a case of the condition for a bus error. -/
theorem registerBlockBusErrors : Obligations.RegisterBlockBusErrors := by
  unfold Obligations.RegisterBlockBusErrors
  intro s a n rest h
  obtain ⟨hfault, hnext⟩ := step_access h
  refine ⟨fun ha hbad => hfault ((accessError_iff a n).2 ?_), ?_,
    fun ha hbad => hfault ((accessError_iff a n).2 (.inl hbad)), fun ha hok => hnext (accessError_memory ha hok)⟩
  · by_cases hn : n = .four
    · subst hn
      exact .inl (hbad.resolve_left (· rfl))
    · exact .inr ⟨ha, hn⟩
  · rintro - rfl h4
    exact hnext (accessError_word h4)

/-! ### What a read is answered with (R88, R90) -/

theorem readableWhileBusy_iff (a : Nat) : readableWhileBusy a = true ↔ a ∈ [0x000, 0x004, 0x008] := by
  simp [readableWhileBusy, or_assoc]

theorem writableWhileBusy_iff (a : Nat) : writableWhileBusy a = true ↔ a ∈ [0x004, 0x008] := by
  simp [writableWhileBusy]

theorem State.readBytes_inbox (s : State) (events : List BusEvent) (a n : Nat) :
    ({ s with inbox := events } : State).readBytes a n = s.readBytes a n := by
  induction n generalizing a with
  | zero => rfl
  | succ n ih => exact congrArg (s.readByte a :: ·) (ih (a + 1))

/-- What is read does not depend on what the host does next. -/
theorem State.busValue_inbox (s : State) (events : List BusEvent) (a : Nat) (n : Width) :
    ({ s with inbox := events } : State).busValue a n = s.busValue a n := by
  rw [State.busValue, State.readBytes_inbox]
  rfl

/-- A read that reaches what it names changes nothing else (R87). -/
theorem step_read_value {s : State} {a : Addr} {n : Width} {rest : List BusEvent} (h : s.inbox = .read a n :: rest)
    (he : accessError a n = false) (hr : s.busy = false ∨ readableWhileBusy a.toNat = true) :
    step s = .next { s with inbox := rest, port := some (s.busValue a.toNat n) } := by
  rw [step_read_next h he, State.busRead, if_neg, State.busValue_inbox]
  · rfl
  · change ¬ (s.busy && !readableWhileBusy a.toNat) = true
    rcases hr with hr | hr <;> simp [hr]

/-- Any other read takes the next draw. -/
theorem step_read_draw {s : State} {a : Addr} {n : Width} {rest : List BusEvent} (h : s.inbox = .read a n :: rest)
    (he : accessError a n = false) (hb : s.busy = true) (hr : readableWhileBusy a.toNat = false) :
    step s = .next { s with inbox := rest, port := some (lowBytes n (Config.busyRead s.draws)),
                            draws := s.draws + 1 } := by
  rw [step_read_next h he, State.busRead, if_pos]
  · rfl
  · change (s.busy && !readableWhileBusy a.toNat) = true
    simp [hb, hr]

theorem State.busValue_register (s : State) {a : Nat} (n : Width) (h : a < 0x100) :
    s.busValue a n = s.readRegister a := if_pos h

theorem State.busValue_memory (s : State) {a : Nat} (n : Width) (h : 0x100 ≤ a) :
    s.busValue a n = BitVec.ofNat 32 (leValue (s.readBytes a n.bytes)) := if_neg (by omega)

/-- A write that is served while BUSY: to CTRL or STATUS (R90). -/
theorem step_write_served {s : State} {a : Addr} {n : Width} {v : Word} {rest : List BusEvent}
    (h : s.inbox = .write a n v :: rest) (he : accessError a n = false) (hw : a.toNat ∈ [0x004, 0x008]) :
    step s = .next ((({ s with inbox := rest } : State).writeRegister a.toNat v).setPort none) := by
  have ha : a.toNat < 0x100 := (by decide : ∀ x ∈ [0x004, 0x008], x < 0x100) _ hw
  obtain ⟨rfl, h4⟩ := four_of_no_accessError he ha
  exact step_registerWrite h h4 ha (.inr ((writableWhileBusy_iff _).2 hw))

/-- Settles O11: the bus errors come first, and the other accesses by whether they are served while BUSY. -/
theorem accessWhileBusy : Obligations.AccessWhileBusy := by
  unfold Obligations.AccessWhileBusy
  intro s a n v rest hb
  refine ⟨fun h => ⟨step_read_error h, fun he ha => ?_, fun he ha => ?_⟩,
    fun h => ⟨step_write_error h, fun he ha => ?_, fun he ha => ?_, fun he ha => ?_⟩⟩
  · have hblock : a.toNat < 0x100 := (by decide : ∀ x ∈ [0x000, 0x004, 0x008], x < 0x100) _ ha
    rw [step_read_value h he (.inr ((readableWhileBusy_iff _).2 ha)), s.busValue_register n hblock]
  · exact step_read_draw h he hb (Bool.eq_false_iff.2 (mt (readableWhileBusy_iff _).1 ha))
  · rw [step_write_served h he (by simp [ha]), ha]
    rfl
  · rw [step_write_served h he (by simp [ha]), ha]
    rfl
  · have hw : writableWhileBusy a.toNat = false := Bool.eq_false_iff.2 (mt (writableWhileBusy_iff _).1 ha)
    rw [step_write_next h he, busWrite_cases, if_pos ⟨hb, hw⟩]
    rfl

/-! ### The register map as it reads (10_state.md section 2) -/

/-- The offsets of the register block that hold a register (R31 to R62). -/
def registerOffsets : List Nat :=
  [0x000, 0x004, 0x008, 0x00C, 0x010, 0x014, 0x018, 0x020, 0x024, 0x028, 0x02C, 0x030, 0x034, 0x038, 0x03C, 0x040,
    0x044, 0x048, 0x04C, 0x050, 0x054, 0x058, 0x05C, 0x060, 0x064, 0x068, 0x06C, 0x070, 0x074, 0x078, 0x07C, 0x080,
    0x0A0, 0x0A4, 0x0A8, 0x0AC, 0x0B0, 0x0B4, 0x0B8, 0x0BC]

/-- A reserved offset reads 0 (R85). -/
theorem State.readRegister_reserved (s : State) {offset : Nat} (h : offset ∉ registerOffsets) :
    s.readRegister offset = 0 := by
  unfold State.readRegister
  split
  case h_40 => rfl
  all_goals exact absurd (by decide) h

theorem State.ctrlWord_toNat (s : State) : s.ctrlWord.toNat = s.irqEn.toNat := by
  rw [State.ctrlWord]
  cases s.irqEn <;> rfl

/-- PHASE is the sum of its flags, each at its own bit (R37). -/
theorem Phase.word_toNat (p : Phase) :
    p.word.toNat = p.v.toNat + 2 * p.f.toNat + 4 * p.c.toNat + 8 * p.m.toNat + 16 * p.p.toNat + 32 * p.d.toNat +
      64 * p.k.toNat := by
  obtain ⟨v, f, c, m, p, d, k⟩ := p
  revert v f c m p d k
  decide

/-- Settles O56: CTRL, STATUS and PHASE read as the sums of their flags, every other register as its own field. -/
theorem registerReads : Obligations.RegisterReads := by
  unfold Obligations.RegisterReads
  refine ⟨fun s a rest hb ha h4 h => ?_, fun s => ?_⟩
  · rw [step_read_value h (accessError_word h4) (.inl hb), s.busValue_register .four ha]
  intro map
  refine ⟨?_, fun offset hne => s.readRegister_reserved fun hmem => ?_⟩
  · rw [← List.forall_iff_forall_mem]
    refine ⟨rfl, s.ctrlWord_toNat, statusWord_toNat s, rfl, rfl, rfl, s.phase.word_toNat, ?_⟩
    -- every other register is a field, widened to a word
    repeat' apply And.intro
    all_goals rfl
  · obtain ⟨p, hp, rfl⟩ := List.mem_map.1 (show offset ∈ map.map Prod.fst from hmem)
    exact hne p hp rfl

end Sys2Proof.Machine
end

section
/-! PROOFS. What the host reads from the ROMs and the buffers, and which of its writes take effect there
(20_memory.md R81, R83, R85, R86). -/

namespace Sys2Proof.Machine

open Sys2Proof

theorem Width.bytes_le_four (n : Width) : n.bytes ≤ 4 := by
  cases n <;> decide

theorem State.readBytes_length (s : State) (a n : Nat) : (s.readBytes a n).length = n := by
  induction n generalizing a with
  | zero => rfl
  | succ n ih => rw [State.readBytes, List.length_cons, ih]

/-- A word holds the value of the bytes of a read: it has at most four. -/
theorem State.busValue_memory_toNat (s : State) {a : Nat} (n : Width) (h : 0x100 ≤ a) :
    (s.busValue a n).toNat = ((List.range n.bytes).map fun j => (s.readByte (a + j)).toNat * 2 ^ (8 * j)).sum := by
  have fits : leValue (s.readBytes a n.bytes) < 2 ^ 32 := by
    calc leValue (s.readBytes a n.bytes)
      _ < 2 ^ (8 * n.bytes) := by simpa [State.readBytes_length] using leValue_lt (s.readBytes a n.bytes)
      _ ≤ 2 ^ 32 := Nat.pow_le_pow_right (by decide) (by have := n.bytes_le_four; omega)
  rw [State.busValue_memory s n h, BitVec.toNat_ofNat, Nat.mod_eq_of_lt fits, leValue_readBytes]

theorem writtenBytes_getD {n : Width} {j : Nat} (v : Word) (h : j < n.bytes) :
    (writtenBytes n v).getD j 0 = v.extractLsb' (8 * j) 8 := by
  simp [writtenBytes, h, byteOfWord]

/-- A write outside the register block that is no bus error and finds the engine idle. -/
theorem step_memoryWrite {s : State} {a : Addr} {n : Width} {v : Word} {rest : List BusEvent}
    (h : s.inbox = .write a n v :: rest) (hb : s.busy = false) (ha : 0x100 ≤ a.toNat) (hn : a.toNat % n.bytes = 0) :
    step s = .next ((({ s with inbox := rest } : State).writeBytes a.toNat (writtenBytes n v)).setPort none) := by
  rw [step_write_next h (accessError_memory ha hn), busWrite_cases,
    if_neg fun hbusy => Bool.eq_false_iff.1 hb hbusy.1, if_neg (by omega)]

/-- Settles O12: a read is the little-endian value of the bytes it covers, and a write puts a byte of the word where the
bus writes one. -/
theorem hostAccessIsLittleEndian : Obligations.HostAccessIsLittleEndian := by
  unfold Obligations.HostAccessIsLittleEndian
  refine ⟨fun s a n rest hb ha hn h => ?_, fun s a n v rest hm hb ha hn h => ?_⟩
  · exact ⟨_, step_read_value h (accessError_memory ha hn) (.inl hb), s.busValue_memory_toNat n ha⟩
  · refine ⟨_, step_memoryWrite h hb ha hn, ?_, fun x => ?_⟩
    · rw [(State.writeBytes_mem { s with inbox := rest } a.toNat (writtenBytes n v)).1]
      rfl
    · have written := State.readByte_writeBytes (s := { s with inbox := rest }) hm.1 a.toNat (writtenBytes n v) x
      simp only [writtenBytes_length, and_assoc] at written
      refine written.trans ?_
      split
      · next hx => exact writtenBytes_getD v (by omega)
      · rfl

/-! ### Writes that are ignored (R85, R86) -/

/-- The offsets of the registers a write reaches: CTRL, STATUS, CMD and the operand registers (R38, R86). -/
def writableOffsets : List Nat :=
  [0x004, 0x008, 0x00C, 0x020, 0x024, 0x028, 0x030, 0x034, 0x038, 0x03C, 0x040, 0x044, 0x048]

theorem State.writeRegister_ignored (s : State) {offset : Nat} (v : Word) (h : offset ∉ writableOffsets) :
    s.writeRegister offset v = s := by
  unfold State.writeRegister
  split
  case h_14 => rfl
  all_goals exact absurd (by decide) h

/-- The buffers outside SEGTAB, INBUF and DCW are not host-writable. -/
theorem State.writeByte_ignored (s : State) {a : Nat} (b : Byte) (h1 : ¬ (0x400 ≤ a ∧ a < 0x480))
    (h2 : ¬ (0x1000 ≤ a ∧ a < 0x4000)) : s.writeByte a b = s := by
  unfold State.writeByte
  cases hr : regionAt a with
  | none => rfl
  | some g =>
    obtain ⟨hlo, hhi⟩ := regionAt_some hr
    cases g with
    | ecb | genb | fcw | mx => rfl
    | segtab | inbuf | dcw =>
      simp only [Region.base, Region.size] at hlo hhi
      omega

theorem State.writeBytes_ignored (s : State) (a : Nat) (bs : List Byte)
    (h : ∀ x, a ≤ x → x < a + bs.length → ¬ (0x400 ≤ x ∧ x < 0x480) ∧ ¬ (0x1000 ≤ x ∧ x < 0x4000)) :
    s.writeBytes a bs = s := by
  induction bs generalizing a with
  | nil => rfl
  | cons b bs ih =>
    rw [List.length_cons] at h
    obtain ⟨h1, h2⟩ := h a (by omega) (by omega)
    rw [State.writeBytes, s.writeByte_ignored b h1 h2]
    exact ih (a + 1) fun x hlo hhi => h x (by omega) (by omega)

/-- An aligned access that begins below a 4-aligned address ends below it. -/
theorem Width.end_le {n : Width} {a k : Nat} (hn : a % n.bytes = 0) (h : a < 4 * k) : a + n.bytes ≤ 4 * k := by
  cases n <;> simp only [Width.bytes] at * <;> omega

/-- The reserved addresses of R81 lie in no buffer. -/
theorem regionAt_reserved {x : Nat} (h : (0x340 ≤ x ∧ x < 0x400) ∨ (0x480 ≤ x ∧ x < 0x1000) ∨
    (0x5000 ≤ x ∧ x < 0x8000) ∨ 0xFA61 ≤ x) : regionAt x = none := by
  cases hr : regionAt x with
  | none => rfl
  | some g =>
    obtain ⟨hlo, hhi⟩ := regionAt_some hr
    cases g <;> simp only [Region.base, Region.size] at hlo hhi <;> omega

/-- Settles O14: no rule of the register block, and no byte of the access, takes the write; an access that begins
outside the writable buffers lies outside them, since it is aligned. -/
theorem readOnlyWritesAreIgnored : Obligations.ReadOnlyWritesAreIgnored := by
  unfold Obligations.ReadOnlyWritesAreIgnored
  refine ⟨fun s a n v rest hb he hreg hseg hbuf h => ?_, fun s x hx => ?_, fun s offset ho => ?_⟩
  · by_cases ha : a.toNat < 0x100
    · obtain ⟨rfl, h4⟩ := four_of_no_accessError he ha
      rw [step_registerWrite h h4 ha (.inl hb), State.writeRegister_ignored _ v hreg]
      rfl
    · have hn := ((accessError_false_iff a n).1 he).1
      have hseg' := Width.end_le (k := 0x100) hn
      have hbuf' := Width.end_le (k := 0x400) hn
      rw [step_memoryWrite h hb (by omega) hn, State.writeBytes_ignored]
      · rfl
      · rw [writtenBytes_length]
        intro x hlo hhi
        omega
  · exact s.readByte_reserved (by omega) (regionAt_reserved hx)
  · refine s.readRegister_reserved fun hmem => ?_
    rcases ho with ho | ho
    · revert hmem
      exact (by decide : ∀ o ∈ [0x01C, 0x084, 0x088, 0x08C, 0x090, 0x094, 0x098, 0x09C], o ∉ registerOffsets) offset ho
    · have hlast := (by decide : ∀ o ∈ registerOffsets, o ≤ 0x0BC) offset hmem
      omega

end Sys2Proof.Machine
end

section
/-! PROOFS. The command words (30_encoding.md R110 to R113, R119): which words decode and to what, the round trip with
the encoder in both directions, and the examples. -/

namespace Sys2Proof

/-! ### The decoder (R113) and the fields of an encoded command (R110) -/

/-- A word decodes to a command when RSV is 0, the opcode map names the command, and a class NONE has IMM 0. -/
theorem decode_ok_iff {w : Word} {i : Instr} :
    decode w = .ok i ↔
      rsvField w = 0 ∧ commandOf (opcField w) (immField w) = some i ∧ (i.immClass = .none → immField w = 0) := by
  by_cases hrsv : rsvField w = 0
  · cases hmap : commandOf (opcField w) (immField w) with
    | none => simp [decode, hrsv, hmap]
    | some j =>
      obtain rfl | hij := eq_or_ne j i
      · simp [decode, hrsv, hmap]
      · simp [decode, hrsv, hmap, hij, ite_eq_iff]
  · simp [decode, hrsv]

theorem immField_lt (w : Word) : immField w < 256 := (w.extractLsb' 8 8).isLt

theorem Instr.imm_of_class_none {i : Instr} (h : i.immClass = .none) : i.imm = 0 :=
  (commandOf_some (commandOf_opcodeOf i)).2.2 h

/-- The fields of the word of a well-formed command are its parts. -/
theorem fields_encode {i : Instr} (h : i.WellFormed) :
    rsvField (encode i) = 0 ∧ opcField (encode i) = opcodeOf i ∧ immField (encode i) = i.imm := by
  have hopc := opcodeOf_lt i
  have himm : i.imm < 256 := h
  rw [rsvField_eq, opcField_eq, immField_eq, encode_toNat h]
  omega

/-! ### The round trip -/

/-- Settles O8: each field of the word gives back its part of the command, and the opcode map the command. -/
theorem decodeOfEncode : Obligations.DecodeOfEncode := by
  unfold Obligations.DecodeOfEncode
  intro i h
  obtain ⟨hrsv, hopc, himm⟩ := fields_encode h
  rw [decode_ok_iff, hrsv, hopc, himm]
  exact ⟨rfl, commandOf_opcodeOf i, Instr.imm_of_class_none⟩

/-- The fields of a word that decodes are the parts of its command, class NONE included. -/
theorem fields_of_decode {w : Word} {i : Instr} (h : decode w = .ok i) :
    rsvField w = 0 ∧ opcField w = opcodeOf i ∧ immField w = i.imm := by
  obtain ⟨hrsv, hmap, hnone⟩ := decode_ok_iff.1 h
  obtain ⟨hopc, himm, hzero⟩ := commandOf_some hmap
  refine ⟨hrsv, hopc.symm, ?_⟩
  by_cases hc : i.immClass = .none
  · rw [hnone hc, hzero hc]
  · exact (himm hc).symm

/-- Settles O9: the three fields are the whole word, so it is the word of its command. -/
theorem encodeOfDecode : Obligations.EncodeOfDecode := by
  unfold Obligations.EncodeOfDecode
  intro w i h
  obtain ⟨hrsv, hopc, himm⟩ := fields_of_decode h
  have hwf : i.WellFormed := himm.symm.trans_lt (immField_lt w)
  rw [rsvField_eq] at hrsv
  rw [opcField_eq] at hopc
  rw [immField_eq] at himm
  refine ⟨BitVec.eq_of_toNat_eq ?_, hwf, fun hc => ?_⟩
  · rw [encode_toNat hwf]
    omega
  · rw [Instr.imm_of_class_none hc] at himm
    omega

/-! ### The examples (R119) -/

/-- Settles O7: each example is the decoder's value at one word. -/
theorem commandWordExamples : Obligations.CommandWordExamples := by
  unfold Obligations.CommandWordExamples
  decide

end Sys2Proof
end

section
/-! PROOFS. Illegal words (30_encoding.md R114): which words they are, and how an accepted one completes. -/

namespace Sys2Proof

/-- The opcodes of class NONE (R111). -/
def noneOpcodes : List Nat :=
  [0x00, 0x01, 0x10, 0x11, 0x12, 0x13, 0x20, 0x30, 0x33, 0x40, 0x41, 0x42, 0x50, 0x51, 0x52, 0x61]

theorem opcodeOf_mem_noneOpcodes (i : Instr) : opcodeOf i ∈ noneOpcodes ↔ i.immClass = .none := by
  cases i <;> simp [opcodeOf, noneOpcodes, Instr.immClass]

/-- R114 on the fields of a word. -/
theorem illegal_iff (w : Word) :
    (∀ i, decode w ≠ .ok i) ↔
      rsvField w ≠ 0 ∨ opcField w ∉ opcodes ∨ (opcField w ∈ noneOpcodes ∧ immField w ≠ 0) := by
  cases hmap : commandOf (opcField w) (immField w) with
  | none => simp [decode_ok_iff, hmap, commandOf_none.1 hmap]
  | some j =>
    have hopc : opcField w = opcodeOf j := (commandOf_some hmap).1.symm
    have hmem : opcField w ∈ opcodes := hopc ▸ opcodeOf_mem j
    have hnone : opcField w ∈ noneOpcodes ↔ j.immClass = .none := hopc ▸ opcodeOf_mem_noneOpcodes j
    simp [decode_ok_iff, hmap, hmem, hnone, or_iff_not_imp_left]

end Sys2Proof

namespace Sys2Proof.Machine

open Sys2Proof

/-- The engine's turn on an illegal word, whatever makes it illegal. -/
theorem engineTurn_illegal {s : State} {w : Word} (hl : s.latch = some w) (hd : ∀ i, decode w ≠ .ok i) :
    engineTurn s = .next (s.completeError { kind := .illegalCommand, info := w }) := by
  cases h : decode w with
  | ok i => exact absurd h (hd i)
  | error r => exact engineTurn_error hl h

/-- Settles O6: the fields of the word decide whether it decodes; acceptance latches it, and the engine's turn refuses
it. -/
theorem illegalWordCompletes : Obligations.IllegalWordCompletes := by
  unfold Obligations.IllegalWordCompletes
  refine ⟨fun w => ?_, fun s w rest hw hb h => ?_⟩
  · rw [illegal_iff, rsvField_eq, opcField_eq, immField_eq]
    rfl
  · refine ⟨_, step_registerWrite h (by decide) (by decide) (.inl hb), rfl, ?_⟩
    rw [step_engine rfl, engineTurn_illegal rfl hw]
    rfl

end Sys2Proof.Machine
end

section
/-! PROOFS. Immediates out of range (30_encoding.md R112, 60_exceptions.md R404): each class's check, and the command
that fails it. -/

namespace Sys2Proof.Machine

open Sys2Proof

/-- A command whose body stops at BAD_OPERAND(n) completes with that error record and changes nothing else. -/
theorem exec_badOperand {i : Instr} {s : State} {n : Nat} (h : bodyOf i s = .error (raise .badOperand n)) :
    exec i s = .next { s with latch := none, err := true, errCode := 0x21, errInfo := BitVec.ofNat 32 n } := by
  rw [exec_eq_finish, finish_error h]
  rfl

theorem checkNbits_error {n : Nat} (h : n = 0 ∨ 32 < n) : checkNbits n = .error (raise .badOperand n) :=
  if_pos (h.imp_left Nat.lt_one_iff.2)

theorem checkFmtSel_error {sel : Nat} (h : sel / 64 ≠ 0 ∨ sel / 8 % 2 = 1) :
    checkFmtSel sel = .error (raise .badOperand sel) :=
  if_pos (h.imp_right fun h1 => h1 ▸ Nat.one_ne_zero)

theorem checkVerNum_error {v : Nat} (h : v < 7 ∨ 40 < v) : checkVerNum v = .error (raise .badOperand v) := if_pos h

theorem checkMask_error {m : Nat} (h : 7 < m) : checkMask m = .error (raise .badOperand m) := if_pos h

theorem State.checkNseg_of_le {s : State} (h : s.operand.nseg.toNat ≤ 16) : s.checkNseg = .ok () :=
  if_neg (Nat.not_lt.2 h)

theorem State.checkSegIdx_error {s : State} {i : Nat} (h : s.operand.nseg.toNat ≤ i) :
    s.checkSegIdx i = .error (raise .badOperand i) := if_pos h

/-- Settles O21: with its prerequisite met, the class's own check is the first one a command fails. -/
theorem immediateRanges : Obligations.ImmediateRanges := by
  unfold Obligations.ImmediateRanges
  intro s
  refine ⟨fun n hp hn => ?append, fun i hp hs hi => ?seg, fun sel hx => ?fmt, fun v hv => ?ver, fun m hp hm => ?mask⟩
  case append => exact exec_badOperand (by simp [bodyOf, bsAppendBody, hp, checkNbits_error hn])
  case seg =>
    exact exec_badOperand (by simp [bodyOf, bsSegBody, hp, State.checkNseg_of_le hs, State.checkSegIdx_error hi])
  case fmt => exact exec_badOperand (by simp [bodyOf, bchFmtBody, checkFmtSel_error hx])
  case ver => exact exec_badOperand (by simp [bodyOf, bchVerBody, checkVerNum_error hv])
  case mask =>
    exact ⟨exec_badOperand (by simp [bodyOf, maskEvalBody, hp, checkMask_error hm]),
      exec_badOperand (by simp [bodyOf, maskApplyBody, hp, checkMask_error hm])⟩

end Sys2Proof.Machine
end

section
/-! PROOFS. The GF(256) unit (40_gf.md R146 to R150): the tables compute products and powers of the field, and what
each of its commands answers. -/

namespace Sys2Proof.Machine

open Sys2Proof

/-! ### Products and powers through the tables -/

/-- R146: the product is the power of α at the sum of the logarithms. -/
theorem gfProduct_eq_mulp (a b : Byte) : gfProduct a b = mulp a b := by
  obtain rfl | ha := eq_or_ne a 0
  · simp [gfProduct]
  obtain rfl | hb := eq_or_ne b 0
  · simp [gfProduct]
  calc gfProduct a b
    _ = alphaPow ((logRom a.toNat).toNat + (logRom b.toNat).toNat) := if_neg (not_or.2 ⟨ha, hb⟩)
    _ = mulp a b := by rw [← mulp_alphaPow, alphaPow_logRom ha, alphaPow_logRom hb]

/-- The n-fold product of α^k is α^(kn). -/
theorem iterate_mulp_alphaPow (k n : Nat) : (mulp (alphaPow k))^[n] 1 = alphaPow (k * n) := by
  induction n with
  | zero => rfl
  | succ n ih => rw [Function.iterate_succ_apply', ih, mulp_alphaPow, Nat.mul_succ, Nat.add_comm]

/-- α is 0x02 (R9). -/
theorem iterate_mulp_two (n : Nat) : (mulp 2)^[n] 1 = alphaPow n := by
  rw [show (2 : Byte) = alphaPow 1 by decide, iterate_mulp_alphaPow, Nat.one_mul]

/-- R147: the power is the power of α at the multiple of the logarithm. -/
theorem gfPower_eq_iterate (a e : Byte) : gfPower a e = (mulp a)^[e.toNat] 1 := by
  obtain rfl | he := eq_or_ne e 0
  · rfl
  rw [gfPower, if_neg he]
  obtain rfl | ha := eq_or_ne a 0
  · obtain ⟨n, hn⟩ := Nat.exists_eq_succ_of_ne_zero fun h => he (BitVec.eq_of_toNat_eq h)
    rw [if_pos rfl, hn, Function.iterate_succ_apply']
    exact (mulp_zero_left _).symm
  · rw [if_neg ha]
    calc expRom ((logRom a.toNat).toNat * e.toNat % 255)
      _ = alphaPow ((logRom a.toNat).toNat * e.toNat) := rfl
      _ = (mulp a)^[e.toNat] 1 := by rw [← iterate_mulp_alphaPow, alphaPow_logRom ha]

/-- EXP[n] is α^n for every byte n: also for 255, where the table repeats its first entry (R143). -/
theorem expRom_eq_alphaPow (a : Byte) : expRom a.toNat = alphaPow a.toNat := by
  obtain h | h : a.toNat < 255 ∨ a.toNat = 255 := by omega
  · rw [alphaPow, Nat.mod_eq_of_lt h]
  · rw [h]
    decide

/-! ### The commands -/

/-- A command whose body only writes GF_R completes with it and changes nothing else. -/
theorem exec_setGfR {i : Instr} {s : State} {r : Byte} (h : bodyOf i s = .ok (s.setGfR r)) :
    exec i s = .next { s with latch := none, done := true, result := { s.result with gfR := r } } := by
  rw [exec_eq_finish, finish_ok h]
  rfl

theorem bodyOf_gfLog_zero {s : State} (h : s.operand.gfA = 0) :
    bodyOf .gfLog s = .error (raise .gfLogZero 0) := if_pos h

theorem bodyOf_gfLog_of_ne_zero {s : State} (h : s.operand.gfA ≠ 0) :
    bodyOf .gfLog s = .ok (s.setGfR (logRom s.operand.gfA.toNat)) := if_neg h

theorem exec_gfMul (s : State) :
    exec .gfMul s = .next { s with latch := none, done := true,
                                   result := { s.result with gfR := mulp s.operand.gfA s.operand.gfB } } := by
  rw [← gfProduct_eq_mulp]
  exact exec_setGfR rfl

/-- Settles O23: the tables' product is the field's. -/
theorem gfMulIsFieldProduct : Obligations.GfMulIsFieldProduct := by
  unfold Obligations.GfMulIsFieldProduct
  exact ⟨rfl, exec_gfMul, fun a b => (gfProduct_eq_mulp a b).symm⟩

/-- Settles O24: the tables' power is the repeated product. -/
theorem gfPowIsRepeatedProduct : Obligations.GfPowIsRepeatedProduct := by
  unfold Obligations.GfPowIsRepeatedProduct
  refine ⟨rfl, fun s => ?_, fun a e => (gfPower_eq_iterate a e).symm⟩
  rw [← gfPower_eq_iterate]
  exact exec_setGfR rfl

/-- Settles O25: both tables speak of the powers of α, and gf.log refuses 0. -/
theorem gfLogAndExp : Obligations.GfLogAndExp := by
  unfold Obligations.GfLogAndExp
  refine ⟨rfl, rfl, fun s h => ?_, fun s h => exec_setGfR (bodyOf_gfLog_of_ne_zero h),
    fun a h => ⟨logRom_lt _ a.isLt, ?_⟩, fun s => exec_setGfR rfl, fun a => ?_⟩
  · rw [exec_eq_finish, finish_error (bodyOf_gfLog_zero h)]
    rfl
  · rw [iterate_mulp_two, alphaPow_logRom h]
  · rw [iterate_mulp_two, expRom_eq_alphaPow]

/-- Settles O57: gf.mul's result is `mulp`, whose laws are those of the field. -/
theorem fieldLaws : Obligations.FieldLaws := by
  unfold Obligations.FieldLaws
  refine ⟨fun s t h => ?_, fun a b c => ⟨mulp_comm a b, mulp_assoc a b c, mulp_xor_right a b c, mulp_xor_left a b c⟩,
    fun a h => ⟨rfl, mulp_gfInverse h⟩, by decide, by decide, ?_, by decide⟩
  · rw [exec_gfMul] at h
    cases h
    rfl
  · exact (iterate_mulp_two 8).trans alphaPow_eight

end Sys2Proof.Machine
end

section
/-! PROOFS. The check of a segment (41_segments_version.md R171 to R174): the descriptor's errors, and then the first bad
character, read off SEGTAB and INBUF. -/

namespace Sys2Proof.Machine

open Sys2Proof

/-! ### The descriptor (R171, R172) -/

theorem descriptor_start_eq_cells (s : State) (h : s.mem.wf) (i : Nat) : (s.descriptor i).start =
    (s.buf .segtab (8 * i + 4)).toNat + 256 * (s.buf .segtab (8 * i + 5)).toNat := by
  have := (s.buf .segtab (8 * i + 4)).isLt
  have := (s.buf .segtab (8 * i + 5)).isLt
  rw [descriptor_start_eq, descriptor_word1_toNat s h]
  omega

theorem descriptor_len_eq_cells (s : State) (h : s.mem.wf) (i : Nat) : (s.descriptor i).len =
    (s.buf .segtab (8 * i + 6)).toNat + 256 * (s.buf .segtab (8 * i + 7)).toNat := by
  have := (s.buf .segtab (8 * i + 4)).isLt
  have := (s.buf .segtab (8 * i + 5)).isLt
  rw [descriptor_len_eq, descriptor_word1_toNat s h]
  omega

theorem Descriptor.len_lt (d : Descriptor) : d.len < 65536 := (d.word1.extractLsb' 16 16).isLt

theorem checkDesc_reserved {d : Descriptor} {i : Nat} (h : d.reserved ≠ 0) :
    checkDesc d i = .error (raise .badOperand i) := if_pos h

theorem checkDesc_range {d : Descriptor} {i : Nat} (h1 : d.reserved = 0) (h2 : 8192 < d.start + d.len) :
    checkDesc d i = .error (raise .badOperand i) := by
  rw [checkDesc, if_neg (not_not.2 h1), Config.inbufSize, if_pos h2]

theorem checkDesc_oddKanji {d : Descriptor} {i : Nat} (h1 : d.reserved = 0) (h2 : d.start + d.len ≤ 8192)
    (h3 : d.mode = .kanji ∧ d.len % 2 = 1) :
    checkDesc d i = .error (raise .unsupportedCharacter (segmentInfo i (d.len - 1))) := by
  rw [checkDesc, if_neg (not_not.2 h1), Config.inbufSize, if_neg (Nat.not_lt.2 h2), if_pos h3]

theorem checkDesc_ok {d : Descriptor} {i : Nat} (h1 : d.reserved = 0) (h2 : d.start + d.len ≤ 8192)
    (h3 : ¬ (d.mode = .kanji ∧ d.len % 2 = 1)) : checkDesc d i = .ok () := by
  rw [checkDesc, if_neg (not_not.2 h1), Config.inbufSize, if_neg (Nat.not_lt.2 h2), if_neg h3]

theorem State.checkSegment_of_checkDesc_error {s : State} {i : Nat} {e : CommandError}
    (h : checkDesc (s.descriptor i) i = .error e) : s.checkSegment i = .error e := by
  simp only [State.checkSegment, h]

theorem State.checkSegment_of_checkDesc_ok {s : State} {i : Nat} (h : checkDesc (s.descriptor i) i = .ok ()) :
    s.checkSegment i = checkChars (s.descriptor i) i (s.segmentBytes (s.descriptor i)) := by
  simp only [State.checkSegment, h]

/-! ### The characters (R174) -/

theorem checkChars_of_some {d : Descriptor} {i j : Nat} {chars : List Byte} (h : firstBadOffset d.mode chars = some j) :
    checkChars d i chars = .error (raise (badCharacterError d.mode) (segmentInfo i j)) := by
  simp only [checkChars, h]

theorem checkChars_of_none {d : Descriptor} {i : Nat} {chars : List Byte} (h : firstBadOffset d.mode chars = none) :
    checkChars d i chars = .ok () := by
  simp only [checkChars, h]

theorem badCharacterError_eq (mode : Mode) :
    badCharacterError mode = if mode = .kanji then .unsupportedCharacter else .invalidMode := by
  cases mode <;> rfl

/-- The test at an offset inside the segment reads no byte outside it: a KANJI pair starts at an even offset. -/
theorem badCharacter_congr {mode : Mode} {f g : Nat → Nat} {n j : Nat} (heven : mode = .kanji → n % 2 = 0)
    (h : ∀ k, k < n → f k = g k) (hj : j < n) : badCharacter mode f j = badCharacter mode g j := by
  cases mode with
  | numeric => simp only [badCharacter, h j hj]
  | alphanumeric => simp only [badCharacter, h j hj]
  | byte => rfl
  | kanji =>
    have hn := heven rfl
    obtain hodd | hpair : j % 2 ≠ 0 ∨ j + 1 < n := by omega
    · simp [badCharacter, hodd]
    · simp only [badCharacter, h j hj, h (j + 1) hpair]

/-- The character at offset j of segment i is bad, as a test on INBUF. -/
def State.badAt (s : State) (i : Nat) : Nat → Bool :=
  badCharacter (s.descriptor i).mode fun j => (s.buf .inbuf ((s.descriptor i).start + j)).toNat

theorem State.badAt_eq {s : State} (hm : s.mem.wf) {i j : Nat}
    (hk : ¬ ((s.descriptor i).mode = .kanji ∧ (s.descriptor i).len % 2 = 1)) (hj : j < (s.descriptor i).len) :
    badCharacter (s.descriptor i).mode (fun j => ((s.segmentBytes (s.descriptor i)).getD j 0).toNat) j = s.badAt i j :=
  badCharacter_congr (fun h => Nat.mod_two_ne_one.1 fun h1 => hk ⟨h, h1⟩)
    (fun _ hl => congrArg BitVec.toNat (State.segmentBytes_getD hm _ hl)) hj

/-- The first bad character of INBUF is the offset `checkChars` finds. -/
theorem State.firstBadOffset_segmentBytes {s : State} (hm : s.mem.wf) {i : Nat}
    (hk : ¬ ((s.descriptor i).mode = .kanji ∧ (s.descriptor i).len % 2 = 1)) :
    (∀ j, j < (s.descriptor i).len → s.badAt i j = true → (∀ k, k < j → s.badAt i k = false) →
      firstBadOffset (s.descriptor i).mode (s.segmentBytes (s.descriptor i)) = some j) ∧
    ((∀ j, j < (s.descriptor i).len → s.badAt i j = false) →
      firstBadOffset (s.descriptor i).mode (s.segmentBytes (s.descriptor i)) = none) := by
  obtain ⟨hsome, hnone⟩ := firstBadOffset_spec (s.descriptor i).mode (s.segmentBytes (s.descriptor i))
    fun h => Nat.mod_two_ne_one.1 fun h1 => hk ⟨h, by rwa [State.segmentBytes_length] at h1⟩
  rw [State.segmentBytes_length] at hsome hnone
  exact ⟨fun j hj hbad hfirst => hsome j hj ((State.badAt_eq hm hk hj).trans hbad) fun k hkj =>
      (State.badAt_eq hm hk (hkj.trans hj)).trans (hfirst k hkj),
    fun h => hnone fun j hj => (State.badAt_eq hm hk hj).trans (h j hj)⟩

/-- Settles O26: the cells of SEGTAB are the descriptor's fields; each check of R172 in its order, and then the first bad
character. -/
theorem segmentCheck : Obligations.SegmentCheck := by
  unfold Obligations.SegmentCheck
  intro s i hmem hi cell word0 mode start len byte badAt kind
  have hwf : s.mem.wf := hmem.1
  have hword0 : (s.descriptor i).word0.toNat = word0 := descriptor_word0_toNat s hwf i
  have hmode : (s.descriptor i).mode = mode := by rw [descriptor_mode_eq, hword0]
  have hres : (s.descriptor i).reserved = word0 / 4 := (descriptor_reserved_eq _).trans (congrArg (· / 4) hword0)
  have hstart : (s.descriptor i).start = start := descriptor_start_eq_cells s hwf i
  have hlen : (s.descriptor i).len = len := descriptor_len_eq_cells s hwf i
  have hinfo : ∀ j, j < len → segmentInfo i j = i * 65536 + j := fun j hj =>
    segmentInfo_eq i (hj.trans (hlen ▸ Descriptor.len_lt _))
  have hbad : s.badAt i = badAt := by
    rw [State.badAt, hmode, hstart]
    rfl
  have hkind : badCharacterError mode = kind := badCharacterError_eq mode
  clear_value mode start len word0 badAt kind
  subst hmode hstart hlen hbad hkind
  rw [← hres]
  refine ⟨⟨rfl, rfl, rfl, rfl, rfl⟩, fun h => ?reserved, fun h1 h2 => ?range, fun h1 h2 h3 h4 => ?odd,
    fun h1 h2 h3 => ?chars⟩
  case reserved => exact State.checkSegment_of_checkDesc_error (checkDesc_reserved h)
  case range => exact State.checkSegment_of_checkDesc_error (checkDesc_range h1 h2)
  case odd =>
    rw [← hinfo _ (by omega)]
    exact State.checkSegment_of_checkDesc_error (checkDesc_oddKanji h1 h2 ⟨h3, h4⟩)
  case chars =>
    obtain ⟨hsome, hnone⟩ := State.firstBadOffset_segmentBytes hwf h3
    rw [State.checkSegment_of_checkDesc_ok (checkDesc_ok h1 h2 h3)]
    refine ⟨fun j hj hb hfirst => ?_, fun hall => checkChars_of_none (hnone hall)⟩
    rw [← hinfo j hj]
    exact checkChars_of_some (hsome j hj hb hfirst)

end Sys2Proof.Machine
end

section
/-! PROOFS. The command vsel (41_segments_version.md R181): its checks in order, and the search for the least acceptable
version. -/

namespace Sys2Proof.Machine

open Sys2Proof

/-! ### The checks -/

theorem State.chooseVersion_nseg_error {s : State} (h : 16 < s.operand.nseg.toNat) :
    s.chooseVersion = .error (raise .badOperand s.operand.nseg.toNat) := by
  have hn : s.checkNseg = .error (raise .badOperand s.operand.nseg.toNat) := if_pos h
  simp only [State.chooseVersion, hn]

theorem State.chooseVersion_version_error {s : State} (h1 : s.operand.nseg.toNat ≤ 16)
    (h2 : 40 < s.operand.cfgVersion.toNat) :
    s.chooseVersion = .error (raise .invalidVersion s.operand.cfgVersion.toNat) := by
  have hv : s.checkCfgVersion = .error (raise .invalidVersion s.operand.cfgVersion.toNat) := if_pos h2
  simp only [State.chooseVersion, State.checkNseg_of_le h1, hv]

theorem State.checkCfgVersion_of_le {s : State} (h : s.operand.cfgVersion.toNat ≤ 40) : s.checkCfgVersion = .ok () :=
  if_neg (Nat.not_lt.2 h)

theorem State.chooseVersion_segment_error {s : State} (h1 : s.operand.nseg.toNat ≤ 16)
    (h2 : s.operand.cfgVersion.toNat ≤ 40) {i : Nat} {e : CommandError} (hi : i < s.operand.nseg.toNat)
    (hpass : ∀ j, j < i → s.checkSegment j = .ok ()) (hfail : s.checkSegment i = .error e) :
    s.chooseVersion = .error e := by
  have hs : s.checkSegments (List.range s.operand.nseg.toNat) = .error e := by
    rw [range_split hi]
    exact State.checkSegments_error (fun j hj => hpass j (List.mem_range.1 hj)) hfail
  simp only [State.chooseVersion, State.checkNseg_of_le h1, State.checkCfgVersion_of_le h2, hs]

/-! ### The search -/

theorem versionCandidates_pairwise_lt (v : Nat) : (versionCandidates v).Pairwise (· < ·) := by
  unfold versionCandidates
  split
  · exact List.pairwise_lt_range'
  · exact List.pairwise_singleton ..

theorem versionCandidates_getLast? (v : Nat) :
    (versionCandidates v).getLast? = some (if v = 0 then 40 else v) := by
  unfold versionCandidates
  split <;> rfl

theorem State.not_acceptable {s : State} {v : Nat} (h : ¬ s.Acceptable v) :
    acceptable s.descriptors (.ofBits s.operand.cfgLevel) v = false :=
  Bool.eq_false_iff.2 fun ha => h ((s.acceptable_iff v).1 ha)

section
variable {s : State} (hn : s.operand.nseg.toNat ≤ 16) (hv : s.operand.cfgVersion.toNat ≤ 40)
  (hs : ∀ i, i < s.operand.nseg.toNat → s.checkSegment i = .ok ())
include hn hv hs

/-- The candidates stand in increasing order, so those before v are the smaller ones. -/
theorem State.chooseVersion_least {v : Nat} (hc : s.Candidate v) (ha : s.Acceptable v)
    (hleast : ∀ u, s.Candidate u → u < v → ¬ s.Acceptable u) : s.chooseVersion = .ok v := by
  obtain ⟨pre, post, hsplit⟩ := List.append_of_mem ((s.mem_versionCandidates hv v).2 hc)
  have hlt : ∀ u ∈ pre, u < v := fun u hu =>
    (List.pairwise_append.1 (hsplit ▸ versionCandidates_pairwise_lt s.operand.cfgVersion.toNat)).2.2 u hu v (by simp)
  have hcand : ∀ u ∈ pre, s.Candidate u := fun u hu =>
    (s.mem_versionCandidates hv u).1 (hsplit ▸ List.mem_append_left _ hu)
  rw [State.chooseVersion_eq_search hn hv hs, hsplit]
  exact searchVersion_ok pre post (fun u hu => State.not_acceptable (hleast u (hcand u hu) (hlt u hu)))
    ((s.acceptable_iff v).2 ha) 0

theorem State.chooseVersion_tooLong (hnone : ∀ v, s.Candidate v → ¬ s.Acceptable v) :
    s.chooseVersion = .error (raise .dataTooLong
      (min (s.bitsAt (if s.operand.cfgVersion.toNat = 0 then 40 else s.operand.cfgVersion.toNat)) (2 ^ 32 - 1))) := by
  rw [State.chooseVersion_eq_search hn hv hs,
    searchVersion_error fun u hu => State.not_acceptable (hnone u ((s.mem_versionCandidates hv u).1 hu)),
    versionCandidates_getLast?, Option.map_some, Option.getD_some, State.totalBits_descriptors]

end

/-! ### The command -/

theorem exec_vsel_of_chooseVersion_ok {s : State} {v : Nat} (h : s.chooseVersion = .ok v) :
    exec .vsel s = .next (s.selectVersion v).completeOk := by
  rw [exec_eq_finish]
  exact finish_ok (by simp only [bodyOf, vselBody, h])

theorem exec_vsel_of_chooseVersion_error {s : State} {e : CommandError} (h : s.chooseVersion = .error e) :
    exec .vsel s = .next (s.completeError e) := by
  rw [exec_eq_finish]
  exact finish_error (by simp only [bodyOf, vselBody, h])

/-- Settles O27: the search stops at the least acceptable candidate, whose values fit the registers. -/
theorem vselChoosesLeastVersion : Obligations.VselChoosesLeastVersion := by
  unfold Obligations.VselChoosesLeastVersion
  intro s v hn hv hs hc ha hleast
  obtain ⟨hversion, hlevel, hsize, hdata, htotal, hreq⟩ := State.selectVersion_registers hc.2.1 ha
  exact ⟨(s.selectVersion v).completeOk,
    exec_vsel_of_chooseVersion_ok (State.chooseVersion_least hn hv hs hc ha hleast),
    hversion, hlevel, hsize, hdata, htotal, hreq, rfl⟩

/-- Settles O28: each check that fails is the error the choice of a version ends with. -/
theorem vselErrors : Obligations.VselErrors := by
  unfold Obligations.VselErrors
  refine fun s => ⟨fun hn => ?_, fun hn hv => ?_, fun hn hv i e hi hpass hfail => ?_, fun hn hv hs hnone => ?_⟩
  · exact exec_vsel_of_chooseVersion_error (State.chooseVersion_nseg_error hn)
  · exact exec_vsel_of_chooseVersion_error (State.chooseVersion_version_error hn hv)
  · exact exec_vsel_of_chooseVersion_error (State.chooseVersion_segment_error hn hv hi hpass hfail)
  · exact exec_vsel_of_chooseVersion_error (State.chooseVersion_tooLong hn hv hs hnone)

end Sys2Proof.Machine
end

section
/-! PROOFS. Capacity (41_segments_version.md R176, R178, R182): the most characters a number of data bits holds, and the
single-segment maxima that follow. -/

namespace Sys2Proof.Machine

open Sys2Proof

/-- The most characters of a mode that b data bits hold: a NUMERIC character costs 10/3 bits, an ALPHANUMERIC one 11/2, a
rest of a group rounded up (R176). -/
def mostCharacters (mode : Mode) (b : Nat) : Nat :=
  match mode with
  | .numeric => 3 * b / 10
  | .alphanumeric => 2 * b / 11
  | .byte => b / 8
  | .kanji => b / 13

theorem dataBits_le_iff (mode : Mode) (n b : Nat) : dataBits mode n ≤ b ↔ n ≤ mostCharacters mode b := by
  cases mode with
  | numeric =>
    simp only [dataBits, mostCharacters]
    split_ifs <;> omega
  | alphanumeric => simp only [dataBits, mostCharacters]; omega
  | byte => simp only [dataBits, mostCharacters]; omega
  | kanji => simp only [dataBits, mostCharacters]; omega

/-- The most characters of one segment of a mode at a version and level: what its capacity leaves after the mode and count
indicators (R178). -/
def mostInSegment (mode : Mode) (v : Nat) (l : Level) : Nat :=
  mostCharacters mode (8 * dataCodewords v l - (4 + cciWidth mode v))

/-- A version at which the count indicator is never what stops a single segment. -/
theorem fits_iff_le_mostInSegment {d : Descriptor} {v : Nat} {l : Level}
    (hroom : 4 + cciWidth d.mode v ≤ 8 * dataCodewords v l) (hcount : mostInSegment d.mode v l < 2 ^ cciWidth d.mode v) :
    (d.count < 2 ^ cciWidth d.mode v ∧ segBits d v ≤ 8 * dataCodewords v l) ↔ d.count ≤ mostInSegment d.mode v l := by
  have hbits : segBits d v ≤ 8 * dataCodewords v l ↔ d.count ≤ mostInSegment d.mode v l := by
    rw [mostInSegment, ← dataBits_le_iff, segBits]
    omega
  rw [hbits, and_iff_right_iff_imp]
  exact fun h => h.trans_lt hcount

/-- Versions 1 and 40 are such versions at every level. -/
theorem countIndicator_suffices (mode : Mode) (l : Level) : ∀ v ∈ [1, 40],
    4 + cciWidth mode v ≤ 8 * dataCodewords v l ∧ mostInSegment mode v l < 2 ^ cciWidth mode v := by
  cases mode <;> cases l <;> decide

/-- Settles O29: each tabulated number is what the capacity of its version and level leaves. -/
theorem capacityMaxima : Obligations.CapacityMaxima := by
  unfold Obligations.CapacityMaxima
  intro d l fits most
  obtain ⟨hroom1, hcount1⟩ := countIndicator_suffices d.mode l 1 (by decide)
  obtain ⟨hroom40, hcount40⟩ := countIndicator_suffices d.mode l 40 (by decide)
  refine ⟨(fits_iff_le_mostInSegment hroom40 hcount40).trans (iff_of_eq (congrArg (d.count ≤ ·) ?_)),
    (fits_iff_le_mostInSegment hroom1 hcount1).trans (iff_of_eq (congrArg (d.count ≤ ·) ?_))⟩
  · cases d.mode <;> cases l <;> rfl
  · cases d.mode <;> cases l <;> rfl

end Sys2Proof.Machine
end

section
/-! PROOFS. The bit buffer: what an append leaves (42_bitstream.md R201), and the commands bs.clear (R202), bs.append
(R203) and bs.seg (R209). -/

namespace Sys2Proof.Machine

open Sys2Proof

/-! ### Completion -/

theorem exec_of_body_ok {i : Instr} {s t : State} (h : bodyOf i s = .ok t) : exec i s = .next t.completeOk :=
  (exec_eq_finish i s).trans (finish_ok h)

theorem exec_of_body_error {i : Instr} {s : State} {e : CommandError} (h : bodyOf i s = .error e) :
    exec i s = .next (s.completeError e) :=
  (exec_eq_finish i s).trans (finish_error h)

/-! ### What an append leaves (R201) -/

theorem bitSeq_getD (v : Nat) {n k : Nat} (h : k < n) : (bitSeq v n).getD k false = v.testBit (n - 1 - k) := by
  simp [bitSeq_eq_map_range, List.getD_eq_getElem?_getD, List.getElem?_range h]

theorem State.appendBits_eq (s : State) (bs : List Bool) : s.appendBits bs =
    { s with result := { s.result with bitLen := (s.appendBits bs).result.bitLen }, mem := (s.appendBits bs).mem } := by
  cases bs <;> rfl

section
variable {s : State} {bs : List Bool} (hm : s.MemoryOk) (hfit : s.result.bitLen.toNat + bs.length ≤ 32768)
include hm hfit

theorem State.appendBits_bitLen : (s.appendBits bs).result.bitLen.toNat = s.result.bitLen.toNat + bs.length := by
  obtain ⟨-, hresult, -⟩ := State.appendBits_spec hm hfit
  rw [hresult, BitVec.toNat_ofNat, Nat.mod_eq_of_lt (by omega)]

theorem State.appendBits_streamBit {j : Nat} (hj : j < 32768) : (s.appendBits bs).streamBit j =
    if s.result.bitLen.toNat ≤ j ∧ j < s.result.bitLen.toNat + bs.length
    then bs.getD (j - s.result.bitLen.toNat) false else s.streamBit j := by
  obtain ⟨-, -, -, hbits, -⟩ := State.appendBits_spec hm hfit
  rw [hbits j hj]
  by_cases hlo : s.result.bitLen.toNat ≤ j
  · by_cases hhi : j < s.result.bitLen.toNat + bs.length
    · rw [if_pos hlo, if_pos ⟨hlo, hhi⟩, List.getElem?_eq_getElem (by omega), List.getD_eq_getElem _ _ (by omega)]
      rfl
    · rw [if_pos hlo, if_neg (by omega), List.getElem?_eq_none (by omega), Option.getD_none]
  · rw [if_neg hlo, if_neg (by omega)]

/-- An append changes no byte but those of DCW up to its last bit. -/
theorem State.appendBits_readByte {x : Nat}
    (hx : ¬ (0x3000 ≤ x ∧ x < 0x3000 + (s.result.bitLen.toNat + bs.length + 7) / 8)) :
    (s.appendBits bs).readByte x = s.readByte x := by
  obtain ⟨-, -, -, -, hother⟩ := State.appendBits_spec hm hfit
  refine State.readByte_frame (P := fun y => 0x3000 ≤ y ∧ y < _) (fun g i hi hout => ?_) x hx
  by_cases hg : g = .dcw
  · subst hg
    simp only [Region.base, Region.size] at hi hout
    refine buf_eq_of_streamBit fun b hb => ?_
    rw [State.appendBits_streamBit hm hfit (by omega), if_neg (by omega)]
  · exact hother g hg i hi

end

/-- A command whose body appends bits within the capacity completes, and everything it leaves. -/
theorem exec_appendBits {i : Instr} {s : State} {bs : List Bool} {n : Nat} (hm : s.MemoryOk)
    (hbody : bodyOf i s = .ok (s.appendBits bs)) (hlen : bs.length = n)
    (hcap : s.result.bitLen.toNat + n ≤ 8 * s.result.dataCw.toNat) : ∃ t, exec i s = .next t ∧
      t.result.bitLen.toNat = s.result.bitLen.toNat + n ∧
      t = { s with latch := none, done := true, result := { s.result with bitLen := t.result.bitLen }, mem := t.mem } ∧
      (∀ j, j < 32768 → t.streamBit j =
        if s.result.bitLen.toNat ≤ j ∧ j < s.result.bitLen.toNat + n
        then bs.getD (j - s.result.bitLen.toNat) false else s.streamBit j) ∧
      (∀ x, ¬ (0x3000 ≤ x ∧ x < 0x4000) → t.readByte x = s.readByte x) := by
  subst hlen
  have hfit : s.result.bitLen.toNat + bs.length ≤ 32768 := hcap.trans s.capacity_lt.le
  exact ⟨(s.appendBits bs).completeOk, exec_of_body_ok hbody, State.appendBits_bitLen hm hfit,
    congrArg State.completeOk (s.appendBits_eq bs), fun j hj => State.appendBits_streamBit hm hfit hj,
    fun x hx => State.appendBits_readByte hm hfit (by omega)⟩

/-! ### bs.clear (R202) -/

theorem State.readByte_dcw (s : State) {k : Nat} (hk : k < 4096) : s.readByte (0x3000 + k) = s.buf .dcw k :=
  s.readByte_base .dcw hk

theorem State.readByte_zeroDcw {s : State} (hm : s.MemoryOk) {x : Nat} (hlo : 0x3000 ≤ x) (hhi : x < 0x4000) :
    (s.setBytes .dcw 0 (List.replicate 4096 0)).readByte x = 0 := by
  obtain ⟨i, rfl⟩ := Nat.exists_eq_add_of_le hlo
  have hi : i < 4096 := by omega
  rw [State.readByte_dcw _ hi, State.buf_setBytes s hm.1 (by rw [List.length_replicate]; decide) hi,
    if_pos ⟨rfl, Nat.zero_le i⟩, Nat.sub_zero, List.getElem?_replicate_of_lt hi, Option.getD_some]

theorem State.readByte_zeroDcw_outside {s : State} (hm : s.MemoryOk) {x : Nat} (hx : ¬ (0x3000 ≤ x ∧ x < 0x4000)) :
    (s.setBytes .dcw 0 (List.replicate 4096 0)).readByte x = s.readByte x := by
  refine State.readByte_frame (P := fun y => 0x3000 ≤ y ∧ y < 0x4000) (fun g i hi hout => ?_) x hx
  refine State.buf_setBytes_of_ne hm.1 (by rw [List.length_replicate]; decide) hi ?_
  rintro rfl
  simp only [Region.base, Region.size] at hi hout
  omega

/-- Settles O30: one run of zeros fills DCW, and the rest of the command writes registers. -/
theorem bsClearEmptiesBuffer : Obligations.BsClearEmptiesBuffer := by
  unfold Obligations.BsClearEmptiesBuffer
  exact ⟨rfl, fun s hm => ⟨_, exec_of_body_ok rfl, rfl,
    fun x hlo hhi => (State.readByte_congr rfl rfl x).trans (State.readByte_zeroDcw hm hlo hhi),
    fun x hx => (State.readByte_congr rfl rfl x).trans (State.readByte_zeroDcw_outside hm hx)⟩⟩

/-! ### bs.append (R203) -/

theorem checkNbits_of_le {n : Nat} (h1 : 1 ≤ n) (h2 : n ≤ 32) : checkNbits n = .ok () := if_neg (by omega)

theorem bsAppendBody_of_checks {s : State} {n : Nat} (hp : s.phase.canBuild = true) (h1 : 1 ≤ n) (h2 : n ≤ 32) :
    bsAppendBody n s =
      if s.capacity < s.result.bitLen.toNat + n then .error (raise .dataTooLong (s.result.bitLen.toNat + n))
      else .ok (s.appendBits (bitSeq (s.operand.bsValue.toNat % 2 ^ n) n)) := by
  simp only [bsAppendBody, hp, checkNbits_of_le h1 h2, Bool.not_true, Bool.false_eq_true, if_false]

theorem bitSeq_mod_getD (w : Word) {n k : Nat} (h : k < n) :
    (bitSeq (w.toNat % 2 ^ n) n).getD k false = w.getLsbD (n - 1 - k) := by
  rw [bitSeq_getD _ h, Nat.testBit_mod_two_pow, decide_eq_true (by omega), Bool.true_and, BitVec.testBit_toNat]

/-- Settles O31: past the checks the command is one append. -/
theorem bsAppendAppendsBits : Obligations.BsAppendAppendsBits := by
  unfold Obligations.BsAppendAppendsBits
  intro s n hm hv hf h1 h2
  have hbody := bsAppendBody_of_checks (s.phase.canBuild_iff.2 ⟨hv, hf⟩) h1 h2
  refine ⟨fun hlong => exec_of_body_error (hbody.trans (if_pos hlong)), fun hcap => ?_⟩
  obtain ⟨t, hexec, hlen, hframe, hbits, hmem⟩ :=
    exec_appendBits hm (i := .bsAppend n) (hbody.trans (if_neg (Nat.not_lt.2 hcap))) (bitSeq_length ..) hcap
  refine ⟨t, hexec, hlen, hframe, fun j hj => (hbits j hj).trans ?_, hmem⟩
  split
  · exact bitSeq_mod_getD _ (by omega)
  · rfl

/-! ### bs.seg (R209) -/

theorem State.checkSegIdx_of_lt {s : State} {i : Nat} (h : i < s.operand.nseg.toNat) : s.checkSegIdx i = .ok () :=
  if_neg (Nat.not_le.2 h)

theorem bsSegBody_nseg_error {s : State} (i : Nat) (hp : s.phase.canBuild = true) (h : 16 < s.operand.nseg.toNat) :
    bsSegBody i s = .error (raise .badOperand s.operand.nseg.toNat) := by
  have hn : s.checkNseg = .error (raise .badOperand s.operand.nseg.toNat) := if_pos h
  simp only [bsSegBody, hp, hn, Bool.not_true, Bool.false_eq_true, if_false]

theorem bsSegBody_segment_error {s : State} {i : Nat} {e : CommandError} (hp : s.phase.canBuild = true)
    (hn : s.operand.nseg.toNat ≤ 16) (hi : i < s.operand.nseg.toNat) (h : s.checkSegment i = .error e) :
    bsSegBody i s = .error e := by
  simp only [bsSegBody, hp, State.checkNseg_of_le hn, State.checkSegIdx_of_lt hi, h, Bool.not_true,
    Bool.false_eq_true, if_false]

theorem bsSegBody_of_checks {s : State} {i : Nat} (hp : s.phase.canBuild = true) (hn : s.operand.nseg.toNat ≤ 16)
    (hi : i < s.operand.nseg.toNat) (hs : s.checkSegment i = .ok ()) :
    bsSegBody i s =
      if 2 ^ cciWidth (s.descriptor i).mode s.result.version.toNat ≤ (s.descriptor i).count then
        .error (raise .dataTooLong (s.descriptor i).count)
      else if s.capacity < s.result.bitLen.toNat + segBits (s.descriptor i) s.result.version.toNat then
        .error (raise .dataTooLong (s.result.bitLen.toNat + segBits (s.descriptor i) s.result.version.toNat))
      else .ok (s.appendBits (emitSegment (s.descriptor i) s.result.version.toNat (s.segmentBytes (s.descriptor i)))) := by
  simp only [bsSegBody, hp, State.checkNseg_of_le hn, State.checkSegIdx_of_lt hi, hs, segFits, Bool.not_true,
    Bool.false_eq_true, if_false, Bool.not_eq_true', decide_eq_false_iff_not, Nat.not_lt]

/-- Settles O33: the first check that fails ends the command, and past the checks it is one append. -/
theorem bsSegAppendsSegment : Obligations.BsSegAppendsSegment := by
  unfold Obligations.BsSegAppendsSegment
  intro s i hm hv hf d v len
  have hp : s.phase.canBuild = true := s.phase.canBuild_iff.2 ⟨hv, hf⟩
  refine ⟨fun hn => ?_, fun hn hi e he => ?_, fun hn hi hs hcount => ?_, fun hn hi hs hcount hlong => ?_,
    fun hn hi hs hcount hcap => ?_⟩
  · exact exec_of_body_error (bsSegBody_nseg_error i hp hn)
  · exact exec_of_body_error (bsSegBody_segment_error hp hn hi he)
  · exact exec_of_body_error ((bsSegBody_of_checks hp hn hi hs).trans (if_pos hcount))
  · exact exec_of_body_error
      (((bsSegBody_of_checks hp hn hi hs).trans (if_neg (Nat.not_le.2 hcount))).trans (if_pos hlong))
  · exact exec_appendBits hm
      (((bsSegBody_of_checks hp hn hi hs).trans (if_neg (Nat.not_le.2 hcount))).trans (if_neg (Nat.not_lt.2 hcap)))
      (emitSegment_length d v (s.bytes_length ..)) hcap

end Sys2Proof.Machine
end

section
/-! PROOFS. The command bs.finish (42_bitstream.md R210): what it appends is zeros to a byte boundary and then the pad
codewords, which fill the capacity. -/

namespace Sys2Proof.Machine

open Sys2Proof

/-! ### The appended bits -/

/-- Pad codeword k (R210). -/
def padCodeword (k : Nat) : Byte := if k % 2 = 0 then 0xEC else 0x11

/-- The codewords `padBits` writes are the pad codewords from number m on, where m has the parity it is given. -/
theorem padBits_getD {n k b : Nat} (hk : k < n) (hb : b < 8) (m : Nat) :
    (padBits n (decide (m % 2 = 1))).getD (8 * k + b) false = (padCodeword (m + k)).getLsbD (7 - b) := by
  induction k generalizing n m with
  | zero =>
    obtain ⟨n, rfl⟩ := Nat.exists_eq_add_of_lt hk
    rw [Nat.mul_zero, Nat.zero_add, Nat.zero_add, padBits, List.getD_append _ _ _ _ (by rw [bitSeq_length]; exact hb),
      bitSeq_getD _ hb, Nat.add_zero, padCodeword]
    rcases Nat.mod_two_eq_zero_or_one m with h | h <;> rw [h] <;> rfl
  | succ k ih =>
    obtain ⟨n, rfl⟩ := Nat.exists_eq_add_of_lt (Nat.zero_lt_of_lt hk)
    have hflip : (!decide (m % 2 = 1)) = decide ((m + 1) % 2 = 1) := by
      rw [← decide_not]
      exact decide_eq_decide.2 (by omega)
    rw [Nat.zero_add, padBits, List.getD_append_right _ _ _ _ (by rw [bitSeq_length]; omega), bitSeq_length, hflip,
      show 8 * (k + 1) + b - 8 = 8 * k + b by omega, ih (by omega), Nat.add_right_comm, Nat.add_assoc]

/-! ### The command -/

/-- A byte of DCW by its stream bits. -/
theorem State.buf_dcw_of_streamBit {s : State} {i : Nat} {x : Byte}
    (h : ∀ b < 8, s.streamBit (8 * i + b) = x.getLsbD (7 - b)) : s.buf .dcw i = x := by
  refine BitVec.eq_of_getLsbD_eq fun b hb => ?_
  have hbit := h (7 - b) (by omega)
  rwa [State.streamBit, show (8 * i + (7 - b)) / 8 = i by omega, show 7 - (8 * i + (7 - b)) % 8 = b by omega,
    show 7 - (7 - b) = b by omega] at hbit

/-- The codeword where the pad codewords begin: the first byte boundary at or above the terminator's end (R210). -/
def State.padStart (s : State) : Nat :=
  (s.result.bitLen.toNat + min 4 (8 * s.result.dataCw.toNat - s.result.bitLen.toNat) + 7) / 8

/-- The state after what `bs.finish` appends, before it sets F. -/
def State.padded (s : State) : State := s.appendBits (finishBits s.result.bitLen.toNat s.capacity)

theorem bsFinishBody_of_canBuild {s : State} (hp : s.phase.canBuild = true) :
    bsFinishBody s =
      if s.capacity < s.result.bitLen.toNat then .error (raise .dataTooLong s.result.bitLen.toNat)
      else .ok { s.padded with phase := s.padded.phase.afterFinish } := by
  simp only [bsFinishBody, State.padded, hp, Bool.not_true, Bool.false_eq_true, if_false]

section
variable {s : State} (hm : s.MemoryOk) (hcap : s.result.bitLen.toNat ≤ 8 * s.result.dataCw.toNat)
include hcap

theorem State.padStart_bounds : s.result.bitLen.toNat ≤ 8 * s.padStart ∧ s.padStart ≤ s.result.dataCw.toNat := by
  rw [State.padStart]
  omega

/-- The terminator and the zero bits together end at a byte boundary. -/
theorem State.finishBits_eq : finishBits s.result.bitLen.toNat s.capacity =
    List.replicate (8 * s.padStart - s.result.bitLen.toNat) false ++ padBits (s.result.dataCw.toNat - s.padStart) false := by
  simp only [finishBits, State.padStart, State.capacity]
  congr 2 <;> omega

/-- The appended bits end where the capacity does. -/
theorem State.bitLen_add_finishBits_length :
    s.result.bitLen.toNat + (finishBits s.result.bitLen.toNat s.capacity).length = 8 * s.result.dataCw.toNat := by
  rw [finishBits_length (cap := s.capacity) hcap (Nat.mul_mod_right ..)]
  exact Nat.add_sub_cancel' hcap

theorem State.finishBits_fit :
    s.result.bitLen.toNat + (finishBits s.result.bitLen.toNat s.capacity).length ≤ 32768 :=
  (State.bitLen_add_finishBits_length hcap).le.trans s.capacity_lt.le

include hm

theorem State.padded_bitLen : s.padded.result.bitLen.toNat = 8 * s.result.dataCw.toNat :=
  (State.appendBits_bitLen hm (State.finishBits_fit hcap)).trans (State.bitLen_add_finishBits_length hcap)

theorem State.padded_streamBit {j : Nat} (hj : j < 32768) : s.padded.streamBit j =
    if s.result.bitLen.toNat ≤ j ∧ j < 8 * s.result.dataCw.toNat
    then (finishBits s.result.bitLen.toNat s.capacity).getD (j - s.result.bitLen.toNat) false else s.streamBit j := by
  rw [← State.bitLen_add_finishBits_length hcap]
  exact State.appendBits_streamBit hm (State.finishBits_fit hcap) hj

theorem State.padded_streamBit_kept {j : Nat} (hj : j < s.result.bitLen.toNat) :
    s.padded.streamBit j = s.streamBit j := by
  have hcw := s.result.dataCw.isLt
  rw [State.padded_streamBit hm hcap (by omega), if_neg (by omega)]

theorem State.padded_streamBit_zero {j : Nat} (hlo : s.result.bitLen.toNat ≤ j) (hhi : j < 8 * s.padStart) :
    s.padded.streamBit j = false := by
  have hcw := s.result.dataCw.isLt
  obtain ⟨-, hend⟩ := State.padStart_bounds hcap
  rw [State.padded_streamBit hm hcap (by omega), if_pos (by omega), State.finishBits_eq hcap,
    List.getD_append _ _ _ _ (by rw [List.length_replicate]; omega), List.getD_replicate _ (by omega)]

theorem State.padded_readByte_codeword {k : Nat} (hlo : s.padStart ≤ k) (hhi : k < s.result.dataCw.toNat) :
    s.padded.readByte (0x3000 + k) = padCodeword (k - s.padStart) := by
  have hcw := s.result.dataCw.isLt
  obtain ⟨hstart, -⟩ := State.padStart_bounds hcap
  rw [State.readByte_dcw _ (by omega)]
  refine State.buf_dcw_of_streamBit fun b hb => ?_
  have hbit := padBits_getD (n := s.result.dataCw.toNat - s.padStart) (k := k - s.padStart) (by omega) hb 0
  rw [Nat.zero_add] at hbit
  rw [State.padded_streamBit hm hcap (by omega), if_pos (by omega), State.finishBits_eq hcap,
    List.getD_append_right _ _ _ _ (by rw [List.length_replicate]; omega), List.length_replicate,
    show 8 * k + b - s.result.bitLen.toNat - (8 * s.padStart - s.result.bitLen.toNat) = 8 * (k - s.padStart) + b by omega]
  exact hbit

theorem State.padded_readByte_outside {x : Nat} (hx : ¬ (0x3000 ≤ x ∧ x < 0x3000 + s.result.dataCw.toNat)) :
    s.padded.readByte x = s.readByte x := by
  have hend := State.bitLen_add_finishBits_length hcap
  exact State.appendBits_readByte hm (State.finishBits_fit hcap) (by omega)

end

/-- Settles O34: the command is one append of R210's padding, and F. -/
theorem bsFinishFillsCapacity : Obligations.BsFinishFillsCapacity := by
  unfold Obligations.BsFinishFillsCapacity
  intro s hm hv hf len cw pad
  have hbody := bsFinishBody_of_canBuild (s.phase.canBuild_iff.2 ⟨hv, hf⟩)
  refine ⟨fun hlong => exec_of_body_error (hbody.trans (if_pos hlong)), fun hcap => ?_⟩
  have hexec := exec_of_body_ok (i := .bsFinish) (hbody.trans (if_neg (Nat.not_lt.2 hcap)))
  refine ⟨_, hexec, State.padded_bitLen hm hcap, ?_, fun j hj => State.padded_streamBit_kept hm hcap hj,
    fun j hlo hhi => State.padded_streamBit_zero hm hcap hlo hhi, fun k hlo hhi => ?_, fun x hx => ?_⟩
  · exact congrArg (fun u : State => ({ u with phase := u.phase.afterFinish } : State).completeOk) (s.appendBits_eq _)
  · exact (State.readByte_congr rfl rfl _).trans (State.padded_readByte_codeword hm hcap hlo hhi)
  · exact (State.readByte_congr rfl rfl _).trans (State.padded_readByte_outside hm hcap hx)

end Sys2Proof.Machine
end

section
/-! PROOFS. The Reed-Solomon encoder (43_ecc.md R231, R234): values of polynomials, the generator polynomial as the
product of its linear factors, and the division register as what makes a block a codeword. -/

namespace Sys2Proof.Machine

open Sys2Proof

/-! ### Values of polynomials -/

theorem evalPoly_nil (x : Byte) : evalPoly [] x = 0 := rfl

theorem evalPoly_concat (c : List Byte) (k x : Byte) : evalPoly (c ++ [k]) x = mulp (evalPoly c x) x ^^^ k := by
  rw [evalPoly, List.foldl_concat, evalPoly]

theorem evalPoly_concat_zero (c : List Byte) (x : Byte) : evalPoly (c ++ [0]) x = mulp (evalPoly c x) x :=
  (evalPoly_concat c 0 x).trans BitVec.xor_zero

theorem mulp_iterate_mulp (x : Byte) (n : Nat) : mulp ((mulp x)^[n] 1) x = (mulp x)^[n + 1] 1 := by
  rw [mulp_comm, Function.iterate_succ_apply']

/-- A polynomial continued by n more coefficients is multiplied by x^n. -/
theorem evalPoly_append (a b : List Byte) (x : Byte) :
    evalPoly (a ++ b) x = mulp (evalPoly a x) ((mulp x)^[b.length] 1) ^^^ evalPoly b x := by
  induction b using List.reverseRecOn with
  | nil => simp [evalPoly_nil]
  | append_singleton b k ih =>
    rw [← List.append_assoc, evalPoly_concat, ih, evalPoly_concat, List.length_append, List.length_singleton,
      mulp_xor_left, mulp_assoc, mulp_iterate_mulp, BitVec.xor_assoc]

theorem evalPoly_cons (k : Byte) (c : List Byte) (x : Byte) :
    evalPoly (k :: c) x = mulp k ((mulp x)^[c.length] 1) ^^^ evalPoly c x := by
  have h := evalPoly_append [k] c x
  rwa [show evalPoly [k] x = k by simp [evalPoly]] at h

theorem evalPoly_replicate_zero (n : Nat) (x : Byte) : evalPoly (List.replicate n 0) x = 0 := by
  induction n with
  | zero => rfl
  | succ n ih =>
    rw [List.replicate_succ', evalPoly_concat_zero, ih]
    exact mulp_zero_left x

theorem evalPoly_zipWith_xor {a b : List Byte} (h : a.length = b.length) (x : Byte) :
    evalPoly (List.zipWith (· ^^^ ·) a b) x = evalPoly a x ^^^ evalPoly b x := by
  induction a generalizing b with
  | nil =>
    obtain rfl := List.length_eq_zero_iff.1 h.symm
    exact (BitVec.xor_self (x := (0 : Byte))).symm
  | cons k a ih =>
    obtain ⟨l, b, rfl⟩ := List.exists_cons_of_length_eq_add_one h.symm
    have hlen : a.length = b.length := Nat.succ.inj h
    rw [List.zipWith_cons_cons, evalPoly_cons, ih hlen, evalPoly_cons, evalPoly_cons, List.length_zipWith, ← hlen,
      Nat.min_self, mulp_xor_left]
    ac_rfl

theorem evalPoly_map_mulp (c : List Byte) (a x : Byte) :
    evalPoly (c.map fun k => mulp k a) x = mulp (evalPoly c x) a := by
  induction c with
  | nil => exact (mulp_zero_left a).symm
  | cons k c ih =>
    rw [List.map_cons, evalPoly_cons, ih, evalPoly_cons, List.length_map, mulp_xor_left, mulp_assoc, mulp_assoc,
      mulp_comm a]

/-! ### The generator polynomial (R231) -/

theorem evalPoly_timesLinear (c : List Byte) (a x : Byte) :
    evalPoly (timesLinear c a) x = mulp (evalPoly c x) (x ^^^ a) := by
  rw [timesLinear, evalPoly_zipWith_xor (by simp), evalPoly_concat_zero, evalPoly_cons, evalPoly_map_mulp,
    mulp_xor_right]
  simp

theorem timesLinear_cons (k : Byte) (c : List Byte) (a : Byte) : ∃ c', timesLinear (k :: c) a = k :: c' :=
  ⟨_, congrArg (· :: _) (BitVec.xor_zero (x := k))⟩

/-- The generator polynomial is monic. -/
theorem genPoly_eq_cons (d : Nat) : ∃ g, genPoly d = 1 :: g := by
  induction d with
  | zero => exact ⟨[], rfl⟩
  | succ d ih =>
    obtain ⟨g, hg⟩ := ih
    rw [genPoly, hg]
    exact timesLinear_cons ..

theorem evalPoly_genPoly (d : Nat) (x : Byte) :
    evalPoly (genPoly d) x = (List.range d).foldl (fun acc i => mulp acc (x ^^^ alphaPow i)) 1 := by
  induction d with
  | zero => simp [genPoly, evalPoly]
  | succ d ih => rw [genPoly, evalPoly_timesLinear, ih, List.range_succ, List.foldl_concat]

/-- α^i is the root of its own factor, and stays one under the factors that follow. -/
theorem evalPoly_genPoly_alphaPow {d i : Nat} (h : i < d) : evalPoly (genPoly d) (alphaPow i) = 0 := by
  induction d with
  | zero => omega
  | succ d ih =>
    rw [genPoly, evalPoly_timesLinear]
    obtain hlt | rfl := Nat.lt_succ_iff_lt_or_eq.1 h
    · rw [ih hlt]
      exact mulp_zero_left _
    · rw [BitVec.xor_self]
      exact mulp_zero_right _

/-- Settles O35: the polynomial is built factor by factor. -/
theorem generatorPolynomial : Obligations.GeneratorPolynomial := by
  unfold Obligations.GeneratorPolynomial
  intro d
  obtain ⟨g, hg⟩ := genPoly_eq_cons d
  exact ⟨genPoly_length d, by rw [hg]; rfl, evalPoly_genPoly d, fun i hi => evalPoly_genPoly_alphaPow hi⟩

/-! ### The division register (R234) -/

theorem divStep_length {c r : List Byte} (hc : c.length = r.length + 1) (x : Byte) :
    (divStep c r x).length = r.length := by
  simp only [divStep, List.length_zipWith, List.length_append, List.length_tail, List.length_singleton]
  omega

theorem rsRemainder_concat (block : List Byte) (x : Byte) (d : Nat) :
    rsRemainder (block ++ [x]) d = divStep (genPoly d) (rsRemainder block d) x := List.foldl_concat ..

theorem rsRemainder_length (block : List Byte) (d : Nat) : (rsRemainder block d).length = d := by
  induction block using List.reverseRecOn with
  | nil => exact List.length_replicate
  | append_singleton block x ih =>
    rw [rsRemainder_concat, divStep_length (by rw [genPoly_length, ih]), ih]

/-- At a root y of a monic divisor of degree d the lower coefficients of the divisor have the value y^d. So one turn of
the register multiplies its value there by y and adds the next codeword times y^d. -/
theorem evalPoly_divStep {g r : List Byte} {y : Byte} (hr : r ≠ []) (hlen : g.length = r.length)
    (hroot : evalPoly (1 :: g) y = 0) (x : Byte) :
    evalPoly (divStep (1 :: g) r x) y = mulp (evalPoly r y) y ^^^ mulp x ((mulp y)^[r.length] 1) := by
  obtain ⟨r₀, r, rfl⟩ := List.exists_cons_of_ne_nil hr
  have hlow : evalPoly g y = (mulp y)^[r.length + 1] 1 := by
    rw [evalPoly_cons, hlen] at hroot
    exact (BitVec.xor_eq_zero_iff.1 (by simpa using hroot)).symm
  have hstep : divStep (1 :: g) (r₀ :: r) x =
      List.zipWith (· ^^^ ·) (r ++ [0]) (g.map fun k => mulp k (x ^^^ r₀)) := (List.zipWith_map_right ..).symm
  calc evalPoly (divStep (1 :: g) (r₀ :: r) x) y
    _ = mulp (evalPoly r y) y ^^^ mulp (x ^^^ r₀) ((mulp y)^[r.length + 1] 1) := by
      rw [hstep, evalPoly_zipWith_xor (by simpa using hlen.symm), evalPoly_concat_zero, evalPoly_map_mulp, hlow,
        mulp_comm (x ^^^ r₀)]
    _ = mulp r₀ ((mulp y)^[r.length + 1] 1) ^^^ mulp (evalPoly r y) y ^^^ mulp x ((mulp y)^[r.length + 1] 1) := by
      rw [mulp_xor_left]
      ac_rfl
    _ = mulp (evalPoly (r₀ :: r) y) y ^^^ mulp x ((mulp y)^[(r₀ :: r).length] 1) := by
      rw [evalPoly_cons, mulp_xor_left, mulp_assoc, mulp_iterate_mulp, List.length_cons]

/-- R234: the remainder takes the value of D(x)·x^d at the roots of the divisor. -/
theorem evalPoly_rsRemainder (block : List Byte) {d i : Nat} (h : i < d) :
    evalPoly (rsRemainder block d) (alphaPow i) = mulp (evalPoly block (alphaPow i)) ((mulp (alphaPow i))^[d] 1) := by
  obtain ⟨g, hg⟩ := genPoly_eq_cons d
  have hlen := genPoly_length d
  have hroot := evalPoly_genPoly_alphaPow h
  rw [hg] at hlen hroot
  induction block using List.reverseRecOn with
  | nil => exact (evalPoly_replicate_zero d _).trans (mulp_zero_left _).symm
  | append_singleton block x ih =>
    have hr := rsRemainder_length block d
    rw [rsRemainder_concat, hg, evalPoly_divStep (List.ne_nil_of_length_pos (by omega))
      ((Nat.succ.inj hlen).trans hr.symm) hroot, ih, hr, evalPoly_concat, mulp_xor_left, mulp_assoc, mulp_assoc,
      mulp_comm (alphaPow i)]

/-- R234: a block followed by its remainder is a codeword. -/
theorem evalPoly_append_rsRemainder (block : List Byte) {d i : Nat} (h : i < d) :
    evalPoly (block ++ rsRemainder block d) (alphaPow i) = 0 := by
  rw [evalPoly_append, rsRemainder_length, evalPoly_rsRemainder block h]
  exact BitVec.xor_self

end Sys2Proof.Machine
end

section
/-! PROOFS. The commands rs.gen (R233) and rs.enc (R235): each writes a list of bytes, filled with 0 to 32 bytes, to a
buffer of its own. -/

namespace Sys2Proof.Machine

open Sys2Proof

/-! ### A buffer of 32 bytes filled -/

theorem fill32_getD (bs : List Byte) {j : Nat} (h : j < 32) : (fill32 bs).getD j 0 = bs.getD j 0 := by
  rw [fill32, List.getD_eq_getElem?_getD, List.getElem?_take_of_lt h, ← List.getD_eq_getElem?_getD]
  obtain hlt | hge := Nat.lt_or_ge j bs.length
  · exact List.getD_append _ _ _ _ hlt
  · rw [List.getD_append_right _ _ _ _ hge, List.getD_replicate _ (by omega), List.getD_eq_default _ _ hge]

theorem State.readByte_setBytes_zero {s : State} (hm : s.MemoryOk) {g : Region} {bs : List Byte}
    (hlen : bs.length = g.size) {j : Nat} (hj : j < g.size) :
    (s.setBytes g 0 bs).readByte (g.base + j) = bs.getD j 0 := by
  rw [State.readByte_base _ g hj, State.buf_setBytes s hm.1 (by omega) hj, if_pos ⟨rfl, Nat.zero_le j⟩, Nat.sub_zero,
    List.getElem?_eq_getElem (by omega), List.getD_eq_getElem _ _ (by omega), Option.getD_some]

theorem State.readByte_setBytes_outside {s : State} (hm : s.MemoryOk) {g : Region} {k : Nat} {bs : List Byte}
    (hfit : k + bs.length ≤ g.size) {x : Nat} (hx : ¬ (g.base ≤ x ∧ x < g.base + g.size)) :
    (s.setBytes g k bs).readByte x = s.readByte x := by
  refine State.readByte_frame (P := fun y => g.base ≤ y ∧ y < g.base + g.size) (fun h i hi hout => ?_) x hx
  refine State.buf_setBytes_of_ne hm.1 hfit hi ?_
  rintro rfl
  omega

/-- A command whose body fills a buffer of 32 bytes completes, and everything it leaves. -/
theorem exec_fill32 {i : Instr} {s : State} {g : Region} {bs : List Byte} (hm : s.MemoryOk) (hg : g.size = 32)
    (hbody : bodyOf i s = .ok (s.setBytes g 0 (fill32 bs))) : ∃ t, exec i s = .next t ∧
      t = { s with latch := none, done := true, mem := t.mem } ∧
      (∀ j, j < 32 → t.readByte (g.base + j) = bs.getD j 0) ∧
      (∀ x, ¬ (g.base ≤ x ∧ x < g.base + 32) → t.readByte x = s.readByte x) := by
  have hlen : (fill32 bs).length = g.size := (fill32_length bs).trans hg.symm
  refine ⟨_, exec_of_body_ok hbody, rfl, fun j hj => ?_, fun x hx => ?_⟩
  · exact (State.readByte_congr rfl rfl _).trans
      ((State.readByte_setBytes_zero hm hlen (hg ▸ hj)).trans (fill32_getD bs hj))
  · exact (State.readByte_congr rfl rfl _).trans
      (State.readByte_setBytes_outside hm (by rw [Nat.zero_add, hlen]) (hg ▸ hx))

theorem getD_eq_ite_lt_length {bs : List Byte} {n : Nat} (h : bs.length = n) (j : Nat) :
    bs.getD j 0 = if j < n then bs.getD j 0 else 0 := by
  split
  · rfl
  · exact List.getD_eq_default _ _ (by omega)

/-- A list by its entries. -/
theorem map_range_eq_of_getD {bs : List Byte} {n : Nat} {f : Nat → Byte} (hlen : bs.length = n)
    (h : ∀ j, j < n → f j = bs.getD j 0) : (List.range n).map f = bs := by
  subst hlen
  refine List.ext_getElem (by simp) fun j _ hj => ?_
  rw [List.getElem_map, List.getElem_range, h j hj, List.getD_eq_getElem _ _ hj]

/-! ### rs.gen (R233) -/

theorem State.checkDegree_error {s : State} (h : s.operand.rsDeg.toNat < 1 ∨ 30 < s.operand.rsDeg.toNat) :
    s.checkDegree = .error (raise .badOperand s.operand.rsDeg.toNat) := if_pos h

theorem State.checkDegree_of_bounds {s : State} (h1 : 1 ≤ s.operand.rsDeg.toNat) (h2 : s.operand.rsDeg.toNat ≤ 30) :
    s.checkDegree = .ok () := if_neg (by rw [Config.ecMaxDeg]; omega)

theorem rsGenBody_error {s : State} {e : CommandError} (h : s.checkDegree = .error e) : rsGenBody s = .error e := by
  rw [rsGenBody, h]

theorem rsGenBody_of_checks {s : State} (h : s.checkDegree = .ok ()) :
    rsGenBody s = .ok (s.setBytes .genb 0 (fill32 (genPoly s.operand.rsDeg.toNat))) := by
  rw [rsGenBody, h]

/-- Settles O36: past the check the command fills GENB with the generator's coefficients. -/
theorem rsGenWritesGenerator : Obligations.RsGenWritesGenerator := by
  unfold Obligations.RsGenWritesGenerator
  refine ⟨rfl, fun s hm => ?_⟩
  intro d
  refine ⟨fun hd => ?_, fun h1 h2 => ?_⟩
  · exact exec_of_body_error (rsGenBody_error (State.checkDegree_error hd))
  · obtain ⟨t, hexec, hframe, hgenb, hother⟩ :=
      exec_fill32 (i := .rsGen) hm rfl (rsGenBody_of_checks (State.checkDegree_of_bounds h1 h2))
    refine ⟨t, hexec, hframe, fun j hj => (hgenb j hj).trans ?_, hother⟩
    simpa only [Nat.lt_succ_iff] using getD_eq_ite_lt_length (genPoly_length d) j

/-! ### rs.enc (R235) -/

theorem State.checkBlock_length_error {s : State}
    (h : s.operand.rsLen.toNat < 1 ∨ 255 - s.operand.rsDeg.toNat < s.operand.rsLen.toNat) :
    s.checkBlock = .error (raise .badOperand s.operand.rsLen.toNat) := if_pos h

theorem State.checkBlock_of_length {s : State} (h1 : 1 ≤ s.operand.rsLen.toNat)
    (h2 : s.operand.rsLen.toNat ≤ 255 - s.operand.rsDeg.toNat) : s.checkBlock =
      if 4096 < s.operand.rsSrc.toNat + s.operand.rsLen.toNat then .error (raise .badOperand s.operand.rsSrc.toNat)
      else .ok () := if_neg (by omega)

theorem rsEncBody_degree_error {s : State} {e : CommandError} (h : s.checkDegree = .error e) :
    rsEncBody s = .error e := by
  rw [rsEncBody, h]

theorem rsEncBody_block_error {s : State} {e : CommandError} (hd : s.checkDegree = .ok ())
    (h : s.checkBlock = .error e) : rsEncBody s = .error e := by
  simp only [rsEncBody, hd, h]

theorem rsEncBody_of_checks {s : State} (hd : s.checkDegree = .ok ()) (hb : s.checkBlock = .ok ()) :
    rsEncBody s = .ok (s.setBytes .ecb 0 (fill32 (rsRemainder
      (s.bytes .dcw s.operand.rsSrc.toNat s.operand.rsLen.toNat) s.operand.rsDeg.toNat))) := by
  simp only [rsEncBody, hd, hb]

/-- A block within DCW, read on the bus. -/
theorem State.bytes_dcw_eq_map_readByte {s : State} (hm : s.MemoryOk) {i n : Nat} (h : i + n ≤ 4096) :
    s.bytes .dcw i n = (List.range n).map fun j => s.readByte (0x3000 + i + j) := by
  rw [State.bytes_eq_map_buf s hm.1]
  refine List.map_congr_left fun j hj => ?_
  have hlt := List.mem_range.1 hj
  rw [Nat.add_assoc, State.readByte_dcw s (by omega)]

/-- Settles O37: past the checks the command fills ECB with the remainder, which makes the block a codeword. -/
theorem rsEncMakesCodeword : Obligations.RsEncMakesCodeword := by
  unfold Obligations.RsEncMakesCodeword
  refine ⟨rfl, fun s hm => ?_⟩
  intro d k src block
  refine ⟨fun hd => ?_, fun h1 h2 hk => ?_, fun h1 h2 hk1 hk2 hsrc => ?_, fun h1 h2 hk1 hk2 hsrc => ?_⟩
  · exact exec_of_body_error (rsEncBody_degree_error (State.checkDegree_error hd))
  · exact exec_of_body_error
      (rsEncBody_block_error (State.checkDegree_of_bounds h1 h2) (State.checkBlock_length_error hk))
  · exact exec_of_body_error (rsEncBody_block_error (State.checkDegree_of_bounds h1 h2)
      ((State.checkBlock_of_length hk1 hk2).trans (if_pos hsrc)))
  · obtain ⟨t, hexec, hframe, hecb, hother⟩ :=
      exec_fill32 (i := .rsEnc) hm rfl (rsEncBody_of_checks (State.checkDegree_of_bounds h1 h2)
        ((State.checkBlock_of_length hk1 hk2).trans (if_neg (Nat.not_lt.2 hsrc))))
    rw [State.bytes_dcw_eq_map_readByte hm hsrc] at hecb
    have hremainder : (List.range d).map (fun j => t.readByte (0x300 + j)) = rsRemainder block d :=
      map_range_eq_of_getD (rsRemainder_length block d) fun j hj => hecb j (by omega)
    refine ⟨t, hexec, hframe, fun j hj => ?_, fun i hi => ?_, hother⟩
    · exact (hecb j hj).trans (getD_eq_ite_lt_length (rsRemainder_length block d) j)
    · rw [hremainder]
      exact evalPoly_append_rsRemainder block hi

end Sys2Proof.Machine
end

section
/-! PROOFS. The final codeword sequence (44_interleave.md R260, R262): the blocks the data codewords are split into, the
places a round-robin gives the codewords of its blocks, and where each codeword stands in the sequence. -/

namespace Sys2Proof.Machine

open Sys2Proof

/-! ### The block split (R260) -/

/-- The number of short blocks, nshort (R260). -/
def shortBlocks (v : Nat) (l : Level) : Nat := numBlocks v l - totalCodewords v % numBlocks v l

/-- The data length of block b (R260). -/
def blockSize (v : Nat) (l : Level) (b : Nat) : Nat := if b < shortBlocks v l then shortLen v l else shortLen v l + 1

/-- The first data codeword of block b: of the blocks before it, those from nshort on are one codeword longer (R260). -/
def blockStart (v : Nat) (l : Level) (b : Nat) : Nat := b * shortLen v l + (b - shortBlocks v l)

/-- The data codewords of block b (R260). -/
def dataBlock (v : Nat) (l : Level) (data : List Byte) (b : Nat) : List Byte :=
  (data.drop (blockStart v l b)).take (blockSize v l b)

theorem blockStart_succ (v : Nat) (l : Level) (b : Nat) :
    blockStart v l (b + 1) = blockStart v l b + blockSize v l b := by
  rw [blockStart, blockStart, blockSize, Nat.succ_mul]
  split <;> omega

theorem shortLen_le_blockSize (v : Nat) (l : Level) (b : Nat) : shortLen v l ≤ blockSize v l b := by
  rw [blockSize]
  split <;> omega

theorem blockSize_long {v : Nat} {l : Level} {b : Nat} (h : shortBlocks v l ≤ b) :
    blockSize v l b = shortLen v l + 1 := if_neg (Nat.not_lt.2 h)

/-- Blocks of given sizes, each starting where the one before it ends. -/
theorem splitBlocks_map_range' {start size : Nat → Nat} (h : ∀ b, start (b + 1) = start b + size b) (data : List Byte)
    (k n : Nat) : splitBlocks (data.drop (start k)) ((List.range' k n).map size) =
      (List.range' k n).map fun b => (data.drop (start b)).take (size b) := by
  induction n generalizing k with
  | zero => rfl
  | succ n ih => rw [List.range'_succ, List.map_cons, List.map_cons, splitBlocks, List.drop_drop, ← h, ih]

/-- R180: the blocks' EC codewords are at most TOTAL_CW, so the subtractions of R179 and R260 are exact. -/
theorem ecCodewords_le_all : ∀ v, v ≤ 40 → ∀ l ∈ [Level.L, .M, .Q, .H],
    eccPerBlock v l * numBlocks v l ≤ totalCodewords v := by
  decide +kernel

theorem ecCodewords_le {v : Nat} (h2 : v ≤ 40) (l : Level) : eccPerBlock v l * numBlocks v l ≤ totalCodewords v :=
  ecCodewords_le_all v h2 l (by cases l <;> decide)

theorem dataCodewords_add_ecCodewords {v : Nat} (h2 : v ≤ 40) (l : Level) :
    dataCodewords v l + eccPerBlock v l * numBlocks v l = totalCodewords v :=
  Nat.sub_add_cancel (ecCodewords_le h2 l)

section
variable {v : Nat} (h1 : 1 ≤ v) (h2 : v ≤ 40) (l : Level)
include h1 h2

theorem shortBlocks_add_longBlocks : shortBlocks v l + totalCodewords v % numBlocks v l = numBlocks v l :=
  Nat.sub_add_cancel (Nat.mod_lt _ (codewords_fit h1 h2 l).1).le

/-- R260: the short columns and the extra codewords of the long blocks are all data codewords. -/
theorem shortColumns_add_longBlocks :
    shortLen v l * numBlocks v l + totalCodewords v % numBlocks v l = dataCodewords v l := by
  have hec : eccPerBlock v l * numBlocks v l ≤ totalCodewords v / numBlocks v l * numBlocks v l :=
    Nat.mul_le_mul_right _ ((Nat.le_div_iff_mul_le (codewords_fit h1 h2 l).1).2 (ecCodewords_le h2 l))
  have hdiv := Nat.div_add_mod' (totalCodewords v) (numBlocks v l)
  rw [shortLen, dataCodewords, Nat.sub_mul]
  omega

/-- R260: the last block ends with the last data codeword. -/
theorem blockStart_numBlocks : blockStart v l (numBlocks v l) = dataCodewords v l := by
  have hblocks := shortBlocks_add_longBlocks h1 h2 l
  rw [blockStart, Nat.mul_comm, ← shortColumns_add_longBlocks h1 h2 l]
  omega

theorem blockLengths_eq_map : blockLengths v l = (List.range (numBlocks v l)).map (blockSize v l) := by
  rw [← shortBlocks_add_longBlocks h1 h2 l, List.range_add, List.map_append, List.map_map]
  refine congrArg₂ (· ++ ·) (List.eq_replicate_iff.2 ⟨?_, ?_⟩).symm (List.eq_replicate_iff.2 ⟨?_, ?_⟩).symm
  · rw [List.length_map, List.length_range, shortBlocks]
  · exact List.forall_mem_map.2 fun b hb => if_pos (List.mem_range.1 hb)
  · rw [List.length_map, List.length_range]
  · exact List.forall_mem_map.2 fun k _ => blockSize_long (Nat.le_add_right _ k)

variable {l} {data : List Byte} (hd : data.length = dataCodewords v l)

theorem splitBlocks_blockLengths :
    splitBlocks data (blockLengths v l) = (List.range (numBlocks v l)).map (dataBlock v l data) := by
  have hsplit := splitBlocks_map_range' (blockStart_succ v l) data 0 (numBlocks v l)
  rw [← List.range_eq_range', show blockStart v l 0 = 0 by simp [blockStart], List.drop_zero] at hsplit
  rw [blockLengths_eq_map h1 h2, hsplit]
  rfl

include hd

theorem dataBlock_length {b : Nat} (hb : b < numBlocks v l) : (dataBlock v l data b).length = blockSize v l b := by
  have hmono : Monotone (blockStart v l) := monotone_nat_of_le_succ fun n => Nat.le.intro (blockStart_succ v l n).symm
  have hend := hmono (Nat.succ_le_of_lt hb)
  rw [blockStart_succ, blockStart_numBlocks h1 h2, ← hd] at hend
  rw [dataBlock, List.length_take, List.length_drop]
  omega

end

theorem dataBlock_getElem? {v : Nat} {l : Level} {data : List Byte} {b i : Nat} (h : i < blockSize v l b) :
    (dataBlock v l data b)[i]? = data[blockStart v l b + i]? := by
  rw [dataBlock, List.getElem?_take_of_lt h, List.getElem?_drop]

/-! ### The round-robin (R262) -/

theorem column_eq_map {blocks : List (List Byte)} {i : Nat} (h : ∀ block ∈ blocks, i < block.length) :
    column blocks i = blocks.map (·.getD i 0) :=
  List.filterMap_eq_map_iff_forall_eq_some.2 fun block hmem => by
    rw [List.getD_eq_getElem?_getD, List.getElem?_eq_getElem (h block hmem), Option.getD_some]

theorem column_getElem? {blocks : List (List Byte)} {block : List Byte} {i b : Nat}
    (h : ∀ block ∈ blocks, i < block.length) (hb : blocks[b]? = some block) : (column blocks i)[b]? = block[i]? := by
  rw [column_eq_map h, List.getElem?_map, hb, Option.map_some, List.getD_eq_getElem?_getD,
    List.getElem?_eq_getElem (h _ (List.mem_of_getElem? hb)), Option.getD_some]

theorem column_append (as bs : List (List Byte)) (i : Nat) : column (as ++ bs) i = column as i ++ column bs i :=
  List.filterMap_append

/-- Exhausted blocks stop contributing. -/
theorem column_eq_nil {blocks : List (List Byte)} {i : Nat} (h : ∀ block ∈ blocks, block.length ≤ i) :
    column blocks i = [] :=
  List.filterMap_eq_nil_iff.2 fun block hmem => List.getElem?_eq_none (h block hmem)

theorem roundRobin_succ (blocks : List (List Byte)) (n : Nat) :
    roundRobin blocks (n + 1) = roundRobin blocks n ++ column blocks n := by
  rw [roundRobin, List.range_succ, List.flatMap_append, List.flatMap_singleton, ← roundRobin]

theorem roundRobin_length {blocks : List (List Byte)} {n : Nat} (h : ∀ block ∈ blocks, n ≤ block.length) :
    (roundRobin blocks n).length = n * blocks.length := by
  induction n with
  | zero => rw [Nat.zero_mul]; rfl
  | succ n ih =>
    rw [roundRobin_succ, List.length_append, ih fun block hmem => Nat.le_of_succ_le (h block hmem), column_eq_map h,
      List.length_map, Nat.succ_mul]

/-- While every block contributes, codeword i of block b is in row i, at place b. -/
theorem roundRobin_getElem? {blocks : List (List Byte)} {block : List Byte} {n i b : Nat}
    (h : ∀ block ∈ blocks, n ≤ block.length) (hi : i < n) (hb : blocks[b]? = some block) :
    (roundRobin blocks n)[i * blocks.length + b]? = block[i]? := by
  obtain ⟨hlt, -⟩ := List.getElem?_eq_some_iff.1 hb
  induction n with
  | zero => omega
  | succ n ih =>
    have h' : ∀ block ∈ blocks, n ≤ block.length := fun block hmem => Nat.le_of_succ_le (h block hmem)
    have hlen := roundRobin_length h'
    rw [roundRobin_succ]
    obtain hlow | rfl := Nat.lt_succ_iff_lt_or_eq.1 hi
    · have hrow := Nat.mul_le_mul_right blocks.length (Nat.succ_le_of_lt hlow)
      rw [Nat.succ_mul] at hrow
      rw [List.getElem?_append_left (by omega), ih h' hlow]
    · rw [List.getElem?_append_right (by omega), hlen, Nat.add_sub_cancel_left, column_getElem? h hb]

/-! ### The final sequence (R262) -/

/-- The blocks of the data codewords (R260). -/
def dataBlocks (v : Nat) (l : Level) (data : List Byte) : List (List Byte) :=
  (List.range (numBlocks v l)).map (dataBlock v l data)

/-- The long blocks, nshort .. nb-1 (R260). -/
def longBlocks (v : Nat) (l : Level) (data : List Byte) : List (List Byte) :=
  (List.range (totalCodewords v % numBlocks v l)).map fun k => dataBlock v l data (shortBlocks v l + k)

/-- The EC codewords of each block (R234). -/
def ecBlocks (v : Nat) (l : Level) (data : List Byte) : List (List Byte) :=
  (List.range (numBlocks v l)).map fun b => rsRemainder (dataBlock v l data b) (eccPerBlock v l)

@[simp] theorem dataBlocks_length (v : Nat) (l : Level) (data : List Byte) :
    (dataBlocks v l data).length = numBlocks v l := by
  rw [dataBlocks, List.length_map, List.length_range]

@[simp] theorem longBlocks_length (v : Nat) (l : Level) (data : List Byte) :
    (longBlocks v l data).length = totalCodewords v % numBlocks v l := by
  rw [longBlocks, List.length_map, List.length_range]

@[simp] theorem ecBlocks_length (v : Nat) (l : Level) (data : List Byte) :
    (ecBlocks v l data).length = numBlocks v l := by
  rw [ecBlocks, List.length_map, List.length_range]

theorem map_range_getElem? {n i : Nat} (f : Nat → List Byte) (h : i < n) : ((List.range n).map f)[i]? = some (f i) := by
  rw [List.getElem?_map, List.getElem?_range h, Option.map_some]

theorem eccPerBlock_le_ecBlocks (v : Nat) (l : Level) (data : List Byte) :
    ∀ block ∈ ecBlocks v l data, eccPerBlock v l ≤ block.length :=
  List.forall_mem_map.2 fun _ _ => (rsRemainder_length ..).ge

section
variable {v : Nat} (h1 : 1 ≤ v) (h2 : v ≤ 40) {l : Level} {data : List Byte} (hd : data.length = dataCodewords v l)
include h1 h2 hd

theorem shortLen_le_dataBlocks : ∀ block ∈ dataBlocks v l data, shortLen v l ≤ block.length :=
  List.forall_mem_map.2 fun b hb => by
    rw [dataBlock_length h1 h2 hd (List.mem_range.1 hb)]
    exact shortLen_le_blockSize v l b

theorem shortLen_lt_longBlocks : ∀ block ∈ longBlocks v l data, shortLen v l < block.length :=
  List.forall_mem_map.2 fun k hk => by
    have hblocks := shortBlocks_add_longBlocks h1 h2 l
    have hlt := List.mem_range.1 hk
    rw [dataBlock_length h1 h2 hd (by omega), blockSize_long (Nat.le_add_right _ k)]
    exact Nat.lt_succ_self _

/-- In the last data column the short blocks are exhausted. -/
theorem column_dataBlocks_shortLen :
    column (dataBlocks v l data) (shortLen v l) = column (longBlocks v l data) (shortLen v l) := by
  have hblocks := shortBlocks_add_longBlocks h1 h2 l
  rw [dataBlocks, ← hblocks, List.range_add, List.map_append, List.map_map, column_append, column_eq_nil, List.nil_append]
  · rfl
  · refine List.forall_mem_map.2 fun b hb => ?_
    have hlt := List.mem_range.1 hb
    rw [dataBlock_length h1 h2 hd (by omega), blockSize, if_pos hlt]

theorem finalCodewords_eq : finalCodewords v l data = roundRobin (dataBlocks v l data) (shortLen v l) ++
    column (longBlocks v l data) (shortLen v l) ++ roundRobin (ecBlocks v l data) (eccPerBlock v l) := by
  rw [finalCodewords, splitBlocks_blockLengths h1 h2, List.map_map, roundRobin_succ,
    ← column_dataBlocks_shortLen h1 h2 hd]
  rfl

theorem shortColumns_length :
    (roundRobin (dataBlocks v l data) (shortLen v l)).length = shortLen v l * numBlocks v l := by
  rw [roundRobin_length (shortLen_le_dataBlocks h1 h2 hd), dataBlocks_length]

theorem dataColumns_length : (roundRobin (dataBlocks v l data) (shortLen v l) ++
    column (longBlocks v l data) (shortLen v l)).length = dataCodewords v l := by
  rw [List.length_append, shortColumns_length h1 h2 hd, column_eq_map (shortLen_lt_longBlocks h1 h2 hd),
    List.length_map, longBlocks_length, shortColumns_add_longBlocks h1 h2]

/-- R265: the final sequence has TOTAL_CW codewords. -/
theorem finalCodewords_length : (finalCodewords v l data).length = totalCodewords v := by
  rw [finalCodewords_eq h1 h2 hd, List.length_append, dataColumns_length h1 h2 hd,
    roundRobin_length (eccPerBlock_le_ecBlocks v l data), ecBlocks_length,
    dataCodewords_add_ecCodewords h2]

theorem finalCodewords_getElem?_short {b i : Nat} (hb : b < numBlocks v l) (hi : i < shortLen v l) :
    (finalCodewords v l data)[i * numBlocks v l + b]? = data[blockStart v l b + i]? := by
  have hplace := roundRobin_getElem? (shortLen_le_dataBlocks h1 h2 hd) hi (map_range_getElem? _ hb)
  have hrow := Nat.mul_le_mul_right (numBlocks v l) (Nat.succ_le_of_lt hi)
  rw [Nat.succ_mul] at hrow
  rw [dataBlocks_length] at hplace
  rw [finalCodewords_eq h1 h2 hd, List.append_assoc,
    List.getElem?_append_left (by rw [shortColumns_length h1 h2 hd]; omega), hplace,
    dataBlock_getElem? (Nat.lt_of_lt_of_le hi (shortLen_le_blockSize v l b))]

theorem finalCodewords_getElem?_long {b : Nat} (hlo : shortBlocks v l ≤ b) (hb : b < numBlocks v l) :
    (finalCodewords v l data)[shortLen v l * numBlocks v l + (b - shortBlocks v l)]? =
      data[blockStart v l b + shortLen v l]? := by
  have hblocks := shortBlocks_add_longBlocks h1 h2 l
  have hcolumns := shortColumns_add_longBlocks h1 h2 l
  have hshort := shortColumns_length h1 h2 hd
  have hplace := column_getElem? (shortLen_lt_longBlocks h1 h2 hd)
    (map_range_getElem? _ (i := b - shortBlocks v l) (by omega))
  rw [finalCodewords_eq h1 h2 hd, List.getElem?_append_left (by rw [dataColumns_length h1 h2 hd]; omega),
    List.getElem?_append_right (by omega), hshort, Nat.add_sub_cancel_left, hplace, Nat.add_sub_cancel' hlo,
    dataBlock_getElem? (blockSize_long hlo ▸ Nat.lt_succ_self _)]

theorem finalCodewords_getElem?_ec {b i : Nat} (hb : b < numBlocks v l) (hi : i < eccPerBlock v l) :
    (finalCodewords v l data)[dataCodewords v l + i * numBlocks v l + b]? =
      (rsRemainder (dataBlock v l data b) (eccPerBlock v l))[i]? := by
  have hplace := roundRobin_getElem? (eccPerBlock_le_ecBlocks v l data) hi (map_range_getElem? _ hb)
  have hdata := dataColumns_length h1 h2 hd
  rw [ecBlocks_length] at hplace
  rw [finalCodewords_eq h1 h2 hd, List.getElem?_append_right (by omega), hdata, Nat.add_assoc,
    Nat.add_sub_cancel_left, hplace]

end

/-- Settles O38: the sequence is the short columns, the extra codewords of the long blocks, and the EC columns, and each
column holds one codeword of each block in it. -/
theorem interleavePositions : Obligations.InterleavePositions := by
  unfold Obligations.InterleavePositions
  intro v l data h1 h2 hd nb ec short nshort start size out
  obtain ⟨hpos, -⟩ := codewords_fit h1 h2 l
  refine ⟨finalCodewords_length h1 h2 hd, ?_, fun b i hb hi => finalCodewords_getElem?_short h1 h2 hd hb hi,
    fun b hlo hb => finalCodewords_getElem?_long h1 h2 hd hlo hb,
    fun b i hb hi => finalCodewords_getElem?_ec h1 h2 hd hb hi⟩
  calc start (nb - 1) + size (nb - 1)
    _ = blockStart v l (nb - 1 + 1) := (blockStart_succ v l (nb - 1)).symm
    _ = data.length := by rw [Nat.sub_add_cancel hpos, blockStart_numBlocks h1 h2, hd]

end Sys2Proof.Machine
end

section
/-! PROOFS. The command ileave (44_interleave.md R263): it writes the final codeword sequence at the start of FCW. -/

namespace Sys2Proof.Machine

open Sys2Proof

/-! ### A run of bytes in a buffer, read on the bus -/

section
variable {s : State} (hm : s.MemoryOk) {g : Region} {bs : List Byte} (hfit : bs.length ≤ g.size)
include hm hfit

theorem State.readByte_setBytes_run {j : Nat} (hj : j < bs.length) :
    (s.setBytes g 0 bs).readByte (g.base + j) = bs.getD j 0 := by
  have hlt := Nat.lt_of_lt_of_le hj hfit
  rw [State.readByte_base _ g hlt, State.buf_setBytes s hm.1 (by omega) hlt, if_pos ⟨rfl, Nat.zero_le j⟩, Nat.sub_zero,
    List.getElem?_eq_getElem hj, List.getD_eq_getElem _ _ hj, Option.getD_some]

theorem State.readByte_setBytes_outside_run {x : Nat} (hx : ¬ (g.base ≤ x ∧ x < g.base + bs.length)) :
    (s.setBytes g 0 bs).readByte x = s.readByte x := by
  refine State.readByte_frame (P := fun y => g.base ≤ y ∧ y < g.base + bs.length) (fun h i hi hout => ?_) x hx
  rw [State.buf_setBytes s hm.1 (by omega) hi]
  split
  · next hin =>
    obtain ⟨rfl, -⟩ := hin
    rw [List.getElem?_eq_none (by omega), Option.getD_none]
  · rfl

end

/-! ### The command -/

theorem ileaveBody_of_f {s : State} (h : s.phase.f = true) : ileaveBody s =
    .ok { s.setBytes .fcw 0 (finalCodewords s.result.version.toNat s.level (s.bytes .dcw 0 s.result.dataCw.toNat)) with
      phase := s.phase.afterIleave } := by
  simp only [ileaveBody, Phase.canInterleave, h, Bool.not_true, Bool.false_eq_true, if_false]

/-- Settles O39: with F = 1 the symbol registers are those of a version and level, so the final sequence has TOTAL_CW
codewords, which FCW has room for. -/
theorem ileaveWritesFinalSequence : Obligations.IleaveWritesFinalSequence := by
  unfold Obligations.IleaveWritesFinalSequence
  intro s hm hphase hsymbol hf total data
  rw [State.SymbolOk, if_pos (hphase.2.1 hf)] at hsymbol
  obtain ⟨h1, h2, -, hdataCw, -, -⟩ := hsymbol
  have hdata : s.bytes .dcw 0 s.result.dataCw.toNat = data :=
    State.bytes_dcw_eq_map_readByte hm (by have := s.result.dataCw.isLt; omega)
  have hbody := ileaveBody_of_f hf
  rw [hdata] at hbody
  have hlen : (finalCodewords s.result.version.toNat s.level data).length = total :=
    finalCodewords_length h1 h2 (by rw [List.length_map, List.length_range, hdataCw])
  have hfit : (finalCodewords s.result.version.toNat s.level data).length ≤ Region.size .fcw :=
    finalCodewords_length_le h1 h2 (by rw [List.length_map, List.length_range, hdataCw])
  refine ⟨_, exec_of_body_ok (i := .ileave) hbody, rfl, fun j hj => ?_, fun x hx => ?_⟩
  · exact (State.readByte_congr rfl rfl _).trans (State.readByte_setBytes_run hm hfit (hlen ▸ hj))
  · exact (State.readByte_congr rfl rfl _).trans (State.readByte_setBytes_outside_run hm hfit (hlen ▸ hx))

end Sys2Proof.Machine
end

section
/-! PROOFS. The matrix builder (45_matrix.md): what writing a grid back leaves on the bus, and the commands mx.init
(R282) and mx.func (R291). -/

namespace Sys2Proof.Machine

open Sys2Proof

/-! ### A grid written back, read on the bus -/

/-- Writing a grid back changes the byte of a module (r, c) of the symbol only where Q holds, when the grid keeps every
other module. -/
theorem State.readByte_setGrid {s : State} (hm : s.MemoryOk) (hN : s.side ≤ 177) {g : Grid}
    (hg : Grid.Square s.side g) {Q : Nat → Nat → Prop}
    (hkeep : ∀ r, r < s.side → ∀ c, c < s.side → ¬ Q r c → g.get r c = s.moduleAt r c) {x : Nat}
    (hx : ¬ ∃ r c, r < s.side ∧ c < s.side ∧ Q r c ∧ x = 0x8000 + 177 * r + c) :
    (s.setGrid g).readByte x = s.readByte x := by
  refine State.readByte_frame (P := fun y => ∃ r c, r < s.side ∧ c < s.side ∧ Q r c ∧ y = 0x8000 + 177 * r + c)
    (fun h j hj hout => ?_) x hx
  rw [State.buf_setGrid hm hN hg h hj]
  split
  · next hin =>
    obtain ⟨rfl, hr, hc⟩ := hin
    have hj' := div_mod_177 j
    have hQ : ¬ Q (j / 177) (j % 177) := fun hQ => hout ⟨_, _, hr, hc, hQ, by rw [Region.base]; omega⟩
    rw [hkeep _ hr _ hc hQ, State.moduleAt, moduleIndex, Config.mxStride, ← hj',
      Module.toByte_ofByte (State.buf_mx_lt hm hj)]
  · rfl

/-! ### The symbol of a matrix command -/

/-- With V = 1 the symbol has a version 1..40, and TOTAL_CW is that version's. -/
theorem State.SymbolOk.of_v {s : State} (h : s.SymbolOk) (hv : s.phase.v = true) :
    1 ≤ s.result.version.toNat ∧ s.result.version.toNat ≤ 40 ∧
      s.result.totalCw.toNat = totalCodewords s.result.version.toNat := by
  rw [State.SymbolOk, if_pos hv] at h
  obtain ⟨h1, h2, -, -, htotal, -⟩ := h
  exact ⟨h1, h2, htotal⟩

/-! ### mx.init (R282) -/

theorem mxInitBody_of_not_v {s : State} (h : s.phase.v = false) : mxInitBody s = .error s.sequenceError := by
  simp only [mxInitBody, Phase.canInit, h, Bool.not_false, if_true]

theorem mxInitBody_of_v {s : State} (h : s.phase.v = true) : mxInitBody s =
    .ok { s.setBytes .mx 0 (List.replicate (Region.size .mx) 0) with phase := s.phase.afterInit } := by
  simp only [mxInitBody, Phase.canInit, h, Bool.not_true, Bool.false_eq_true, if_false]

/-- Settles O40: past the check one run of zeros fills MX, and the rest of the command writes flags. -/
theorem mxInitClearsMatrix : Obligations.MxInitClearsMatrix := by
  unfold Obligations.MxInitClearsMatrix
  refine ⟨rfl, fun s hv => exec_of_body_error (i := .mxInit) (mxInitBody_of_not_v hv), fun s hm hv => ?_⟩
  have hlen : (List.replicate (Region.size .mx) (0 : Byte)).length = Region.size .mx := List.length_replicate
  refine ⟨_, exec_of_body_ok (i := .mxInit) (mxInitBody_of_v hv), rfl, fun x hlo hhi => ?_, fun x hx => ?_⟩
  · obtain ⟨j, rfl⟩ := Nat.exists_eq_add_of_le hlo
    have hj : j < Region.size .mx := by rw [Region.size]; omega
    calc _
      _ = (List.replicate (Region.size .mx) (0 : Byte)).getD j 0 :=
        (State.readByte_congr rfl rfl _).trans (State.readByte_setBytes_zero hm hlen hj)
      _ = 0 := List.getD_replicate _ hj
  · exact (State.readByte_congr rfl rfl _).trans
      (State.readByte_setBytes_outside hm (by rw [Nat.zero_add, hlen]) hx)

/-! ### mx.func (R291) -/

theorem mxFuncBody_of_placeAll {s : State} {g : Grid} (hm : s.phase.m = true) (hp : s.phase.p = false)
    (h : placeAll s.grid (functionPlacements s.result.version.toNat) = .ok g) :
    mxFuncBody s = .ok { s.setGrid g with phase := s.phase.afterFunc } := by
  simp only [mxFuncBody, Phase.canFunc, hm, hp, h, Bool.not_true, Bool.not_false, Bool.and_true, Bool.false_eq_true,
    if_false]

/-- Settles O41: the matrix is blank, and on a blank matrix no placement meets another one's module. -/
theorem mxFuncPlacesPatterns : Obligations.MxFuncPlacesPatterns := by
  unfold Obligations.MxFuncPlacesPatterns
  intro s hm hphase hsymbol hmatrix hinit hp
  obtain ⟨-, -, -, -, -, hmv⟩ := hphase
  obtain ⟨h1, h2, -⟩ := hsymbol.of_v (hmv hinit)
  have hN : s.side ≤ 177 := State.side_le_of_version h2
  have hblank : ∀ r < s.side, ∀ c < s.side, s.grid.get r c = .blank := fun r hr c hc => by
    rw [s.grid_get hm.1 hr hc hN]
    exact (hmatrix hinit r hr c hc).1 hp
  obtain ⟨g, hplace, hg, hget⟩ := placeAll_blank h1 h2 (s.grid_square hN) hblank
  refine ⟨_, exec_of_body_ok (i := .mxFunc) (mxFuncBody_of_placeAll hinit hp hplace), rfl, fun r c hr hc => ?_,
    fun x hx => ?_⟩
  · exact (State.moduleAt_setGrid hm hN hg hr hc).trans (hget r hr c hc)
  · refine (State.readByte_congr rfl rfl _).trans
      (State.readByte_setGrid hm hN hg (Q := fun _ _ => True) (fun _ _ _ _ h => absurd trivial h) ?_)
    rintro ⟨r, c, hr, hc, -, e⟩
    exact hx ⟨r, c, hr, hc, e⟩

/-- Settles O42: the placements of version 1, evaluated module by module. -/
theorem roleMapOfVersionOne : Obligations.RoleMapOfVersionOne := by
  unfold Obligations.RoleMapOfVersionOne
  decide +kernel

end Sys2Proof.Machine
end

section
/-! PROOFS. The modules MX_FUNC leaves EMPTY number RAW(v) (45_matrix.md R300, R301). -/

namespace Sys2Proof.Machine

open Sys2Proof

/-- The modules of an n×n symbol, row by row. -/
def symbolModules (n : Nat) : List (Nat × Nat) := List.range n ×ˢ List.range n

theorem mem_symbolModules {n : Nat} {p : Nat × Nat} : p ∈ symbolModules n ↔ p.1 < n ∧ p.2 < n := by
  rw [symbolModules, List.mem_product, List.mem_range, List.mem_range]

theorem nodup_symbolModules (n : Nat) : (symbolModules n).Nodup := List.nodup_range.product List.nodup_range

/-- The modules MX_FUNC writes. -/
def writtenModules (v : Nat) : List (Nat × Nat) := (functionPlacements v).map fun p => (p.row, p.col)

/-- The modules of the symbol MX_FUNC leaves EMPTY. -/
def emptyModules (v : Nat) : List (Nat × Nat) :=
  (symbolModules (sideOf v)).filter fun p => decide ((placedModule v p.1 p.2).role = .empty)

theorem placedModule_empty_iff {v r c : Nat} : (placedModule v r c).role = .empty ↔ (r, c) ∉ writtenModules v := by
  rw [writtenModules, ← placedAt_eq_none]
  refine ⟨placedModule_eq_blank, fun h => ?_⟩
  rw [placedModule_eq, h]
  rfl

section
variable {v : Nat} (h1 : 1 ≤ v) (h2 : v ≤ 40)
include h1 h2

theorem nodup_writtenModules : (writtenModules v).Nodup := by
  rw [writtenModules, List.Nodup, List.pairwise_map]
  exact (functionPlacements_disjoint h1 h2).imp fun h e => h (Prod.mk.inj e)

theorem symbolModules_of_written {p : Nat × Nat} (hp : p ∈ writtenModules v) : p ∈ symbolModules (sideOf v) := by
  obtain ⟨q, hq, rfl⟩ := List.mem_map.1 hp
  exact mem_symbolModules.2 (functionPlacements_inside h1 h2 q hq)

/-- The symbol is the modules MX_FUNC writes and those it leaves EMPTY. -/
theorem writtenModules_append_emptyModules_perm :
    (writtenModules v ++ emptyModules v).Perm (symbolModules (sideOf v)) := by
  have hempty : ∀ p, p ∈ emptyModules v ↔ p ∈ symbolModules (sideOf v) ∧ p ∉ writtenModules v := fun p => by
    rw [emptyModules, List.mem_filter, decide_eq_true_iff, placedModule_empty_iff]
  refine (List.perm_ext_iff_of_nodup ?_ (nodup_symbolModules _)).2 fun p => ?_
  · exact List.nodup_append'.2 ⟨nodup_writtenModules h1 h2, (nodup_symbolModules _).filter _,
      fun p hw he => ((hempty p).1 he).2 hw⟩
  · rw [List.mem_append, hempty]
    by_cases hw : p ∈ writtenModules v
    · simp only [hw, symbolModules_of_written h1 h2 hw, true_or]
    · simp only [hw, false_or, not_false_iff, and_true]

theorem emptyModules_length : (emptyModules v).length = rawModules v := by
  have hsum := (writtenModules_append_emptyModules_perm h1 h2).length_eq
  have hraw := functionPlacements_length h1 h2
  rw [List.length_append, writtenModules, List.length_map, symbolModules, List.length_product,
    List.length_range] at hsum
  omega

end

/-- The roles of the symbol's modules row by row, counted. -/
theorem count_empty_eq_length_emptyModules (v : Nat) :
    (((List.range (sideOf v)).flatMap fun r => (List.range (sideOf v)).map fun c => (placedModule v r c).role).count
      .empty) = (emptyModules v).length := by
  have hmap : ((List.range (sideOf v)).flatMap fun r => (List.range (sideOf v)).map fun c => (placedModule v r c).role) =
      (symbolModules (sideOf v)).map fun p => (placedModule v p.1 p.2).role := by
    simp only [symbolModules, SProd.sprod, List.product, List.map_flatMap, List.map_map, Function.comp_def]
  rw [hmap, List.count, List.countP_map, List.countP_eq_length_filter, emptyModules]
  rfl

/-- Settles O43: MX_FUNC's placements are disjoint modules of the symbol, and they number N² - RAW(v). -/
theorem rawModuleCount : Obligations.RawModuleCount := by
  unfold Obligations.RawModuleCount
  intro v h1 h2
  rw [count_empty_eq_length_emptyModules, emptyModules_length h1 h2, rawModules, alignModules, versionModules]
  simp only [show v ≤ 1 ↔ v = 1 by omega]

end Sys2Proof.Machine
end

section
/-! PROOFS. The command mx.place (45_matrix.md R297 to R299): the EMPTY modules in zigzag order take the bits of the
final codeword sequence, and there are as many of either. -/

namespace Sys2Proof.Machine

open Sys2Proof

/-! ### The placement bits (R298) -/

theorem byteBits_eq_flatMap (codewords : List Byte) :
    byteBits codewords = codewords.flatMap fun b => bitSeq b.toNat 8 := by
  induction codewords with
  | nil => rfl
  | cons b rest ih => rw [byteBits, ih, List.flatMap_cons]

/-- Bit k of a byte sequence, each byte most significant bit first. -/
theorem byteBits_getD {codewords : List Byte} {k : Nat} (hk : k < 8 * codewords.length) :
    (byteBits codewords).getD k false = (codewords.getD (k / 8) 0).getLsbD (7 - k % 8) := by
  have hb : k % 8 < 8 := Nat.mod_lt _ (by decide)
  calc (byteBits codewords).getD k false
    _ = (((byteBits codewords).drop (8 * (k / 8))).take 8).getD (k % 8) false := by
      simp only [List.getD_eq_getElem?_getD, List.getElem?_take_of_lt hb, List.getElem?_drop, Nat.div_add_mod]
    _ = (bitSeq (codewords.getD (k / 8) 0).toNat 8).getD (k % 8) false := by rw [byteBits_group (by omega)]
    _ = (codewords.getD (k / 8) 0).getLsbD (7 - k % 8) := by rw [bitSeq_getD _ hb, BitVec.testBit_toNat]

/-- The codewords' bits, and LIGHT from there on. -/
theorem placementBits_getD (codewords : List Byte) (rem k : Nat) : (placementBits codewords rem).getD k false =
    (decide (k < 8 * codewords.length) && (codewords.getD (k / 8) 0).getLsbD (7 - k % 8)) := by
  have hlen : (byteBits codewords).length = 8 * codewords.length := byteBits_length codewords
  rw [placementBits, ← byteBits_eq_flatMap]
  by_cases hk : k < 8 * codewords.length
  · rw [List.getD_append _ _ _ _ (by rwa [hlen]), byteBits_getD hk, decide_eq_true hk, Bool.true_and]
  · rw [List.getD_append_right _ _ _ _ (by omega), decide_eq_false hk, Bool.false_and, List.getD_eq_getElem?_getD,
      List.getElem?_replicate]
    split <;> rfl

theorem State.bytes_fcw_getD {s : State} (hm : s.MemoryOk) {n j : Nat} (hn : n ≤ 4096) (hj : j < n) :
    (s.bytes .fcw 0 n).getD j 0 = s.readByte (0x4000 + j) := by
  rw [State.bytes_eq_map_buf s hm.1, List.getD_eq_getElem?_getD, List.getElem?_map, List.getElem?_range hj,
    Option.map_some, Option.getD_some, Nat.zero_add]
  exact (State.readByte_base s .fcw (show j < Region.size .fcw by rw [Region.size]; omega)).symm

/-- Bit k of FCW[0..n-1], most significant bit first, and LIGHT from there on, read on the bus. -/
theorem State.placementBits_fcw_getD {s : State} (hm : s.MemoryOk) {n : Nat} (hn : n ≤ 4096) (rem k : Nat) :
    (placementBits (s.bytes .fcw 0 n) rem).getD k false =
      (decide (k < 8 * n) && (s.readByte (0x4000 + k / 8)).getLsbD (7 - k % 8)) := by
  rw [placementBits_getD, State.bytes_length]
  by_cases hk : k < 8 * n
  · rw [State.bytes_fcw_getD hm hn (by omega)]
  · rw [decide_eq_false hk, Bool.false_and, Bool.false_and]

/-! ### The path -/

/-- The EMPTY modules of MX in zigzag order. -/
def State.placementPath (s : State) : List (Nat × Nat) :=
  (zigzagAll s.side).filter fun p => decide ((s.moduleAt p.1 p.2).role = .empty)

/-- MX_FUNC makes no DATA module. -/
theorem placedModule_role_ne_data (v r c : Nat) : (placedModule v r c).role ≠ .data := by
  rw [placedModule_eq]
  cases e : placedAt (functionPlacements v) r c with
  | none => exact nofun
  | some p =>
    show p.mod.role ≠ .data
    rcases functionPlacements_role p (placedAt_some e).1 with h | h <;> rw [h] <;> decide

/-- Before MX_PLACE a module of the matrix is EMPTY where MX_FUNC leaves it so. -/
theorem ModuleOk.empty_iff {p : Phase} {placed m : Module} (h : ModuleOk p placed m) (hplaced : placed.role ≠ .data)
    (hp : p.p = true) (hd : p.d = false) (hk : p.k = false) : m.role = .empty ↔ placed.role = .empty := by
  obtain ⟨-, hfun, hres, hemp⟩ := h
  cases hrole : placed.role with
  | empty => simp only [(hemp hp hrole).1 hd, Module.blank]
  | function => rw [hfun hp hrole, hrole]
  | reserved => rw [(hres hp hrole).1 hk, hrole]
  | data => exact absurd hrole hplaced

/-- The EMPTY modules of the symbol are those MX_FUNC leaves EMPTY. -/
abbrev State.EmptyAsPlaced (s : State) : Prop :=
  ∀ r, r < s.side → ∀ c, c < s.side →
    ((s.moduleAt r c).role = .empty ↔ (placedModule s.result.version.toNat r c).role = .empty)

theorem State.MatrixOk.emptyAsPlaced {s : State} (h : s.MatrixOk) (hphase : s.phase.Ok) (hp : s.phase.p = true)
    (hd : s.phase.d = false) : s.EmptyAsPlaced := by
  obtain ⟨-, -, hkd, -, hpm, -⟩ := hphase
  have hk : s.phase.k = false := Bool.eq_false_iff.2 fun hk => by cases hd.symm.trans (hkd hk)
  exact fun r hr c hc => (h (hpm hp) r hr c hc).empty_iff (placedModule_role_ne_data _ r c) hp hd hk

/-- The matrix mx.place writes. -/
def State.filledGrid (s : State) : Grid :=
  placeBits s.grid s.placementPath
    (placementBits (s.bytes .fcw 0 s.result.totalCw.toNat) (remainderBits s.result.version.toNat))

section
variable {s : State} (hm : s.MemoryOk) (h1 : 1 ≤ s.result.version.toNat) (h2 : s.result.version.toNat ≤ 40)

include h1 in
theorem State.nodup_placementPath : s.placementPath.Nodup := (nodup_zigzagAll h1).filter _

include h1 in
theorem State.placementPath_inside : ∀ p ∈ s.placementPath, p.1 < s.side ∧ p.2 < s.side := by
  intro p hp
  obtain ⟨hr, hc, -⟩ := (mem_zigzagAll h1).1 (List.mem_of_mem_filter hp)
  exact ⟨hr, hc⟩

include hm h1 h2 in
/-- The path of mx.place, which reads the matrix as a grid. -/
theorem State.zigzag_grid : zigzag s.side s.grid = s.placementPath := by
  refine List.filter_congr fun p hp => ?_
  obtain ⟨hr, hc, -⟩ := (mem_zigzagAll h1).1 hp
  rw [s.grid_get hm.1 hr hc (State.side_le_of_version h2)]

include h1 h2

theorem State.mem_placementPath (hempty : s.EmptyAsPlaced) {p : Nat × Nat} :
    p ∈ s.placementPath ↔ (p.1 < s.side ∧ p.2 < s.side) ∧ (s.moduleAt p.1 p.2).role = .empty := by
  constructor
  · intro hp
    exact ⟨State.placementPath_inside h1 p hp, of_decide_eq_true (List.mem_filter.1 hp).2⟩
  · rintro ⟨⟨hr, hc⟩, he⟩
    exact List.mem_filter.2 ⟨mem_zigzagAll_of_empty h1 h2 hr hc ((hempty _ hr _ hc).1 he), decide_eq_true he⟩

/-- R300: the path has RAW(v) modules. -/
theorem State.placementPath_length (hempty : s.EmptyAsPlaced) :
    s.placementPath.length = rawModules s.result.version.toNat := by
  rw [← emptyModules_length h1 h2]
  refine ((List.perm_ext_iff_of_nodup (State.nodup_placementPath h1) ((nodup_symbolModules _).filter _)).2
    fun p => ?_).length_eq
  rw [State.mem_placementPath h1 h2 hempty, List.mem_filter, mem_symbolModules, decide_eq_true_iff]
  exact and_congr_right fun hin => hempty _ hin.1 _ hin.2

include hm

/-- Module k of the path takes bit k, and every other module is kept. -/
theorem State.filledGrid_spec : Grid.Square s.side s.filledGrid ∧
    (∀ k p, s.placementPath[k]? = some p → s.filledGrid.get p.1 p.2 =
      ⟨decide (k < 8 * s.result.totalCw.toNat) && (s.readByte (0x4000 + k / 8)).getLsbD (7 - k % 8), .data⟩) ∧
    ∀ r, r < s.side → ∀ c, c < s.side → (r, c) ∉ s.placementPath → s.filledGrid.get r c = s.moduleAt r c := by
  have hN := State.side_le_of_version h2
  obtain ⟨hsq, hpath, hother⟩ := placeBits_spec (s.grid_square hN) (State.placementPath_inside h1)
    (State.nodup_placementPath h1)
    (placementBits (s.bytes .fcw 0 s.result.totalCw.toNat) (remainderBits s.result.version.toNat))
  refine ⟨hsq, fun k p hk => ?_, fun r hr c hc hout => (hother r c hout).trans (s.grid_get hm.1 hr hc hN)⟩
  obtain ⟨hlt, rfl⟩ := List.getElem?_eq_some_iff.1 hk
  rw [State.filledGrid, hpath k hlt, State.placementBits_fcw_getD hm s.result.totalCw.isLt.le]

end

/-! ### The command (R299) -/

theorem mxPlaceBody_of_phase {s : State} (hp : s.phase.p = true) (hc : s.phase.c = true) (hd : s.phase.d = false)
    (hpath : zigzag s.side s.grid = s.placementPath) :
    mxPlaceBody s = .ok { s.setGrid s.filledGrid with phase := s.phase.afterPlace } := by
  simp only [mxPlaceBody, Phase.canPlace, hp, hc, hd, hpath, State.filledGrid, Bool.not_true, Bool.not_false,
    Bool.and_true, Bool.false_eq_true, if_false]

/-- Settles O44: the path is the EMPTY modules, one for each bit, and the command writes along the path only. -/
theorem mxPlaceFillsMatrix : Obligations.MxPlaceFillsMatrix := by
  unfold Obligations.MxPlaceFillsMatrix
  intro s hm hphase hsymbol hmatrix hp hc hd path total
  have hempty := hmatrix.emptyAsPlaced hphase hp hd
  obtain ⟨-, -, -, -, hpm, hmv⟩ := hphase
  obtain ⟨h1, h2, htotal⟩ := hsymbol.of_v (hmv (hpm hp))
  have hN : s.side ≤ 177 := State.side_le_of_version h2
  obtain ⟨hsq, hpath, hkept⟩ := State.filledGrid_spec hm h1 h2
  refine ⟨_, exec_of_body_ok (i := .mxPlace) (mxPlaceBody_of_phase hp hc hd (State.zigzag_grid hm h1 h2)), rfl, ?length,
    fun k p hk => ?filled, fun r c hr hc => ?noneEmpty, fun x hx => ?frame⟩
  case length =>
    show s.placementPath.length = 8 * s.result.totalCw.toNat + _
    rw [State.placementPath_length h1 h2 hempty, htotal, totalCodewords, remainderBits, Nat.div_add_mod]
  case filled =>
    obtain ⟨hr, hc⟩ := State.placementPath_inside h1 p (List.mem_of_getElem? hk)
    exact (State.moduleAt_setGrid hm hN hsq hr hc).trans (hpath k p hk)
  case noneEmpty =>
    show ((s.setGrid s.filledGrid).moduleAt r c).role ≠ .empty
    rw [State.moduleAt_setGrid hm hN hsq hr hc]
    by_cases hin : (r, c) ∈ s.placementPath
    · obtain ⟨k, hk⟩ := List.mem_iff_getElem?.1 hin
      rw [hpath k _ hk]
      exact nofun
    · rw [hkept r hr c hc hin]
      exact fun he => hin ((State.mem_placementPath h1 h2 hempty).2 ⟨⟨hr, hc⟩, he⟩)
  case frame =>
    refine (State.readByte_congr rfl rfl _).trans
      (State.readByte_setGrid hm hN hsq (Q := fun r c => (r, c) ∈ s.placementPath) hkept ?_)
    rintro ⟨r, c, -, -, hin, e⟩
    exact hx ⟨(r, c), hin, e⟩

end Sys2Proof.Machine
end

section
/-! PROOFS. The commands bch.fmt (45_matrix.md R295) and bch.ver (R296): BCH_R takes the word that the table of format
words (R293) or of version words (R294) gives. -/

namespace Sys2Proof.Machine

open Sys2Proof

/-! ### The tables -/

/-- The 32 format words of R293: a row for each level L, M, Q, H, a column for each mask. -/
def formatWordTable : List Nat :=
  [0x77C4, 0x72F3, 0x7DAA, 0x789D, 0x662F, 0x6318, 0x6C41, 0x6976,
    0x5412, 0x5125, 0x5E7C, 0x5B4B, 0x45F9, 0x40CE, 0x4F97, 0x4AA0,
    0x355F, 0x3068, 0x3F31, 0x3A06, 0x24B4, 0x2183, 0x2EDA, 0x2BED,
    0x1689, 0x13BE, 0x1CE7, 0x19D0, 0x0762, 0x0255, 0x0D0C, 0x083B]

/-- The 34 version words of R294, from version 7 on. -/
def versionWordTable : List Nat :=
  [0x07C94, 0x085BC, 0x09A99, 0x0A4D3, 0x0BBF6, 0x0C762, 0x0D847, 0x0E60D, 0x0F928, 0x10B78, 0x1145D, 0x12A17,
    0x13532, 0x149A6, 0x15683, 0x168C9, 0x177EC, 0x18EC4, 0x191E1, 0x1AFAB, 0x1B08E, 0x1CC1A, 0x1D33F, 0x1ED75,
    0x1F250, 0x209D5, 0x216F0, 0x228BA, 0x2379F, 0x24B0B, 0x2542E, 0x26A64, 0x27541, 0x28C69]

/-- R292, R293: the BCH reduction gives the table's word, by row and column. -/
theorem fmtWord_eq_table : ∀ l < 4, ∀ m < 8,
    fmtWord (.ofBits (BitVec.ofNat 2 l)) m = BitVec.ofNat 18 (formatWordTable.getD (8 * l + m) 0) := by decide

/-- R294: the BCH reduction gives the table's word, by place in the table. -/
theorem verWord_eq_table : ∀ k < 34, verWord (7 + k) = BitVec.ofNat 18 (versionWordTable.getD k 0) := by decide

/-! ### The commands -/

/-- The word of a well-formed command, written as a number, decodes to it (R110, R113). -/
theorem decode_ofNat {i : Instr} (h : i.WellFormed) : decode (BitVec.ofNat 32 (i.imm * 256 + opcodeOf i)) = .ok i := by
  rw [← encode_toNat h, BitVec.ofNat_toNat, BitVec.setWidth_eq]
  exact decodeOfEncode i h

theorem checkFmtSel_of_legal {sel : Nat} (h1 : sel / 64 = 0) (h2 : sel / 8 % 2 = 0) : checkFmtSel sel = .ok () :=
  if_neg (by omega)

theorem checkVerNum_of_bounds {v : Nat} (h1 : 7 ≤ v) (h2 : v ≤ 40) : checkVerNum v = .ok () :=
  if_neg (by rw [Config.vMax]; omega)

theorem bchFmtBody_error {sel : Nat} {e : CommandError} (h : checkFmtSel sel = .error e) (s : State) :
    bchFmtBody sel s = .error e := by
  rw [bchFmtBody, h]

theorem bchVerBody_error {v : Nat} {e : CommandError} (h : checkVerNum v = .error e) (s : State) :
    bchVerBody v s = .error e := by
  rw [bchVerBody, h]

theorem bchFmtBody_of_check {sel : Nat} (h : checkFmtSel sel = .ok ()) (s : State) :
    bchFmtBody sel s = .ok (s.setBchR (fmtWord (.ofBits (BitVec.ofNat 2 (sel / 16))) (sel % 8))) := by
  rw [bchFmtBody, h]

theorem bchVerBody_of_check {v : Nat} (h : checkVerNum v = .ok ()) (s : State) :
    bchVerBody v s = .ok (s.setBchR (verWord v)) := by
  rw [bchVerBody, h]

/-- A command whose body only writes BCH_R completes with it and changes nothing else. -/
theorem exec_setBchR {i : Instr} {s : State} {r : BitVec 18} (h : bodyOf i s = .ok (s.setBchR r)) :
    exec i s = .next { s with latch := none, done := true, result := { s.result with bchR := r } } :=
  exec_of_body_ok h

/-- Settles O45: a legal selector names a level and a mask, and their word is the table's. -/
theorem bchFmtComputesFormatWord : Obligations.BchFmtComputesFormatWord := by
  unfold Obligations.BchFmtComputesFormatWord
  refine ⟨fun sel h => decode_ofNat (i := .bchFmt sel) h, fun s sel h => ?_, fun s sel h1 h2 => ?_⟩
  · have hcheck := checkFmtSel_error (h.imp_right Nat.mod_two_ne_zero.1)
    exact exec_of_body_error (i := .bchFmt sel) (bchFmtBody_error hcheck s)
  · intro table
    have hword := fmtWord_eq_table (sel / 16) (by omega) (sel % 8) (by omega)
    refine (exec_setBchR (i := .bchFmt sel) (bchFmtBody_of_check (checkFmtSel_of_legal h1 h2) s)).trans ?_
    rw [hword]
    rfl

/-- Settles O46: the word of each version 7..40 is the table's. -/
theorem bchVerComputesVersionWord : Obligations.BchVerComputesVersionWord := by
  unfold Obligations.BchVerComputesVersionWord
  refine ⟨fun v h => decode_ofNat (i := .bchVer v) h, fun s v h => ?_, fun s v h1 h2 => ?_⟩
  · exact exec_of_body_error (i := .bchVer v) (bchVerBody_error (checkVerNum_error h) s)
  · intro table
    have hword := verWord_eq_table (v - 7) (by omega)
    rw [Nat.add_sub_cancel' h1] at hword
    refine (exec_setBchR (i := .bchVer v) (bchVerBody_of_check (checkVerNum_of_bounds h1 h2) s)).trans ?_
    rw [hword]
    rfl

end Sys2Proof.Machine
end

section
/-! PROOFS. The penalty rules of a colour matrix (46_mask.md R333 to R336): what each costs, run by run, block by block
and window by window. -/

namespace Sys2Proof.Machine

open Sys2Proof

/-! ### N1 (R333) -/

/-- A run that is open ends where the colour changes; the rest of the line is a line of its own. -/
theorem runsFrom_of_change {colour : Bool} {len : Nat} {line : List Bool} (h : line.head? ≠ some colour) :
    runsFrom colour len line = runCost len + lineN1 line := by
  cases line with
  | nil => rfl
  | cons b bs => rw [runsFrom, if_neg fun e => h (congrArg some e), lineN1]

/-- Modules of the open run's colour lengthen it. -/
theorem runsFrom_replicate_append (colour : Bool) (len k : Nat) (line : List Bool) :
    runsFrom colour len (List.replicate k colour ++ line) = runsFrom colour (len + k) line := by
  induction k generalizing len with
  | zero => rfl
  | succ k ih =>
    rw [List.replicate_succ, List.cons_append, runsFrom, if_pos rfl, ih, Nat.add_right_comm, Nat.add_assoc]

/-- A line that begins with a maximal run costs the run and the rest. -/
theorem lineN1_replicate_append {colour : Bool} {len : Nat} {line : List Bool} (hlen : 1 ≤ len)
    (h : line.head? ≠ some colour) :
    lineN1 (List.replicate len colour ++ line) = runCost len + lineN1 line := by
  obtain ⟨k, rfl⟩ := Nat.exists_eq_add_of_le hlen
  rw [Nat.add_comm 1 k, List.replicate_succ, List.cons_append, lineN1, runsFrom_replicate_append,
    runsFrom_of_change h, Nat.add_comm 1 k]

/-- A line cut into runs, each a colour and a length. -/
def lineOfRuns (runs : List (Bool × Nat)) : List Bool := runs.flatMap fun x => List.replicate x.2 x.1

@[simp] theorem lineOfRuns_nil : lineOfRuns [] = [] := rfl

@[simp] theorem lineOfRuns_cons (x : Bool × Nat) (runs : List (Bool × Nat)) :
    lineOfRuns (x :: runs) = List.replicate x.2 x.1 ++ lineOfRuns runs := rfl

theorem head?_lineOfRuns_cons {x : Bool × Nat} (hx : 1 ≤ x.2) (runs : List (Bool × Nat)) :
    (lineOfRuns (x :: runs)).head? = some x.1 := by
  rw [lineOfRuns_cons, List.head?_append, List.head?_replicate, if_neg (Nat.one_le_iff_ne_zero.1 hx), Option.some_or]

theorem lineN1_lineOfRuns {runs : List (Bool × Nat)} (hpos : ∀ x ∈ runs, 1 ≤ x.2)
    (hmax : runs.IsChain fun x y => x.1 ≠ y.1) : lineN1 (lineOfRuns runs) = (runs.map fun x => runCost x.2).sum := by
  induction runs with
  | nil => rfl
  | cons x runs ih =>
    obtain ⟨hx, hrest⟩ := List.forall_mem_cons.1 hpos
    have hchange : (lineOfRuns runs).head? ≠ some x.1 := by
      cases runs with
      | nil => exact nofun
      | cons y runs =>
        rw [head?_lineOfRuns_cons (hrest y List.mem_cons_self)]
        exact fun e => (List.isChain_cons_cons.1 hmax).1 (Option.some.inj e).symm
    rw [lineOfRuns_cons, lineN1_replicate_append hx hchange, ih hrest hmax.tail, List.map_cons, List.sum_cons]

/-- Settles O50: each maximal run is closed by the next one's colour or by the end of the line. -/
theorem runPenalty : Obligations.RunPenalty := by
  unfold Obligations.RunPenalty
  intro runs hpos hmax
  exact lineN1_lineOfRuns hpos hmax

/-! ### N2 (R334) -/

/-- The N2 cost of the 2×2 block at column c of two neighbouring rows. -/
def blockCost (r1 r2 : List Bool) (c : Nat) : Nat :=
  if r1.getD c false = r1.getD (c + 1) false ∧ r1.getD c false = r2.getD c false ∧
    r1.getD c false = r2.getD (c + 1) false then 3 else 0

theorem three_mul_uniformBlocks {r1 r2 : List Bool} (h : r1.length = r2.length) :
    3 * uniformBlocks r1 r2 = ((List.range (r1.length - 1)).map (blockCost r1 r2)).sum := by
  fun_induction uniformBlocks r1 r2 with
  | case1 a b as c d cs ih =>
    have hcost : 3 * (if a = b ∧ c = d ∧ a = c then 1 else 0) = blockCost (a :: b :: as) (c :: d :: cs) 0 := by
      cases a <;> cases b <;> cases c <;> cases d <;> rfl
    have hrest := ih (Nat.succ.inj h)
    simp only [List.length_cons, Nat.add_sub_cancel] at hrest ⊢
    rw [Nat.mul_add, hcost, hrest, List.range_succ_eq_map, List.map_cons, List.sum_cons, List.map_map]
    rfl
  | case2 r1 r2 hshort =>
    have : r1.length - 1 = 0 := by
      match r1, r2, h with
      | [], _, _ => rfl
      | [_], _, _ => rfl
      | a :: b :: as, c :: d :: cs, _ => exact absurd rfl (hshort a b as c d cs rfl)
    rw [this]
    rfl

/-- N2 row pair by row pair. -/
theorem penaltyN2_eq_sum {n : Nat} {rows : List (List Bool)} (h : ∀ row ∈ rows, row.length = n) :
    penaltyN2 rows = ((List.range (rows.length - 1)).map fun r =>
      ((List.range (n - 1)).map (blockCost (rows.getD r []) (rows.getD (r + 1) []))).sum).sum := by
  fun_induction penaltyN2 rows with
  | case1 r1 r2 rows ih =>
    obtain ⟨h1, hrest⟩ := List.forall_mem_cons.1 h
    have h2 := hrest r2 List.mem_cons_self
    have hpairs := ih hrest
    simp only [List.length_cons, Nat.add_sub_cancel] at hpairs ⊢
    rw [three_mul_uniformBlocks (h1.trans h2.symm), h1, hpairs, List.range_succ_eq_map, List.map_cons, List.sum_cons,
      List.map_map]
    rfl
  | case2 rows hshort =>
    have : rows.length - 1 = 0 := by
      match rows with
      | [] => rfl
      | [_] => rfl
      | r1 :: r2 :: rows => exact absurd rfl (hshort r1 r2 rows)
    rw [this]
    rfl

/-- Settles O51: N2 walks the row pairs, and each row pair's blocks column by column. -/
theorem blockPenalty : Obligations.BlockPenalty := by
  unfold Obligations.BlockPenalty
  intro n rows hrows hrow at'
  rw [penaltyN2_eq_sum hrow, hrows]
  rfl

/-! ### N3 (R335) -/

/-- The N3 cost of the window of eleven modules at a start of a line. -/
def windowCost (line : List Bool) (start : Nat) : Nat :=
  (if (line.drop start).take 11 = finderLike1 then 40 else 0) +
    (if (line.drop start).take 11 = finderLike1.reverse then 40 else 0)

/-- A line begins with a pattern of eleven modules when its window at start 0 is the pattern. -/
theorem isPrefixOf_iff_take_eleven {p : List Bool} (hp : p.length = 11) (line : List Bool) :
    p.isPrefixOf line = true ↔ line.take 11 = p := by
  rw [List.isPrefixOf_iff_prefix, List.prefix_iff_eq_take, hp, eq_comm]

theorem finderWindows_cons (b : Bool) (bs : List Bool) :
    40 * finderWindows (b :: bs) = windowCost (b :: bs) 0 + 40 * finderWindows bs := by
  have hcost : ∀ p : List Bool, p.length = 11 → 40 * (if p.isPrefixOf (b :: bs) then 1 else 0) =
      if ((b :: bs).drop 0).take 11 = p then 40 else 0 := fun p hp => by
    simp only [isPrefixOf_iff_take_eleven hp, List.drop_zero, mul_ite, Nat.mul_one, Nat.mul_zero]
  rw [finderWindows, Nat.mul_add, Nat.mul_add, hcost _ rfl, hcost _ rfl]
  rfl

/-- A window of fewer than eleven modules costs nothing. -/
theorem windowCost_zero_of_short {line : List Bool} (h : line.length < 11) : windowCost line 0 = 0 := by
  have hne : ∀ p : List Bool, p.length = 11 → (line.drop 0).take 11 ≠ p := fun p hp e => by
    have := congrArg List.length e
    rw [List.drop_zero, List.length_take, hp] at this
    omega
  rw [windowCost, if_neg (hne _ rfl), if_neg (hne _ rfl)]

/-- The windows of a line are those at the starts 0 .. N - 11. -/
theorem finderWindows_eq_sum (line : List Bool) :
    40 * finderWindows line = ((List.range (line.length - 10)).map (windowCost line)).sum := by
  induction line with
  | nil => rfl
  | cons b bs ih =>
    rw [finderWindows_cons, ih, List.length_cons]
    by_cases hlong : 10 ≤ bs.length
    · rw [Nat.sub_add_comm hlong, List.range_succ_eq_map, List.map_cons, List.sum_cons, List.map_map]
      rfl
    · have hshort : bs.length - 10 = 0 ∧ bs.length + 1 - 10 = 0 := by omega
      rw [hshort.1, hshort.2, windowCost_zero_of_short (by rw [List.length_cons]; omega)]
      rfl

/-- Settles O52: both variants count the windows of a line, QUIETZONE11 those of the extended one. -/
theorem finderLikePenalty : Obligations.FinderLikePenalty := by
  unfold Obligations.FinderLikePenalty
  intro line p1 windows
  exact ⟨finderWindows_eq_sum line, finderWindows_eq_sum _⟩

/-! ### N4 (R336) -/

/-- The distance of two naturals is the size of their difference. -/
theorem distance_eq_natAbs (a b : Nat) : distance a b = ((a : Int) - b).natAbs := by
  rw [distance]
  omega

/-- Settles O53: the quotient is the greatest multiple of N² that the difference holds. -/
theorem darkPenalty : Obligations.DarkPenalty := by
  unfold Obligations.DarkPenalty
  intro n dark hn
  have hdiff : ((20 * dark : Int) - 10 * (n * n)).natAbs = distance (20 * dark) (10 * (n * n)) := by
    rw [distance_eq_natAbs]
    push_cast
    rfl
  refine ⟨distance (20 * dark) (10 * (n * n)) / (n * n), rfl, ?_, ?_⟩
  · rw [hdiff]
    exact Nat.div_mul_le_self _ _
  · rw [hdiff]
    exact Nat.lt_mul_of_div_lt (Nat.lt_succ_self _) (Nat.mul_pos hn hn)

end Sys2Proof.Machine
end

section
/-! PROOFS. The score of a candidate mask (46_mask.md R332, R337): the colours it is taken of, and the bounds that keep
it within 32-bit registers. -/

namespace Sys2Proof.Machine

open Sys2Proof

/-! ### The colours of a grid -/

/-- The colours of a square grid, module by module. -/
theorem colours_eq {n : Nat} {g : Grid} (hg : g.Square n) :
    colours g = (List.range n).map fun r => (List.range n).map fun c => (g.get r c).dark := by
  obtain ⟨hrows, hrow⟩ := hg
  refine List.ext_getElem (by simp [colours, hrows]) fun r h1 h2 => ?_
  have hr : r < g.length := by simpa [colours] using h1
  have hlen := hrow _ (List.getElem_mem hr)
  refine List.ext_getElem (by simp [colours, hlen]) fun c h3 h4 => ?_
  have hc : c < g[r].length := by simpa [colours] using h3
  simp [colours, Grid.get, List.getD_eq_getElem?_getD, hr, hc]

/-- The columns of a colour matrix given module by module. -/
theorem columnsOf_map {n : Nat} (f : Nat → Nat → Bool) :
    columnsOf n ((List.range n).map fun r => (List.range n).map (f r)) =
      (List.range n).map fun c => (List.range n).map fun r => f r c := by
  refine List.map_congr_left fun c hc => ?_
  rw [List.map_map]
  refine List.map_congr_left fun r _ => ?_
  simp [List.getD_eq_getElem?_getD, List.mem_range.1 hc]

/-! ### The bounds of a score -/

/-- A sum of N costs, each at most `bound`. -/
theorem sum_map_le {α : Type} {l : List α} {f : α → Nat} {bound : Nat} (h : ∀ x ∈ l, f x ≤ bound) :
    (l.map f).sum ≤ l.length * bound := by
  have := List.sum_le_card_nsmul (l.map f) bound fun y hy => by
    obtain ⟨x, hx, rfl⟩ := List.mem_map.1 hy
    exact h x hx
  rwa [List.length_map, smul_eq_mul] at this

theorem runCost_le (len : Nat) : runCost len ≤ len := by
  rw [runCost]
  split <;> omega

theorem runsFrom_le (colour : Bool) (len : Nat) (line : List Bool) : runsFrom colour len line ≤ len + line.length := by
  induction line generalizing colour len with
  | nil => exact runCost_le len
  | cons b bs ih =>
    have hrun := runCost_le len
    have hlonger := ih colour (len + 1)
    have hnext := ih b 1
    rw [runsFrom, List.length_cons]
    split <;> omega

theorem lineN1_le (line : List Bool) : lineN1 line ≤ line.length := by
  cases line with
  | nil => exact Nat.le_refl 0
  | cons b bs =>
    have := runsFrom_le b 1 bs
    rw [lineN1, List.length_cons]
    omega

theorem windowCost_le (line : List Bool) (start : Nat) : windowCost line start ≤ 80 := by
  rw [windowCost]
  split <;> split <;> decide

theorem lineN3_window11_le (line : List Bool) : lineN3 .window11 line ≤ line.length * 80 := by
  have hsum := sum_map_le fun start (_ : start ∈ List.range (line.length - 10)) => windowCost_le line start
  rw [List.length_range, ← finderWindows_eq_sum] at hsum
  exact hsum.trans (Nat.mul_le_mul_right _ (Nat.sub_le _ _))

theorem blockCost_le (r1 r2 : List Bool) (c : Nat) : blockCost r1 r2 c ≤ 3 := by
  rw [blockCost]
  split <;> decide

/-- A colour matrix of n rows of n modules. -/
abbrev ColourSquare (n : Nat) (rows : List (List Bool)) : Prop := rows.length = n ∧ ∀ row ∈ rows, row.length = n

theorem colourSquare_colours {n : Nat} {g : Grid} (hg : g.Square n) : ColourSquare n (colours g) := by
  rw [colours_eq hg]
  simp [ColourSquare]

section
variable {n : Nat} {rows : List (List Bool)} (h : ColourSquare n rows)
include h

theorem linesOf_length : (linesOf n rows).length = 2 * n := by
  rw [linesOf, columnsOf, List.length_append, h.1, List.length_map, List.length_range, Nat.two_mul]

theorem length_of_mem_linesOf {line : List Bool} (hline : line ∈ linesOf n rows) : line.length = n := by
  rcases List.mem_append.1 hline with hrow | hcolumn
  · exact h.2 line hrow
  · obtain ⟨c, -, rfl⟩ := List.mem_map.1 hcolumn
    rw [List.length_map, h.1]

theorem penaltyN1_le : penaltyN1 (linesOf n rows) ≤ 2 * n * n := by
  rw [penaltyN1, ← linesOf_length h]
  exact sum_map_le fun line hline => (lineN1_le line).trans_eq (length_of_mem_linesOf h hline)

theorem penaltyN3_le : penaltyN3 .window11 (linesOf n rows) ≤ 2 * n * (n * 80) := by
  rw [penaltyN3, ← linesOf_length h]
  exact sum_map_le fun line hline => (lineN3_window11_le line).trans_eq (by rw [length_of_mem_linesOf h hline])

theorem penaltyN2_le : penaltyN2 rows ≤ n * (n * 3) := by
  have hpair : ∀ r1 r2 : List Bool, ((List.range (n - 1)).map (blockCost r1 r2)).sum ≤ (n - 1) * 3 := fun r1 r2 => by
    have := sum_map_le fun c (_ : c ∈ List.range (n - 1)) => blockCost_le r1 r2 c
    rwa [List.length_range] at this
  have hsum := sum_map_le fun r (_ : r ∈ List.range (n - 1)) => hpair (rows.getD r []) (rows.getD (r + 1) [])
  rw [List.length_range] at hsum
  rw [penaltyN2_eq_sum h.2, h.1]
  exact hsum.trans (Nat.mul_le_mul (Nat.sub_le _ _) (Nat.mul_le_mul_right _ (Nat.sub_le _ _)))

theorem darkCount_le : darkCount rows ≤ n * n := by
  have := sum_map_le fun row (hrow : row ∈ rows) => (List.count_le_length (a := true)).trans_eq (h.2 row hrow)
  rwa [h.1] at this

end

/-- N4 is at most 100: the dark share is at most the whole. -/
theorem penaltyN4_le {n dark : Nat} (h : dark ≤ n * n) : penaltyN4 n dark ≤ 100 := by
  have hdistance : distance (20 * dark) (10 * (n * n)) ≤ n * n * 10 := by
    rw [distance]
    omega
  exact Nat.mul_le_mul_left 10 (Nat.div_le_of_le_mul hdistance)

/-- R6: no part of a score, and no total, is cut by a 32-bit register. -/
structure Score.Fits (x : Score) : Prop where
  n1 : x.n1 < 2 ^ 32
  n2 : x.n2 < 2 ^ 32
  n3 : x.n3 < 2 ^ 32
  n4 : x.n4 < 2 ^ 32
  dark : x.dark < 2 ^ 32
  total : x.total < 2 ^ 32

theorem scoreColours_fits {n : Nat} (hn : n ≤ 177) {rows : List (List Bool)} (h : ColourSquare n rows) :
    (scoreColours .window11 n rows).Fits := by
  have hsquare : n * n ≤ 177 * 177 := Nat.mul_le_mul hn hn
  have h1 : (scoreColours .window11 n rows).n1 ≤ 2 * n * n := penaltyN1_le h
  have h2 : (scoreColours .window11 n rows).n2 ≤ n * (n * 3) := penaltyN2_le h
  have h3 : (scoreColours .window11 n rows).n3 ≤ 2 * n * (n * 80) := penaltyN3_le h
  have hdark : (scoreColours .window11 n rows).dark ≤ n * n := darkCount_le h
  have h4 : (scoreColours .window11 n rows).n4 ≤ 100 := penaltyN4_le hdark
  rw [Nat.mul_assoc] at h1
  rw [← Nat.mul_assoc] at h2
  rw [← Nat.mul_assoc, Nat.mul_assoc 2] at h3
  have htotal : (scoreColours .window11 n rows).total < 2 ^ 32 := by
    rw [Score.total]
    omega
  exact ⟨by omega, by omega, by omega, by omega, by omega, htotal⟩

/-- The score registers give a score that fits as it is. -/
theorem Score.Fits.withScore_toNat {x : Score} (h : x.Fits) (r : ResultRegs) :
    (r.withScore x).penN1.toNat = x.n1 ∧ (r.withScore x).penN2.toNat = x.n2 ∧ (r.withScore x).penN3.toNat = x.n3 ∧
      (r.withScore x).penN4.toNat = x.n4 ∧ (r.withScore x).penDark.toNat = x.dark :=
  ⟨Nat.mod_eq_of_lt h.n1, Nat.mod_eq_of_lt h.n2, Nat.mod_eq_of_lt h.n3, Nat.mod_eq_of_lt h.n4, Nat.mod_eq_of_lt h.dark⟩

/-! ### A candidate mask (R332) -/

/-- The matrix mask.apply m leaves: mask m and the format write (R331, R302). -/
def State.candidate (s : State) (m : Nat) : Grid := maskedGrid s.side s.level m s.grid

/-- mask.select and mask.apply write MX, MASKID and K (R340, R341). -/
theorem State.commitMask_eq (s : State) (m : Nat) : s.commitMask m =
    { s with result := { s.result with maskId := BitVec.ofNat 3 m }, phase := { s.phase with k := true },
             mem := (s.setGrid (s.candidate m)).mem } := by
  unfold State.commitMask State.candidate
  generalize maskedGrid s.side s.level m s.grid = g
  rfl

/-! The memory after mask.apply is that of the candidate written back. -/

theorem State.commitMask_completeOk_mem (s : State) (m : Nat) :
    (s.commitMask m).completeOk.mem = (s.setGrid (s.candidate m)).mem := by
  rw [State.completeOk_mem, State.commitMask_eq]

theorem State.commitMask_completeOk_epoch (s : State) (m : Nat) :
    (s.commitMask m).completeOk.epoch = (s.setGrid (s.candidate m)).epoch := by
  rw [State.completeOk_epoch, State.commitMask_eq, State.setGrid_epoch]

/-- A module of the matrix is read off memory. -/
theorem State.moduleAt_congr {s t : State} (hmem : t.mem = s.mem) (hepoch : t.epoch = s.epoch) (r c : Nat) :
    t.moduleAt r c = s.moduleAt r c := by
  rw [State.moduleAt, State.moduleAt, State.buf, State.buf, hmem, State.draw_of_epoch hepoch]

section
variable {s : State} (h1 : 1 ≤ s.result.version.toNat) (h2 : s.result.version.toNat ≤ 40)
include h1 h2

theorem State.candidate_square (m : Nat) : Grid.Square s.side (s.candidate m) :=
  (maskedGrid_spec h1 h2 s.level m (s.grid_square (State.side_le_of_version h2))).1

theorem State.score_fits (m : Nat) : (s.score m).Fits :=
  scoreColours_fits (State.side_le_of_version h2) (colourSquare_colours (State.candidate_square h1 h2 m))

theorem State.moduleAt_commitMask (hm : s.MemoryOk) (m : Nat) {r c : Nat} (hr : r < s.side) (hc : c < s.side) :
    (s.commitMask m).completeOk.moduleAt r c = (s.candidate m).get r c := by
  rw [State.moduleAt_congr (s.commitMask_completeOk_mem m) (s.commitMask_completeOk_epoch m)]
  exact State.moduleAt_setGrid hm (State.side_le_of_version h2) (State.candidate_square h1 h2 m) hr hc

/-- The colours a candidate is scored by are those mask.apply leaves. -/
theorem State.colours_candidate (hm : s.MemoryOk) (m : Nat) : colours (s.candidate m) =
    (List.range s.side).map fun r => (List.range s.side).map fun c =>
      ((s.commitMask m).completeOk.moduleAt r c).dark := by
  rw [colours_eq (State.candidate_square h1 h2 m)]
  refine List.map_congr_left fun r hr => List.map_congr_left fun c hc => ?_
  rw [State.moduleAt_commitMask h1 h2 hm m (List.mem_range.1 hr) (List.mem_range.1 hc)]

end

end Sys2Proof.Machine
end

section
/-! PROOFS. The commands mask.eval (46_mask.md R339), mask.apply (R341) and mask.select (R338, R340). -/

namespace Sys2Proof.Machine

open Sys2Proof

/-! ### What the mask commands leave -/

theorem checkMask_of_le {m : Nat} (h : m ≤ 7) : checkMask m = .ok () := if_neg (Nat.not_lt.2 h)

/-- The score registers and PENALTY written (R61, R62). -/
def State.withPenalties (s : State) (x : Score) (totals : Vector Word 8) : State :=
  { s with result := { s.result.withScore x with penalty := totals } }

/-- The completion after them, field by field. -/
theorem State.withPenalties_completeOk (s : State) (x : Score) (totals : Vector Word 8) :
    (s.withPenalties x totals).completeOk =
      { s with latch := none, done := true,
               result := { s.result with penN1 := (s.result.withScore x).penN1, penN2 := (s.result.withScore x).penN2,
                                         penN3 := (s.result.withScore x).penN3, penN4 := (s.result.withScore x).penN4,
                                         penDark := (s.result.withScore x).penDark, penalty := totals } } := rfl

/-- PENALTY after mask.eval m (R339). -/
def State.totalsWith (s : State) (m : Nat) : Vector Word 8 :=
  s.result.penalty.setIfInBounds m (BitVec.ofNat 32 (s.score m).total)

/-- PENALTY after mask.select (R340). -/
def State.allTotals (s : State) : Vector Word 8 := Vector.ofFn fun m : Fin 8 => BitVec.ofNat 32 (s.score m.val).total

/-- The state mask.eval m leaves, BUSY and DONE apart (R339). -/
def State.evaluated (s : State) (m : Nat) : State := s.withPenalties (s.score m) (s.totalsWith m)

/-- The state mask.select leaves, BUSY and DONE apart (R340). -/
def State.selected (s : State) : State := (s.commitMask s.bestMask).withPenalties (s.score s.bestMask) s.allTotals

section
variable {s : State} (hd : s.phase.d = true) (hk : s.phase.k = false)
include hd hk

theorem exec_maskEval {m : Nat} (hm : m ≤ 7) : exec (.maskEval m) s = .next (s.evaluated m).completeOk := by
  refine exec_of_body_ok (i := .maskEval m) ?_
  rw [bodyOf, maskEvalBody, s.phase.canMask_iff.2 ⟨hd, hk⟩, checkMask_of_le hm]
  rfl

theorem exec_maskApply {m : Nat} (hm : m ≤ 7) : exec (.maskApply m) s = .next (s.commitMask m).completeOk := by
  refine exec_of_body_ok (i := .maskApply m) ?_
  rw [bodyOf, maskApplyBody, s.phase.canMask_iff.2 ⟨hd, hk⟩, checkMask_of_le hm]
  rfl

theorem exec_maskSelect : exec .maskSelect s = .next s.selected.completeOk := by
  refine exec_of_body_ok (i := .maskSelect) ?_
  rw [bodyOf, maskSelectBody, s.phase.canMask_iff.2 ⟨hd, hk⟩]
  rfl

end

theorem Phase.Ok.p_of_d {p : Phase} (h : p.Ok) (hd : p.d = true) : p.p = true := by
  obtain ⟨-, -, -, hdp, -⟩ := h
  exact hdp hd

/-- With D = 1 the symbol has a version 1..40. -/
theorem State.SymbolOk.version_of_d {s : State} (h : s.SymbolOk) (hphase : s.phase.Ok) (hd : s.phase.d = true) :
    1 ≤ s.result.version.toNat ∧ s.result.version.toNat ≤ 40 := by
  obtain ⟨-, -, -, hdp, hpm, hmv⟩ := hphase
  obtain ⟨h1, h2, -⟩ := h.of_v (hmv (hpm (hdp hd)))
  exact ⟨h1, h2⟩

/-! ### mask.eval (R339) -/

/-- PENALTY[m] is the total, PENALTY[k] of every other mask is kept. -/
theorem State.totalsWith_get (s : State) (m k : Fin 8) : (s.totalsWith m.val)[k] =
    if k = m then BitVec.ofNat 32 (s.score m.val).total else s.result.penalty[k] := by
  show (s.result.penalty.setIfInBounds m.val _)[k.val] = _
  rw [Vector.getElem_setIfInBounds]
  simp only [Fin.ext_iff, eq_comm]
  rfl

theorem State.allTotals_get (s : State) (m : Fin 8) : s.allTotals[m] = BitVec.ofNat 32 (s.score m.val).total :=
  Vector.getElem_ofFn _

/-- Settles O47: the candidate's colours are those mask.apply leaves, and no register cuts a part of its score. -/
theorem maskEvalReportsScore : Obligations.MaskEvalReportsScore := by
  unfold Obligations.MaskEvalReportsScore
  intro s m hm hphase hsymbol hd hk
  obtain ⟨h1, h2⟩ := hsymbol.version_of_d hphase hd
  have hm7 : m.val ≤ 7 := Nat.le_of_lt_succ m.isLt
  refine ⟨_, _, exec_maskEval hd hk hm7, exec_maskApply hd hk hm7, ?_⟩
  intro row column overLines
  have hscore : s.score m.val = scoreColours .window11 s.side ((List.range s.side).map row) :=
    congrArg (scoreColours .window11 s.side) (State.colours_candidate h1 h2 hm m.val)
  have hover : ∀ cost, ((linesOf s.side ((List.range s.side).map row)).map cost).sum = overLines cost := fun cost => by
    rw [linesOf, columnsOf_map, List.map_append, List.sum_append, List.map_map, List.map_map]
    rfl
  have hfits := State.score_fits h1 h2 m.val
  obtain ⟨hn1, hn2, hn3, hn4, hdark⟩ := hfits.withScore_toNat s.result
  have htotal : (s.totalsWith m.val)[m].toNat = (s.score m.val).total := by
    rw [State.totalsWith_get, if_pos rfl, BitVec.toNat_ofNat, Nat.mod_eq_of_lt hfits.total]
  refine ⟨hn1.trans ?_, hn2.trans ?_, hn3.trans ?_, hn4.trans ?_, hdark.trans ?_, htotal.trans ?_, fun k hk => ?_,
    s.withPenalties_completeOk _ _⟩
  · rw [hscore]
    exact hover lineN1
  · rw [hscore]
    rfl
  · rw [hscore]
    exact hover (lineN3 .window11)
  · show _ = penaltyN4 s.side (s.result.withScore (s.score m.val)).penDark.toNat
    rw [hdark, hscore]
    rfl
  · rw [hscore]
    show (((List.range s.side).map row).map _).sum = _
    rw [List.map_map]
    rfl
  · show _ = (s.result.withScore (s.score m.val)).penN1.toNat + (s.result.withScore (s.score m.val)).penN2.toNat +
      (s.result.withScore (s.score m.val)).penN3.toNat + (s.result.withScore (s.score m.val)).penN4.toNat
    rw [hn1, hn2, hn3, hn4, Score.total]
  · exact (s.totalsWith_get m k).trans (if_neg hk)

/-! ### mask.apply (R341) -/

theorem mem_formatModules {n : Nat} {p : Nat × Nat} :
    p ∈ formatModules n ↔ ∃ i, i < 15 ∧ (p = formatPos1 i ∨ p = formatPos2 n i) := by
  simp only [formatModules, List.mem_flatMap, List.mem_range, List.mem_cons, List.not_mem_nil, or_false]

theorem mem_formatPlacements {n : Nat} {l : Level} {m i : Nat} (hi : i < 15) {p : Nat × Nat}
    (hp : p = formatPos1 i ∨ p = formatPos2 n i) :
    (⟨p.1, p.2, functionModule ((fmtWord l m).getLsbD i)⟩ : Placement) ∈ formatPlacements n l m := by
  refine List.mem_flatMap.2 ⟨i, List.mem_range.2 hi, ?_⟩
  obtain rfl | rfl := hp
  · exact List.mem_cons_self
  · exact List.mem_cons_of_mem _ List.mem_cons_self

/-- After a mask command every module is a FUNCTION or a DATA module. -/
theorem ModuleOk.role_of_k {p : Phase} {placed m : Module} (h : ModuleOk p placed m) (hplaced : placed.role ≠ .data)
    (hp : p.p = true) (hd : p.d = true) (hk : p.k = true) : m.role = .function ∨ m.role = .data := by
  obtain ⟨-, hfun, hres, hemp⟩ := h
  cases hrole : placed.role with
  | empty => exact .inr ((hemp hp hrole).2 hd)
  | function => exact .inl (by rw [hfun hp hrole, hrole])
  | reserved => exact .inl ((hres hp hrole).2 hk)
  | data => exact absurd hrole hplaced

section
variable {s : State} (h1 : 1 ≤ s.result.version.toNat) (h2 : s.result.version.toNat ≤ 40)
include h1 h2

/-- The 30 format modules hold the bits of the format word (R302). -/
theorem State.candidate_get_format (m : Nat) {i : Nat} (hi : i < 15) {p : Nat × Nat}
    (hp : p = formatPos1 i ∨ p = formatPos2 s.side i) :
    (p.1 < s.side ∧ p.2 < s.side) ∧ (s.candidate m).get p.1 p.2 = ⟨(fmtWord s.level m).getLsbD i, .function⟩ := by
  obtain ⟨hin, hdisjoint⟩ := formatPlacements_disjoint h1 h2 s.level m
  have hmem := mem_formatPlacements (l := s.level) (m := m) hi hp
  obtain ⟨hr, hc⟩ := hin _ hmem
  refine ⟨⟨hr, hc⟩, ?_⟩
  rw [State.candidate]
  refine ((maskedGrid_spec h1 h2 s.level m (s.grid_square (State.side_le_of_version h2))).2 _ hr _ hc).trans ?_
  rw [placedAt_of_mem hdisjoint hmem]
  rfl

variable (hm : s.MemoryOk)
include hm

/-- Outside the format modules the mask acts on the modules of MX (R331). -/
theorem State.candidate_get_other (m : Nat) {r c : Nat} (hr : r < s.side) (hc : c < s.side)
    (h : (r, c) ∉ formatModules s.side) : (s.candidate m).get r c = maskModule m r c (s.moduleAt r c) := by
  have hN := State.side_le_of_version h2
  rw [← s.grid_get hm.1 hr hc hN]
  exact (maskedGrid_get h1 h2 s.level m (s.grid_square hN) hr hc).2 h

/-- A candidate is at the stage of K = 1. -/
theorem State.candidate_moduleOk (hmatrix : s.MatrixOk) (hphase : s.phase.Ok) (hd : s.phase.d = true) (m : Nat)
    {r c : Nat} (hr : r < s.side) (hc : c < s.side) :
    ModuleOk { s.phase with k := true } (placedModule s.result.version.toNat r c) ((s.candidate m).get r c) := by
  obtain ⟨-, -, -, hdp, hpm, -⟩ := hphase
  have hN := State.side_le_of_version h2
  have hformat := (maskedGrid_get h1 h2 s.level m (s.grid_square hN) hr hc).1
  exact (hmatrix (hpm (hdp hd)) r hr c hc).mask (hdp hd) hd
    (fun h => hformat ((placedModule_reserved_iff h1 h2).1 h))
    (fun h => State.candidate_get_other h1 h2 hm m hr hc fun h' => h ((placedModule_reserved_iff h1 h2).2 h'))

end

/-- Settles O48: the candidate is written back, and it holds the format word, and elsewhere the masked modules. -/
theorem maskApplyMasksMatrix : Obligations.MaskApplyMasksMatrix := by
  unfold Obligations.MaskApplyMasksMatrix
  intro s m hm hphase hsymbol hmatrix hd hk hm7 isFormat
  obtain ⟨h1, h2⟩ := hsymbol.version_of_d hphase hd
  have hmodule : ∀ r c, r < s.side → c < s.side → (s.commitMask m).completeOk.moduleAt r c = (s.candidate m).get r c :=
    fun r c hr hc => State.moduleAt_commitMask h1 h2 hm m hr hc
  have hbit : ∀ i, i < 15 → ∀ p, p = formatPos1 i ∨ p = formatPos2 s.side i →
      (s.commitMask m).completeOk.moduleAt p.1 p.2 = ⟨(fmtWord s.level m).getLsbD i, .function⟩ := fun i hi p hp => by
    obtain ⟨⟨hr, hc⟩, hget⟩ := State.candidate_get_format h1 h2 m hi hp
    exact (hmodule _ _ hr hc).trans hget
  refine ⟨_, exec_maskApply hd hk hm7, ?maskId, ?frame, fun i hi => ⟨hbit i hi _ (.inl rfl), hbit i hi _ (.inr rfl)⟩,
    fun r c hr hc hout => ?masked, fun r c hr hc => ?roles, fun x hx => ?outside⟩
  case maskId =>
    rw [State.completeOk_result, State.commitMask_eq]
    exact Nat.mod_eq_of_lt (Nat.lt_succ_of_le hm7)
  case frame =>
    rw [State.commitMask_eq]
    generalize (s.setGrid (s.candidate m)).mem = mem
    rfl
  case masked =>
    rw [hmodule r c hr hc, State.candidate_get_other h1 h2 hm m hr hc fun h => hout (mem_formatModules.1 h), maskModule]
    split
    · next h => rw [h.1]
    · rfl
  case roles =>
    rw [hmodule r c hr hc]
    exact (State.candidate_moduleOk h1 h2 hm hmatrix hphase hd m hr hc).role_of_k (placedModule_role_ne_data _ r c)
      (hphase.p_of_d hd) hd rfl
  case outside =>
    refine (State.readByte_congr (s.commitMask_completeOk_mem m) (s.commitMask_completeOk_epoch m) x).trans
      (State.readByte_setGrid hm (State.side_le_of_version h2) (State.candidate_square h1 h2 m) (Q := fun _ _ => True)
        (fun _ _ _ _ h => absurd trivial h) ?_)
    rintro ⟨r, c, hr, hc, -, e⟩
    exact hx ⟨r, c, hr, hc, e⟩

/-! ### mask.select (R338, R340) -/

/-- b is the first of 0..n-1 at which f is least. -/
structure FirstLeast (f : Nat → Nat) (n b : Nat) : Prop where
  lt : b < n
  least : ∀ j, j < n → f b ≤ f j
  first : ∀ j, j < b → f b < f j

/-- The search of R338, from the first least so far on. -/
theorem argMinFrom_firstLeast {f : Nat → Nat} {i b : Nat} (h : FirstLeast f i b) (k : Nat) :
    FirstLeast f (i + k) (argMinFrom b (f b) i ((List.range' i k).map f)) := by
  induction k generalizing i b with
  | zero => exact h
  | succ k ih =>
    rw [List.range'_succ, List.map_cons, argMinFrom, Nat.add_comm k 1, ← Nat.add_assoc]
    split
    · next hlt => exact ih ⟨Nat.lt_succ_self i, fun j hj => by
        rcases Nat.lt_succ_iff_lt_or_eq.1 hj with hj | rfl
        · exact hlt.le.trans (h.least j hj)
        · exact Nat.le_refl _, fun j hj => hlt.trans_le (h.least j hj)⟩
    · next hge => exact ih ⟨Nat.lt_succ_of_lt h.lt, fun j hj => by
        rcases Nat.lt_succ_iff_lt_or_eq.1 hj with hj | rfl
        · exact h.least j hj
        · exact Nat.not_lt.1 hge, h.first⟩

/-- R338: the mask chosen is the first one of the least penalty. -/
theorem State.bestMask_firstLeast (s : State) : FirstLeast (fun m => (s.score m).total) 8 s.bestMask :=
  argMinFrom_firstLeast (f := fun m => (s.score m).total) (i := 1) (b := 0)
    ⟨Nat.one_pos, fun j hj => by rw [Nat.lt_one_iff.1 hj], nofun⟩ 7

/-- Settles O49: the totals in PENALTY are those of mask.eval, and the search takes the first least one. -/
theorem maskSelectChoosesLeastPenalty : Obligations.MaskSelectChoosesLeastPenalty := by
  unfold Obligations.MaskSelectChoosesLeastPenalty
  intro s hphase hsymbol hd hk
  obtain ⟨h1, h2⟩ := hsymbol.version_of_d hphase hd
  obtain ⟨hbest, hleast, hfirst⟩ := s.bestMask_firstLeast
  have hpenalty : ∀ m : Fin 8, s.allTotals[m].toNat = (s.score m.val).total := fun m => by
    rw [State.allTotals_get, BitVec.toNat_ofNat, Nat.mod_eq_of_lt (State.score_fits h1 h2 m.val).total]
  refine ⟨_, _, _, ⟨s.bestMask, hbest⟩, exec_maskSelect hd hk, exec_maskApply hd hk (Nat.le_of_lt_succ hbest),
    exec_maskEval hd hk (Nat.le_of_lt_succ hbest), fun m => ⟨_, exec_maskEval hd hk (Nat.le_of_lt_succ m.isLt), ?same⟩,
    fun m => ?least, fun m hm => ?first, ?frame⟩
  case same => exact (s.totalsWith_get m m).trans ((if_pos rfl).trans (s.allTotals_get m).symm)
  case least => exact (hpenalty ⟨_, hbest⟩).trans_le ((hleast m.val m.isLt).trans_eq (hpenalty m).symm)
  case first => exact (hpenalty ⟨_, hbest⟩).trans_lt ((hfirst m.val hm).trans_eq (hpenalty m).symm)
  case frame =>
    rw [State.selected, State.evaluated, State.commitMask_eq]
    generalize (s.setGrid (s.candidate s.bestMask)).mem = mem, s.score s.bestMask = x
    rfl

end Sys2Proof.Machine
end

section
/-! PROOFS. The common life of a command (60_exceptions.md R400, R402, R405): the step that runs it, how every command
completes, the interrupt output (R408) and nop (47_control.md R370). -/

namespace Sys2Proof.Machine

open Sys2Proof

/-- Settles O22: the body of nop is the state itself. -/
theorem nopCompletes : Obligations.NopCompletes := by
  unfold Obligations.NopCompletes
  exact ⟨rfl, fun s => exec_of_body_ok (i := .nop) rfl⟩

/-- Settles O18: `irq` reads IRQ_EN, DONE and ERR, and acceptance clears the last two. -/
theorem irqOutput : Obligations.IrqOutput := by
  unfold Obligations.IrqOutput
  refine ⟨fun s => ?_, fun s w => Bool.and_false s.irqEn, fun s b => rfl⟩
  rw [State.irq, Bool.and_eq_true, Bool.or_eq_true]

/-! ### The step that runs a command (R400) -/

theorem State.withFetchWord_eq (s : State) (w : Word) :
    s.withFetchWord 32 w.toNat = { s.accept w with inbox := .engine :: s.inbox } := by
  rw [State.withFetchWord, Nat.mod_eq_of_lt w.isLt, BitVec.ofNat_toNat, BitVec.setWidth_eq]

/-- Settles O4: the step is the engine's turn, which runs the latched word. -/
theorem stepRunsLatchedCommand : Obligations.StepRunsLatchedCommand := by
  unfold Obligations.StepRunsLatchedCommand
  refine ⟨fun s w i hl hd => ⟨fun h => ?_, fun rest h => ?_⟩, fun s w i hd => ?_⟩
  · rw [step_nil h, engineTurn_ok hl hd]
  · rw [step_engine h]
    exact engineTurn_ok hl hd
  · rw [State.withFetchWord_eq, step_engine rfl]
    exact engineTurn_ok (s := s.accept w) rfl hd

/-! ### How a command completes (R402, R405) -/

/-- Settles O19: a command is its body, finished, and a body changes result registers, PHASE and memory only. -/
theorem commandCompletion : Obligations.CommandCompletion := by
  unfold Obligations.CommandCompletion
  intro code i s
  have hcode : ∀ kind, code kind = kind.code := fun kind => by cases kind <;> rfl
  cases hbody : bodyOf i s with
  | ok u => exact ⟨u.completeOk, exec_of_body_ok hbody, .inl (congrArg State.completeOk (bodyOf_frame hbody))⟩
  | error e =>
    refine ⟨s.completeError e, exec_of_body_error hbody, .inr ⟨e, ?_⟩⟩
    rw [hcode, State.completeError]

end Sys2Proof.Machine
end

section
/-! PROOFS. The resets (70_reset_and_hazards.md R441 to R443, R451): the reset state, the buffers a reset makes draws of,
and what the soft reset, the hard reset and power-on leave. -/

namespace Sys2Proof.Machine

open Sys2Proof

/-! ### The reset state (R441) -/

theorem readRegister_reset_all : ∀ offset ∈ registerOffsets,
    State.reset.readRegister offset = if offset = 0 then 0x51524531 else 0 := by decide

theorem readRegister_reset (offset : Nat) :
    State.reset.readRegister offset = if offset = 0 then 0x51524531 else 0 := by
  by_cases h : offset ∈ registerOffsets
  · exact readRegister_reset_all offset h
  · rw [State.readRegister_reserved _ h, if_neg]
    rintro rfl
    exact h (by decide)

theorem State.readByte_expRom (s : State) {i : Nat} (hi : i < 256) : s.readByte (0x100 + i) = expRom i := by
  rw [State.readByte, if_pos (by omega), Nat.add_sub_cancel_left]

theorem State.readByte_logRom (s : State) {i : Nat} (hi : i < 256) : s.readByte (0x200 + i) = logRom i := by
  rw [State.readByte, if_neg (by omega), if_pos (by omega), Nat.add_sub_cancel_left]

/-- Settles O1: the registers one by one; memory holds no written byte, so each reads as its draw. -/
theorem resetState : Obligations.ResetState := by
  unfold Obligations.ResetState
  exact ⟨readRegister_reset, rfl, rfl, fun i hi => ⟨State.readByte_expRom _ hi, State.readByte_logRom _ hi⟩,
    fun g i hi => State.readByte_base _ g hi⟩

/-! ### Buffers that become draws (R443, R451) -/

theorem DrawEpochs.get_next (e : DrawEpochs) (g h : Region) :
    (e.next g).get h = if h = g then e.get h + 1 else e.get h := by
  cases g <;> cases h <;> rfl

/-- A draw depends on the generation of its own buffer only. -/
theorem State.draw_of_generation {s t : State} {g : Region} (h : t.epoch.get g = s.epoch.get g) (a : Nat) :
    t.draw g a = s.draw g a := by
  cases g <;> simp_all [State.draw, DrawEpochs.get]

section
variable (s : State) {gs : List Region} (hnodup : gs.Nodup)
include hnodup

theorem State.generation_redrawAll (g : Region) :
    (s.redrawAll gs).epoch.get g = if g ∈ gs then s.epoch.get g + 1 else s.epoch.get g := by
  induction gs generalizing s with
  | nil => rfl
  | cons h gs ih =>
    obtain ⟨hh, hgs⟩ := List.nodup_cons.1 hnodup
    rw [State.redrawAll, ih _ hgs, State.redraw_epoch, DrawEpochs.get_next]
    by_cases hg : g = h
    · subst hg
      simp [hh]
    · simp [hg]

theorem State.buf_redrawAll {g : Region} {i : Nat} (hi : i < g.size) :
    (s.redrawAll gs).buf g i = if g ∈ gs then (s.redrawAll gs).draw g (g.base + i) else s.buf g i := by
  induction gs generalizing s with
  | nil => rfl
  | cons h gs ih =>
    obtain ⟨hh, hgs⟩ := List.nodup_cons.1 hnodup
    rw [State.redrawAll, ih _ hgs, State.buf_redraw s h hi]
    by_cases hg : g = h
    · subst hg
      rw [if_neg hh, if_pos rfl, if_pos List.mem_cons_self]
      exact (State.draw_of_generation ((State.generation_redrawAll _ hgs g).trans (if_neg hh)) _).symm
    · simp [hg]

end

/-! ### The buffers of an abandoned command (R451) -/

theorem nodup_mayWrite (i : Instr) : (mayWrite i).Nodup := by cases i <;> simp [mayWrite]

theorem nodup_abandoned (latch : Option Word) : (abandoned latch).Nodup := by
  unfold abandoned
  split
  · exact List.nodup_nil
  · split
    · exact nodup_mayWrite _
    · exact List.nodup_nil

/-- The opcodes of the commands that may write a buffer (R451). -/
def writerOpcodes : Region → List Nat
  | .dcw => [0x30, 0x31, 0x32, 0x33, 0x01]
  | .genb => [0x40]
  | .ecb => [0x41]
  | .fcw => [0x42, 0x01]
  | .mx => [0x50, 0x51, 0x52, 0x61, 0x62, 0x01]
  | .segtab | .inbuf => []

theorem mem_mayWrite {i : Instr} {g : Region} : g ∈ mayWrite i ↔ opcodeOf i ∈ writerOpcodes g := by
  cases i <;> cases g <;> simp [mayWrite, opcodeOf, writerOpcodes]

theorem writerOpcodes_subset (g : Region) : writerOpcodes g ⊆ opcodes := by cases g <;> decide

/-- An abandoned word makes draws of a buffer when it is the legal word of a command that may write it. -/
theorem mem_abandoned {w : Word} {g : Region} : g ∈ abandoned (some w) ↔
    rsvField w = 0 ∧ opcField w ∈ writerOpcodes g ∧ (opcField w ∈ noneOpcodes → immField w = 0) := by
  cases h : decode w with
  | ok i =>
    obtain ⟨hrsv, hopc, himm⟩ := fields_of_decode h
    have hnone : opcodeOf i ∈ noneOpcodes → i.imm = 0 := fun hc =>
      Instr.imm_of_class_none ((opcodeOf_mem_noneOpcodes i).1 hc)
    have hg : g ∈ abandoned (some w) ↔ g ∈ mayWrite i := by simp only [abandoned, h]
    rw [hg, mem_mayWrite, hrsv, hopc, himm]
    tauto
  | error r =>
    have hillegal := (illegal_iff w).1 fun i hi => by cases h.symm.trans hi
    have hg : ¬ g ∈ abandoned (some w) := by simp [abandoned, h]
    refine iff_of_false hg fun ⟨hrsv, hopc, himm⟩ => ?_
    rcases hillegal with hne | hout | ⟨hnone, hne⟩
    · exact hne hrsv
    · exact hout (writerOpcodes_subset g hopc)
    · exact hne (himm hnone)

/-- The table of R451 by command words: the command in flight, if any, may write the buffer. -/
def lostTo (latch : Option Word) (g : Region) : Bool :=
  match latch with
  | none => false
  | some w => match g with
    | .dcw => decide (w.toNat ∈ [0x30, 0x33, 0x01]) || (decide (w.toNat < 65536) && decide (w.toNat % 256 ∈ [0x31, 0x32]))
    | .genb => decide (w.toNat = 0x40)
    | .ecb => decide (w.toNat = 0x41)
    | .fcw => decide (w.toNat ∈ [0x42, 0x01])
    | .mx => decide (w.toNat ∈ [0x50, 0x51, 0x52, 0x61, 0x01]) ||
        (decide (w.toNat < 65536) && decide (w.toNat % 256 = 0x62))
    | .segtab | .inbuf => false

theorem lostTo_iff (latch : Option Word) (g : Region) : lostTo latch g = true ↔ g ∈ abandoned latch := by
  cases latch with
  | none => simp [lostTo, abandoned]
  | some w =>
    rw [mem_abandoned, rsvField_eq, opcField_eq, immField_eq]
    cases g <;> simp [lostTo, writerOpcodes, noneOpcodes] <;> omega

/-! ### What a reset leaves -/

/-- Every register reads its reset value, whatever RAM holds. -/
theorem State.readRegister_resetRegisters (s : State) (offset : Nat) :
    (s.resetRegisters.setPort none).readRegister offset = State.reset.readRegister offset := rfl

/-- A reset that makes draws of some buffers: their generations and their bytes, and those of the others. -/
theorem State.reset_region (s : State) {gs : List Region} (hnodup : gs.Nodup) (g : Region) :
    ((s.redrawAll gs).resetRegisters.setPort none).epoch.get g =
        (if g ∈ gs then s.epoch.get g + 1 else s.epoch.get g) ∧
      ∀ i, i < g.size → ((s.redrawAll gs).resetRegisters.setPort none).readByte (g.base + i) =
        if g ∈ gs then ((s.redrawAll gs).resetRegisters.setPort none).draw g (g.base + i)
        else s.readByte (g.base + i) := by
  refine ⟨s.generation_redrawAll hnodup g, fun i hi => ?_⟩
  rw [State.readByte_base _ g hi, State.readByte_base s g hi]
  exact s.buf_redrawAll hnodup hi

/-- The resets that keep RAM (R442, R443, R451): only the buffers the abandoned command may write become draws. -/
theorem State.resetKeepingRam_region (s : State) (rest : List BusEvent) (g : Region) :
    (({ s with inbox := rest } : State).resetKeepingRam.setPort none).epoch.get g =
        (if lostTo s.latch g then s.epoch.get g + 1 else s.epoch.get g) ∧
      ∀ i, i < g.size → (({ s with inbox := rest } : State).resetKeepingRam.setPort none).readByte (g.base + i) =
        if lostTo s.latch g then (({ s with inbox := rest } : State).resetKeepingRam.setPort none).draw g (g.base + i)
        else s.readByte (g.base + i) := by
  simp only [lostTo_iff]
  exact ({ s with inbox := rest } : State).reset_region (nodup_abandoned s.latch) g

theorem nodup_allRegions : allRegions.Nodup := by decide

theorem mem_allRegions (g : Region) : g ∈ allRegions := by cases g <;> decide

/-- A write to CTRL, served also while BUSY (R32, R90). -/
theorem step_ctrlWrite {s : State} {v : Word} {rest : List BusEvent} (h : s.inbox = .write 0x004 .four v :: rest) :
    step s = .next ((if v.getLsbD 1 then ({ s with inbox := rest } : State).resetKeepingRam
      else { s with inbox := rest, irqEn := v.getLsbD 0 }).setPort none) :=
  step_registerWrite h (by decide) (by decide) (.inr (by decide))

theorem getLsbD_eq_true_iff (v : Word) (i : Nat) : v.getLsbD i = true ↔ v.toNat / 2 ^ i % 2 = 1 := by
  rw [← BitVec.testBit_toNat, Nat.testBit_eq_decide_div_mod_eq, decide_eq_true_iff]

/-- Settles O16: bit 1 of the write performs the reset, and without it bit 0 is IRQ_EN. -/
theorem softReset : Obligations.SoftReset := by
  unfold Obligations.SoftReset
  intro s v rest h lost
  have hstep := step_ctrlWrite h
  refine ⟨fun hv => ?reset, fun hv => ?enable⟩
  case reset =>
    rw [if_pos ((getLsbD_eq_true_iff v 1).2 hv)] at hstep
    exact ⟨_, hstep, rfl, rfl, State.readRegister_resetRegisters _, s.resetKeepingRam_region rest⟩
  case enable =>
    have hv1 : ¬ v.getLsbD 1 = true := fun h1 => by
      cases hv.symm.trans ((getLsbD_eq_true_iff v 1).1 h1)
    rw [if_neg hv1] at hstep
    refine ⟨_, hstep, (getLsbD_eq_true_iff v 0).trans ?_, rfl⟩
    rw [Nat.pow_zero, Nat.div_one]

/-- Settles O17: power-on makes draws of every buffer, the other hard reset of those of the abandoned command. -/
theorem hardResetAndPowerOn : Obligations.HardResetAndPowerOn := by
  unfold Obligations.HardResetAndPowerOn
  intro s rest lost
  refine ⟨fun h => ?powerOn, fun h => ?hardReset⟩
  case powerOn =>
    refine ⟨_, step_powerOn h, rfl, rfl, State.readRegister_resetRegisters _, fun g => ?_⟩
    obtain ⟨hepoch, hbyte⟩ := ({ s with inbox := rest } : State).reset_region nodup_allRegions g
    exact ⟨hepoch.trans (if_pos (mem_allRegions g)), fun i hi => (hbyte i hi).trans (if_pos (mem_allRegions g))⟩
  case hardReset =>
    refine ⟨_, step_hardReset h, rfl, rfl, State.readRegister_resetRegisters _, fun hl x => ?_,
      s.resetKeepingRam_region rest⟩
    rw [State.resetKeepingRam, show ({ s with inbox := rest } : State).latch = none from hl]
    exact State.readByte_congr rfl rfl x

end Sys2Proof.Machine
end

section
/-! PROOFS. The phase prerequisites (70_reset_and_hazards.md R448): a body whose prerequisite is false raises SEQUENCE, and
one whose prerequisite holds never does. -/

namespace Sys2Proof.Machine

open Sys2Proof

/-! ### Results other than SEQUENCE -/

/-- A result that is not the error SEQUENCE. -/
def NoSequence {α : Type} (r : Except CommandError α) : Prop := ∀ e, r = .error e → e.kind ≠ .sequence

theorem noSequence_ok {α : Type} (a : α) : NoSequence (.ok a : Except CommandError α) := nofun

theorem noSequence_raise {α : Type} {kind : ErrorKind} {info : Nat} (h : kind ≠ .sequence := by decide) :
    NoSequence (.error (raise kind info) : Except CommandError α) := by
  rintro e ⟨⟩
  exact h

/-- A test that raises another error, and then the rest. -/
theorem noSequence_test {α : Type} {c : Prop} [Decidable c] {kind : ErrorKind} {info : Nat} {r : Except CommandError α}
    (hr : NoSequence r) (h : kind ≠ .sequence := by decide) : NoSequence (if c then .error (raise kind info) else r) := by
  split
  · exact noSequence_raise h
  · exact hr

/-- The error of a check is passed on. -/
theorem NoSequence.pass {α β : Type} {r : Except CommandError α} (h : NoSequence r) {e : CommandError}
    (he : r = .error e) : NoSequence (.error e : Except CommandError β) := by
  rintro _ ⟨⟩
  exact h e he

theorem noSequence_andThen {r : Except CommandError State} {f : State → Except CommandError State} (hr : NoSequence r)
    (hf : ∀ u, r = .ok u → NoSequence (f u)) : NoSequence (andThen r f) := by
  cases r with
  | ok u => exact hf u rfl
  | error e => exact hr

/-! ### The checks -/

theorem noSequence_checkNbits (n : Nat) : NoSequence (checkNbits n) := noSequence_test (noSequence_ok _)

theorem noSequence_checkFmtSel (sel : Nat) : NoSequence (checkFmtSel sel) := noSequence_test (noSequence_ok _)

theorem noSequence_checkVerNum (v : Nat) : NoSequence (checkVerNum v) := noSequence_test (noSequence_ok _)

theorem noSequence_checkMask (m : Nat) : NoSequence (checkMask m) := noSequence_test (noSequence_ok _)

theorem noSequence_checkDesc (d : Descriptor) (i : Nat) : NoSequence (checkDesc d i) :=
  noSequence_test (noSequence_test (noSequence_test (noSequence_ok _)))

theorem noSequence_checkChars (d : Descriptor) (i : Nat) (chars : List Byte) : NoSequence (checkChars d i chars) := by
  unfold checkChars
  split
  · exact noSequence_raise (by cases d.mode <;> decide)
  · exact noSequence_ok _

theorem noSequence_searchVersion (ds : List Descriptor) (lvl : Level) (vs : List Nat) (last : Nat) :
    NoSequence (searchVersion ds lvl vs last) := by
  induction vs generalizing last with
  | nil => exact noSequence_raise
  | cons v vs ih =>
    rw [searchVersion]
    split
    · exact noSequence_ok _
    · exact ih _

/-- R281: a placement that fails is an OVERLAP. -/
theorem noSequence_placeAll (g : Grid) (ps : List Placement) : NoSequence (placeAll g ps) := by
  induction ps generalizing g with
  | nil => exact noSequence_ok _
  | cons p ps ih => exact noSequence_test (ih _)

section
variable (s : State)

theorem noSequence_checkNseg : NoSequence s.checkNseg := noSequence_test (noSequence_ok _)

theorem noSequence_checkSegIdx (i : Nat) : NoSequence (s.checkSegIdx i) := noSequence_test (noSequence_ok _)

theorem noSequence_checkDegree : NoSequence s.checkDegree := noSequence_test (noSequence_ok _)

theorem noSequence_checkBlock : NoSequence s.checkBlock := noSequence_test (noSequence_test (noSequence_ok _))

theorem noSequence_checkCfgVersion : NoSequence s.checkCfgVersion := noSequence_test (noSequence_ok _)

theorem noSequence_checkSegment (i : Nat) : NoSequence (s.checkSegment i) := by
  unfold State.checkSegment
  dsimp only
  split
  · next h => exact (noSequence_checkDesc _ _).pass h
  · exact noSequence_checkChars _ _ _

theorem noSequence_checkSegments (is : List Nat) : NoSequence (s.checkSegments is) := by
  induction is with
  | nil => exact noSequence_ok _
  | cons i is ih =>
    rw [State.checkSegments]
    split
    · next h => exact (noSequence_checkSegment s i).pass h
    · exact ih

theorem noSequence_chooseVersion : NoSequence s.chooseVersion := by
  unfold State.chooseVersion
  split
  · next h => exact (noSequence_checkNseg s).pass h
  split
  · next h => exact (noSequence_checkCfgVersion s).pass h
  split
  · next h => exact (noSequence_checkSegments s _).pass h
  · exact noSequence_searchVersion _ _ _ _

end

/-! ### The prerequisite of each command -/

/-- R448: the phase prerequisite of a command; true where it has none. -/
def Phase.allows (p : Phase) : Instr → Bool
  | .bsAppend _ | .bsSeg _ | .bsFinish => p.canBuild
  | .ileave => p.canInterleave
  | .mxInit => p.canInit
  | .mxFunc => p.canFunc
  | .mxPlace => p.canPlace
  | .maskEval _ | .maskSelect | .maskApply _ => p.canMask
  | .nop | .encode | .gfMul | .gfPow | .gfLog | .gfExp | .vsel | .bsClear | .rsGen | .rsEnc | .bchFmt _ | .bchVer _ => true

/-- The prerequisite comes before every other check (R404). -/
theorem bodyOf_of_not_allows {i : Instr} {s : State} (h : s.phase.allows i = false) :
    bodyOf i s = .error s.sequenceError := by
  cases i <;> simp only [Phase.allows, Bool.true_eq_false] at h <;> exact if_pos (by rw [h]; rfl)

section
variable {s : State}

theorem noSequence_checked {r : Except CommandError Unit} {t : State} (h : NoSequence r) :
    NoSequence (match r with
      | .error e => .error e
      | .ok () => .ok t) := by
  split
  · exact h.pass rfl
  · exact noSequence_ok _

theorem noSequence_vselBody : NoSequence (vselBody s) := by
  unfold vselBody
  split
  · next h => exact (noSequence_chooseVersion s).pass h
  · exact noSequence_ok _

theorem noSequence_bsAppendBody {n : Nat} (h : s.phase.canBuild = true) : NoSequence (bsAppendBody n s) := by
  unfold bsAppendBody
  rw [h, Bool.not_true, if_neg Bool.false_ne_true]
  split
  · next h => exact (noSequence_checkNbits n).pass h
  · exact noSequence_test (noSequence_ok _)

theorem noSequence_bsSegBody {i : Nat} (h : s.phase.canBuild = true) : NoSequence (bsSegBody i s) := by
  unfold bsSegBody
  rw [h, Bool.not_true, if_neg Bool.false_ne_true]
  split
  · next h => exact (noSequence_checkNseg s).pass h
  split
  · next h => exact (noSequence_checkSegIdx s i).pass h
  split
  · next h => exact (noSequence_checkSegment s i).pass h
  · exact noSequence_test (noSequence_test (noSequence_ok _))

theorem noSequence_bsFinishBody (h : s.phase.canBuild = true) : NoSequence (bsFinishBody s) := by
  rw [bsFinishBody_of_canBuild h]
  exact noSequence_test (noSequence_ok _)

theorem noSequence_mxFuncBody (h : s.phase.canFunc = true) : NoSequence (mxFuncBody s) := by
  unfold mxFuncBody
  rw [h, Bool.not_true, if_neg Bool.false_ne_true]
  split
  · next h => exact (noSequence_placeAll _ _).pass h
  · exact noSequence_ok _

theorem noSequence_rsEncBody : NoSequence (rsEncBody s) := by
  unfold rsEncBody
  split
  · next h => exact (noSequence_checkDegree s).pass h
  split
  · next h => exact (noSequence_checkBlock s).pass h
  · exact noSequence_ok _

theorem noSequence_maskEvalBody {m : Nat} (h : s.phase.canMask = true) : NoSequence (maskEvalBody m s) := by
  unfold maskEvalBody
  rw [h, Bool.not_true, if_neg Bool.false_ne_true]
  exact noSequence_checked (noSequence_checkMask m)

theorem noSequence_maskApplyBody {m : Nat} (h : s.phase.canMask = true) : NoSequence (maskApplyBody m s) := by
  unfold maskApplyBody
  rw [h, Bool.not_true, if_neg Bool.false_ne_true]
  exact noSequence_checked (noSequence_checkMask m)

/-- A body of one prerequisite and no other check. -/
theorem noSequence_of_prerequisite {c : Bool} {e : CommandError} {t : State} (h : c = true) :
    NoSequence (if !c then .error e else .ok t) := by
  rw [h]
  exact noSequence_ok t

/-- Each segment is appended while V = 1 and F = 0, which no append changes. -/
theorem noSequence_bsSegAll {is : List Nat} (h : s.phase.canBuild = true) : NoSequence (bsSegAll is s) := by
  induction is generalizing s with
  | nil => exact noSequence_ok _
  | cons i is ih =>
    refine noSequence_andThen (noSequence_bsSegBody h) fun u hu => ih ?_
    obtain ⟨-, -, -, -, -, -, rfl⟩ := bsSegBody_ok hu
    rw [State.appendBits_eq]
    exact h

end

/-! ### The phase each step of encode leaves (R39) -/

section
variable {s t : State}

theorem vselBody_phase (h : vselBody s = .ok t) : t.phase = s.phase.afterVsel := by
  obtain ⟨v, -, rfl⟩ := vselBody_ok h
  rfl

theorem bsClearBody_phase (h : bsClearBody s = .ok t) : t.phase = s.phase.afterClear := by
  obtain rfl := bsClearBody_ok h
  rfl

theorem bsSegAll_phase {is : List Nat} (h : bsSegAll is s = .ok t) : t.phase = s.phase := by
  induction is generalizing s with
  | nil =>
    cases h
    rfl
  | cons i is ih =>
    obtain ⟨u, hu, h⟩ := andThen_ok h
    obtain ⟨-, -, -, -, -, -, rfl⟩ := bsSegBody_ok hu
    rw [ih h, State.appendBits_eq]

theorem bsFinishBody_phase (h : bsFinishBody s = .ok t) : t.phase = s.phase.afterFinish := by
  obtain ⟨-, -, rfl⟩ := bsFinishBody_ok h
  rw [State.appendBits_eq]

theorem ileaveBody_phase (h : ileaveBody s = .ok t) : t.phase = s.phase.afterIleave := by
  obtain ⟨-, rfl⟩ := ileaveBody_ok h
  rfl

theorem mxInitBody_phase (h : mxInitBody s = .ok t) : t.phase = s.phase.afterInit := by
  obtain ⟨-, rfl⟩ := mxInitBody_ok h
  rfl

theorem mxFuncBody_phase (h : mxFuncBody s = .ok t) : t.phase = s.phase.afterFunc := by
  obtain ⟨-, -, g, -, rfl⟩ := mxFuncBody_ok h
  rfl

theorem mxPlaceBody_phase (h : mxPlaceBody s = .ok t) : t.phase = s.phase.afterPlace := by
  obtain ⟨-, -, -, rfl⟩ := mxPlaceBody_ok h
  rfl

/-- Each step of encode leaves the flags the next one needs (R371, R448). -/
theorem noSequence_encodeBody : NoSequence (encodeBody s) := by
  refine noSequence_andThen noSequence_vselBody fun u1 h1 => noSequence_andThen (noSequence_ok _) fun u2 h2 => ?_
  have p2 : u2.phase = s.phase.afterVsel := by rw [bsClearBody_phase h2, vselBody_phase h1]; rfl
  refine noSequence_andThen (noSequence_bsSegAll (by rw [p2]; rfl)) fun u3 h3 => ?_
  have p3 := (bsSegAll_phase h3).trans p2
  refine noSequence_andThen (noSequence_bsFinishBody (by rw [p3]; rfl)) fun u4 h4 => ?_
  have p4 := (bsFinishBody_phase h4).trans (congrArg Phase.afterFinish p3)
  refine noSequence_andThen (noSequence_of_prerequisite (by rw [p4]; rfl)) fun u5 h5 => ?_
  have p5 := (ileaveBody_phase h5).trans (congrArg Phase.afterIleave p4)
  refine noSequence_andThen (noSequence_of_prerequisite (by rw [p5]; rfl)) fun u6 h6 => ?_
  have p6 := (mxInitBody_phase h6).trans (congrArg Phase.afterInit p5)
  refine noSequence_andThen (noSequence_mxFuncBody (by rw [p6]; rfl)) fun u7 h7 => ?_
  have p7 := (mxFuncBody_phase h7).trans (congrArg Phase.afterFunc p6)
  refine noSequence_andThen (noSequence_of_prerequisite (by rw [p7]; rfl)) fun u8 h8 => ?_
  have p8 := (mxPlaceBody_phase h8).trans (congrArg Phase.afterPlace p7)
  exact noSequence_of_prerequisite (by rw [p8]; rfl)

theorem noSequence_bodyOf {i : Instr} (h : s.phase.allows i = true) : NoSequence (bodyOf i s) := by
  cases i with
  | nop => exact noSequence_ok _
  | encode => exact noSequence_encodeBody
  | gfMul => exact noSequence_ok _
  | gfPow => exact noSequence_ok _
  | gfLog => exact noSequence_test (noSequence_ok _)
  | gfExp => exact noSequence_ok _
  | vsel => exact noSequence_vselBody
  | bsClear => exact noSequence_ok _
  | bsAppend n => exact noSequence_bsAppendBody h
  | bsSeg i => exact noSequence_bsSegBody h
  | bsFinish => exact noSequence_bsFinishBody h
  | rsGen => exact noSequence_checked (noSequence_checkDegree s)
  | rsEnc => exact noSequence_rsEncBody
  | ileave => exact noSequence_of_prerequisite h
  | mxInit => exact noSequence_of_prerequisite h
  | mxFunc => exact noSequence_mxFuncBody h
  | mxPlace => exact noSequence_of_prerequisite h
  | bchFmt sel => exact noSequence_checked (noSequence_checkFmtSel sel)
  | bchVer v => exact noSequence_checked (noSequence_checkVerNum v)
  | maskEval m => exact noSequence_maskEvalBody h
  | maskSelect => exact noSequence_of_prerequisite h
  | maskApply m => exact noSequence_maskApplyBody h

end

theorem ErrorKind.eq_sequence_of_code (kind : ErrorKind) : kind.code = 0x22 → kind = .sequence := by
  cases kind <;> decide

/-- Settles O20: a false prerequisite is the first check that fails; with a true one no check raises SEQUENCE, and a
success leaves ERRCODE alone. -/
theorem sequencePrerequisites : Obligations.SequencePrerequisites := by
  unfold Obligations.SequencePrerequisites
  intro i s needs
  have hneeds : needs = s.phase.allows i := by cases i <;> rfl
  rw [hneeds]
  refine ⟨fun h => exec_of_body_error (bodyOf_of_not_allows h), fun h hcode => ?_⟩
  cases hbody : bodyOf i s with
  | ok u =>
    refine ⟨_, exec_of_body_ok hbody, ?_⟩
    have hframe := bodyOf_frame hbody
    rw [State.completeOk_errCode, hframe, hcode]
    decide
  | error e =>
    refine ⟨_, exec_of_body_error hbody, ?_⟩
    have hkind := noSequence_bodyOf h e hbody
    rw [State.completeError_errCode]
    exact fun hcode => hkind (e.kind.eq_sequence_of_code hcode)

end Sys2Proof.Machine
end

section
/-! PROOFS. The steps of encode (47_control.md R371, R374): none of them reads or writes the latch and the status record, so
each does the same whether it runs as a command of its own or within encode. -/

namespace Sys2Proof.Machine

open Sys2Proof

/-- The latch and the status record of r, the rest of s. -/
def State.withStatus (s r : State) : State :=
  { s with latch := r.latch, done := r.done, err := r.err, errCode := r.errCode, errInfo := r.errInfo }

/-! ### What a body reads and writes -/

/-- A body that does the same whatever the latch and the status record hold, and leaves them. -/
def StatusFree (body : State → Except CommandError State) : Prop :=
  ∀ ⦃s t : State⦄ (r : State), body s = .ok t → body (s.withStatus r) = .ok (t.withStatus r)

/-- The operand registers and memory of s, every other register as after a reset: all that vsel reads. -/
def State.inputPart (s : State) : State :=
  { State.reset with operand := s.operand, mem := s.mem, epoch := s.epoch }

theorem State.inputPart_checkSegments (s : State) (is : List Nat) :
    s.inputPart.checkSegments is = s.checkSegments is := by
  induction is with
  | nil => rfl
  | cons i is ih =>
    rw [State.checkSegments, State.checkSegments, ih]
    rfl

theorem State.inputPart_chooseVersion (s : State) : s.inputPart.chooseVersion = s.chooseVersion := by
  rw [State.chooseVersion, State.inputPart_checkSegments]
  rfl

theorem State.chooseVersion_congr {s t : State} (h : t.inputPart = s.inputPart) : t.chooseVersion = s.chooseVersion := by
  rw [← State.inputPart_chooseVersion, h, State.inputPart_chooseVersion]

section
variable (s r : State)

theorem State.withStatus_appendBits (bs : List Bool) :
    (s.withStatus r).appendBits bs = (s.appendBits bs).withStatus r := by
  cases bs <;> rfl

theorem State.withStatus_setBytes (g : Region) (i : Nat) (bs : List Byte) :
    (s.withStatus r).setBytes g i bs = (s.setBytes g i bs).withStatus r := rfl

theorem State.withStatus_setGrid (g : Grid) : (s.withStatus r).setGrid g = (s.setGrid g).withStatus r := rfl

theorem State.withStatus_candidate (m : Nat) : (s.withStatus r).candidate m = s.candidate m := rfl

theorem State.withStatus_commitMask (m : Nat) : (s.withStatus r).commitMask m = (s.commitMask m).withStatus r := by
  rw [State.commitMask_eq, State.commitMask_eq, State.withStatus_candidate, State.withStatus_setGrid]
  generalize s.setGrid (s.candidate m) = u
  rfl

theorem State.withStatus_score (m : Nat) : (s.withStatus r).score m = s.score m := rfl

theorem State.withStatus_selected : (s.withStatus r).selected = s.selected.withStatus r := by
  have hbest : (s.withStatus r).bestMask = s.bestMask := rfl
  have htotals : (s.withStatus r).allTotals = s.allTotals := rfl
  rw [State.selected, State.selected, hbest, htotals, State.withStatus_commitMask, State.withStatus_score]
  generalize s.commitMask s.bestMask = u
  rfl

end

/-! ### The bodies -/

/-- The state bs.clear leaves (R202). -/
def State.cleared (s : State) : State :=
  { (s.setBytes .dcw 0 (List.replicate 4096 0)).setBitLen 0 with phase := s.phase.afterClear }

theorem bsClearBody_eq (s : State) : bsClearBody s = .ok s.cleared := rfl

theorem maskSelectBody_of_phase {s : State} (hd : s.phase.d = true) (hk : s.phase.k = false) :
    maskSelectBody s = .ok s.selected := by
  rw [maskSelectBody, s.phase.canMask_iff.2 ⟨hd, hk⟩]
  rfl

theorem mxPlaceBody_of_flags {s : State} (hp : s.phase.p = true) (hc : s.phase.c = true) (hd : s.phase.d = false) :
    mxPlaceBody s = .ok { s.setGrid (placeBits s.grid (zigzag s.side s.grid) (placementBits
      (s.bytes .fcw 0 s.result.totalCw.toNat) (remainderBits s.result.version.toNat))) with
        phase := s.phase.afterPlace } := by
  simp only [mxPlaceBody, Phase.canPlace, hp, hc, hd, Bool.not_true, Bool.not_false, Bool.and_true, Bool.false_eq_true,
    if_false]

theorem statusFree_vselBody : StatusFree vselBody := by
  intro s t r h
  obtain ⟨v, hv, rfl⟩ := vselBody_ok h
  rw [vselBody, State.chooseVersion_congr (s := s) (t := s.withStatus r) rfl, hv]
  rfl

theorem statusFree_bsClearBody : StatusFree bsClearBody := by
  intro s t r h
  obtain rfl := bsClearBody_ok h
  rw [bsClearBody_eq, State.cleared, State.withStatus_setBytes]
  rfl

theorem statusFree_bsSegBody (i : Nat) : StatusFree (bsSegBody i) := by
  intro s t r h
  obtain ⟨hb, hn, hi, hs, hfits, hcap, rfl⟩ := bsSegBody_ok h
  rw [← State.withStatus_appendBits]
  exact (bsSegBody_of_checks (s := s.withStatus r) hb hn hi hs).trans
    ((if_neg (Nat.not_le.2 (of_decide_eq_true hfits))).trans (if_neg (Nat.not_lt.2 hcap)))

theorem statusFree_bsFinishBody : StatusFree bsFinishBody := by
  intro s t r h
  obtain ⟨hb, hcap, rfl⟩ := bsFinishBody_ok h
  have hpadded : (s.withStatus r).padded = s.padded.withStatus r := s.withStatus_appendBits r _
  refine ((bsFinishBody_of_canBuild (s := s.withStatus r) hb).trans (if_neg (Nat.not_lt.2 hcap))).trans ?_
  rw [hpadded]
  rfl

theorem statusFree_ileaveBody : StatusFree ileaveBody := by
  intro s t r h
  obtain ⟨hf, rfl⟩ := ileaveBody_ok h
  exact ileaveBody_of_f (s := s.withStatus r) hf

theorem statusFree_mxInitBody : StatusFree mxInitBody := by
  intro s t r h
  obtain ⟨hv, rfl⟩ := mxInitBody_ok h
  exact mxInitBody_of_v (s := s.withStatus r) hv

theorem statusFree_mxFuncBody : StatusFree mxFuncBody := by
  intro s t r h
  obtain ⟨hm, hp, g, hg, rfl⟩ := mxFuncBody_ok h
  exact mxFuncBody_of_placeAll (s := s.withStatus r) hm hp hg

theorem statusFree_mxPlaceBody : StatusFree mxPlaceBody := by
  intro s t r h
  obtain ⟨hp, hc, hd, rfl⟩ := mxPlaceBody_ok h
  exact mxPlaceBody_of_flags (s := s.withStatus r) hp hc hd

theorem statusFree_maskSelectBody : StatusFree maskSelectBody := by
  intro s t r h
  obtain ⟨hd, hk, -⟩ := maskSelectBody_ok h
  obtain rfl : s.selected = t := Except.ok.inj ((maskSelectBody_of_phase hd hk).symm.trans h)
  rw [maskSelectBody_of_phase (s := s.withStatus r) hd hk, State.withStatus_selected]

/-! ### The sequence of R374 -/

/-- The host's sequence for n segments (R374). -/
def encodeSteps (n : Nat) : List Instr :=
  .vsel :: .bsClear ::
    ((List.range n).map Instr.bsSeg ++ [.bsFinish, .ileave, .mxInit, .mxFunc, .mxPlace, .maskSelect])

theorem statusFree_of_mem_encodeSteps {n : Nat} {i : Instr} (h : i ∈ encodeSteps n) : StatusFree (bodyOf i) := by
  simp only [encodeSteps, List.mem_append, List.mem_cons, List.mem_map, List.not_mem_nil, or_false] at h
  obtain rfl | rfl | ⟨k, -, rfl⟩ | rfl | rfl | rfl | rfl | rfl | rfl := h
  · exact statusFree_vselBody
  · exact statusFree_bsClearBody
  · exact statusFree_bsSegBody k
  · exact statusFree_bsFinishBody
  · exact statusFree_ileaveBody
  · exact statusFree_mxInitBody
  · exact statusFree_mxFuncBody
  · exact statusFree_mxPlaceBody
  · exact statusFree_maskSelectBody

/-- The bodies of several commands, one after another (R371). -/
def bodiesOf : List Instr → State → Except CommandError State
  | [], s => .ok s
  | i :: is, s => andThen (bodyOf i s) (bodiesOf is)

theorem andThen_of_ok {r : Except CommandError State} {f : State → Except CommandError State} {u : State}
    (h : r = .ok u) : andThen r f = f u := by
  rw [h, andThen]

theorem andThen_pure (r : Except CommandError State) : andThen r .ok = r := by cases r <;> rfl

theorem andThen_assoc (r : Except CommandError State) (f g : State → Except CommandError State) :
    andThen (andThen r f) g = andThen r fun s => andThen (f s) g := by cases r <;> rfl

theorem bodiesOf_append (is js : List Instr) (s : State) :
    bodiesOf (is ++ js) s = andThen (bodiesOf is s) (bodiesOf js) := by
  induction is generalizing s with
  | nil => rfl
  | cons i is ih =>
    rw [List.cons_append, bodiesOf, bodiesOf, andThen_assoc]
    exact congrArg _ (funext ih)

theorem bodiesOf_bsSeg (is : List Nat) : bodiesOf (is.map Instr.bsSeg) = bsSegAll is := by
  induction is with
  | nil => rfl
  | cons i is ih =>
    funext s
    rw [List.map_cons, bodiesOf, ih]
    rfl

/-- encode is the sequence of R374 (R371). -/
theorem encodeBody_eq_bodiesOf (s : State) : encodeBody s = bodiesOf (encodeSteps s.operand.nseg.toNat) s := by
  rw [encodeSteps, bodiesOf, encodeBody]
  cases hvsel : vselBody s with
  | error e =>
    rw [bodyOf, hvsel]
    rfl
  | ok u1 =>
    obtain ⟨u2, hclear⟩ : ∃ u2, bsClearBody u1 = .ok u2 := ⟨_, rfl⟩
    have hoperand : u2.operand = s.operand := by
      have hframe := (vselBody_frame hvsel).trans (bsClearBody_frame hclear)
      rw [hframe]
    rw [andThen_of_ok rfl, andThen_of_ok hclear, hoperand, bodyOf, andThen_of_ok hvsel, bodiesOf, bodyOf,
      andThen_of_ok hclear, bodiesOf_append, bodiesOf_bsSeg]
    simp only [bodiesOf, andThen_pure]
    rfl

theorem statusFree_bodiesOf {is : List Instr} (h : ∀ i ∈ is, StatusFree (bodyOf i)) : StatusFree (bodiesOf is) := by
  induction is with
  | nil =>
    rintro s t r ⟨⟩
    rfl
  | cons i is ih =>
    obtain ⟨hi, his⟩ := List.forall_mem_cons.1 h
    intro s t r hs
    obtain ⟨u, hu, ht⟩ := andThen_ok hs
    exact (andThen_of_ok (hi r hu)).trans (ih his r ht)

theorem statusFree_encodeBody : StatusFree encodeBody := by
  intro s t r h
  rw [encodeBody_eq_bodiesOf] at h ⊢
  exact statusFree_bodiesOf (fun i hi => statusFree_of_mem_encodeSteps hi) r h

/-! ### The sequence run by the host (R374) -/

/-- The state a body leaves, as an accepted command completes with it (R400, R405). -/
def State.succeeded (s : State) : State := (s.accept 0).completeOk

/-- One command of the host's sequence: its body, and then the rest. -/
theorem runCommands_cons {i : Instr} (hfree : StatusFree (bodyOf i)) (is : List Instr) (s t r : State) :
    runCommands (i :: is) (s.withStatus r) = some t ↔ ∃ u, bodyOf i s = .ok u ∧ runCommands is u.succeeded = some t := by
  have haccept : (s.withStatus r).accept (encode i) = s.withStatus (s.accept (encode i)) := rfl
  rw [runCommands, haccept]
  cases hbody : bodyOf i s with
  | ok u =>
    rw [exec_of_body_ok (hfree _ hbody)]
    simp
    rfl
  | error e =>
    cases haccepted : bodyOf i (s.withStatus (s.accept (encode i))) with
    | ok u =>
      have hsame := hfree s haccepted
      cases hbody.symm.trans hsame
    | error e' =>
      rw [exec_of_body_error haccepted]
      simp

/-- The same for the whole sequence, where it is known of the commands after the first. -/
theorem runCommands_cons_iff {i : Instr} (hfree : StatusFree (bodyOf i)) {is : List Instr} {t : State}
    (hrest : ∀ u : State, runCommands is u.succeeded = some t ↔ ∃ x, bodiesOf is u = .ok x ∧ t = x.succeeded)
    (s r : State) :
    runCommands (i :: is) (s.withStatus r) = some t ↔ ∃ x, bodiesOf (i :: is) s = .ok x ∧ t = x.succeeded := by
  simp only [runCommands_cons hfree, hrest]
  constructor
  · rintro ⟨u, hu, x, hx, rfl⟩
    exact ⟨x, (andThen_of_ok hu).trans hx, rfl⟩
  · rintro ⟨x, hx, rfl⟩
    obtain ⟨u, hu, hx⟩ := andThen_ok hx
    exact ⟨u, hu, x, hx, rfl⟩

theorem runCommands_succeeded {is : List Instr} (hfree : ∀ i ∈ is, StatusFree (bodyOf i)) (s t : State) :
    runCommands is s.succeeded = some t ↔ ∃ u, bodiesOf is s = .ok u ∧ t = u.succeeded := by
  induction is generalizing s with
  | nil => simp [runCommands, bodiesOf, eq_comm]
  | cons i is ih =>
    obtain ⟨hi, his⟩ := List.forall_mem_cons.1 hfree
    exact runCommands_cons_iff hi (ih his) s s.succeeded

/-- The host's sequence succeeds exactly where encode does, and leaves the state that encode's body leaves. -/
theorem runCommands_encodeSteps (s t : State) : runCommands (encodeSteps s.operand.nseg.toNat) s = some t ↔
    ∃ u, encodeBody s = .ok u ∧ t = u.succeeded := by
  rw [encodeBody_eq_bodiesOf]
  obtain ⟨hvsel, hrest⟩ := List.forall_mem_cons.1 fun i (hi : i ∈ encodeSteps s.operand.nseg.toNat) =>
    statusFree_of_mem_encodeSteps hi
  exact runCommands_cons_iff hvsel (fun u => runCommands_succeeded hrest u t) s s

/-- encode, once accepted, completes with what its body leaves. -/
theorem exec_encode_accept {s u : State} (h : encodeBody s = .ok u) (w : Word) :
    exec .encode (s.accept w) = .next u.succeeded :=
  exec_of_body_ok (i := .encode) (s := s.accept w) (t := u.accept w) (statusFree_encodeBody (s.accept w) h)

end Sys2Proof.Machine
end

section
/-! PROOFS. The stream encode builds (47_control.md R371; 42_bitstream.md R201 to R210): the segments' bits in order, then
the terminator and the padding. -/

namespace Sys2Proof.Machine

open Sys2Proof

/-! ### States that differ in DCW only -/

section
variable {s t : State} (hs : s.MemoryOk) (ht : t.MemoryOk)
  (hsame : ∀ x, ¬ (0x3000 ≤ x ∧ x < 0x4000) → t.readByte x = s.readByte x)
include hs ht hsame

theorem State.bytes_of_same {g : Region} (hg : g ≠ .dcw) {i n : Nat} (h : i + n ≤ g.size) :
    t.bytes g i n = s.bytes g i n := by
  rw [State.bytes_eq_map_buf t ht.1, State.bytes_eq_map_buf s hs.1]
  refine List.map_congr_left fun j hj => ?_
  have hj : i + j < g.size := by have := List.mem_range.1 hj; omega
  rw [← State.readByte_base t g hj, ← State.readByte_base s g hj]
  refine hsame _ fun hdcw => hg ?_
  refine (region_disjoint (h := .dcw) (j := g.base + (i + j) - 0x3000) hj ?_ ?_).1
  · rw [Region.size]; omega
  · rw [Region.base.eq_def .dcw]; dsimp only; omega

theorem State.descriptor_of_same {i : Nat} (hi : i < 16) : t.descriptor i = s.descriptor i := by
  rw [State.descriptor, State.descriptor,
    State.bytes_of_same hs ht hsame (g := .segtab) nofun (show 8 * i + 4 ≤ 128 by omega),
    State.bytes_of_same hs ht hsame (g := .segtab) nofun (show 8 * i + 4 + 4 ≤ 128 by omega)]

theorem State.segmentBytes_of_same {d : Descriptor} (hd : d.start + d.len ≤ 8192) :
    t.segmentBytes d = s.segmentBytes d :=
  State.bytes_of_same hs ht hsame (g := .inbuf) nofun hd

end

/-! ### Segments -/

theorem checkDesc_fits {d : Descriptor} {i : Nat} (h : checkDesc d i = .ok ()) : d.start + d.len ≤ 8192 := by
  by_contra hlong
  by_cases hreserved : d.reserved = 0
  · cases (checkDesc_range hreserved (Nat.not_le.1 hlong)).symm.trans h
  · cases (checkDesc_reserved hreserved).symm.trans h

theorem State.checkSegment_fits {s : State} {i : Nat} (h : s.checkSegment i = .ok ()) :
    checkDesc (s.descriptor i) i = .ok () ∧ (s.descriptor i).start + (s.descriptor i).len ≤ 8192 := by
  cases hdesc : checkDesc (s.descriptor i) i with
  | ok => exact ⟨rfl, checkDesc_fits hdesc⟩
  | error e => cases (State.checkSegment_of_checkDesc_error hdesc).symm.trans h

/-- What bs.seg i appends: segment i as it is serialised at the symbol's version (R208, R209). -/
def State.segmentBits (s : State) (i : Nat) : List Bool :=
  emitSegment (s.descriptor i) s.result.version.toNat (s.segmentBytes (s.descriptor i))

theorem State.segmentBits_length (s : State) (i : Nat) :
    (s.segmentBits i).length = segBits (s.descriptor i) s.result.version.toNat :=
  emitSegment_length _ _ (s.segmentBytes_length _)

/-- Segment i passes every check of bs.seg but that of the capacity. -/
structure State.SegmentReady (s : State) (i : Nat) : Prop where
  index : i < s.operand.nseg.toNat
  count : s.operand.nseg.toNat ≤ 16
  checked : s.checkSegment i = .ok ()
  fits : (s.descriptor i).count < 2 ^ cciWidth (s.descriptor i).mode s.result.version.toNat

/-- The same segment in a state that differs in DCW only. -/
theorem State.SegmentReady.of_same {s t : State} {i : Nat} (h : s.SegmentReady i) (hs : s.MemoryOk) (ht : t.MemoryOk)
    (hsame : ∀ x, ¬ (0x3000 ≤ x ∧ x < 0x4000) → t.readByte x = s.readByte x) (hoperand : t.operand = s.operand)
    (hversion : t.result.version = s.result.version) :
    t.SegmentReady i ∧ t.descriptor i = s.descriptor i ∧ t.segmentBits i = s.segmentBits i := by
  obtain ⟨hi, hn, hchecked, hfits⟩ := h
  obtain ⟨hdesc, hlen⟩ := State.checkSegment_fits hchecked
  have hd := State.descriptor_of_same hs ht hsame (hi.trans_le hn)
  have hbytes := State.segmentBytes_of_same hs ht hsame hlen
  refine ⟨⟨hoperand ▸ hi, hoperand ▸ hn, ?_, ?_⟩, hd, ?_⟩
  · rw [State.checkSegment_of_checkDesc_ok (hd ▸ hdesc), hd, hbytes, ← hchecked,
      State.checkSegment_of_checkDesc_ok hdesc]
  · rwa [hd, hversion]
  · rw [State.segmentBits, hd, hbytes, hversion, State.segmentBits]

theorem bsSegBody_of_ready {s : State} {i : Nat} (hp : s.phase.canBuild = true) (h : s.SegmentReady i)
    (hcap : s.result.bitLen.toNat + (s.segmentBits i).length ≤ s.capacity) :
    bsSegBody i s = .ok (s.appendBits (s.segmentBits i)) := by
  rw [State.segmentBits_length] at hcap
  exact (bsSegBody_of_checks hp h.count h.index h.checked).trans
    ((if_neg (Nat.not_le.2 h.fits)).trans (if_neg (Nat.not_lt.2 hcap)))

/-! ### Appends one after another -/

/-- t is s with the given bits appended to the stream. -/
structure State.Appended (s t : State) (bits : List Bool) : Prop where
  memory : t.MemoryOk
  frame : t = { s with result := { s.result with bitLen := t.result.bitLen }, mem := t.mem }
  bitLen : t.result.bitLen.toNat = s.result.bitLen.toNat + bits.length
  stream : ∀ j < 32768, t.streamBit j =
    if s.result.bitLen.toNat ≤ j ∧ j < s.result.bitLen.toNat + bits.length
    then bits.getD (j - s.result.bitLen.toNat) false else s.streamBit j
  other : ∀ x, ¬ (0x3000 ≤ x ∧ x < 0x4000) → t.readByte x = s.readByte x

theorem State.appended_nil {s : State} (hm : s.MemoryOk) : s.Appended s [] where
  memory := hm
  frame := rfl
  bitLen := rfl
  stream j _ := by rw [if_neg (by simp)]
  other _ _ := rfl

theorem State.appended_appendBits {s : State} (hm : s.MemoryOk) {bits : List Bool}
    (hfit : s.result.bitLen.toNat + bits.length ≤ 32768) : s.Appended (s.appendBits bits) bits where
  memory := (State.appendBits_spec hm hfit).1
  frame := s.appendBits_eq bits
  bitLen := State.appendBits_bitLen hm hfit
  stream _ hj := State.appendBits_streamBit hm hfit hj
  other _ hx := State.appendBits_readByte hm hfit (by omega)

section
variable {s t u : State} {a b : List Bool}

theorem State.Appended.operand_eq (h : s.Appended t a) : t.operand = s.operand := by rw [h.frame]

theorem State.Appended.phase_eq (h : s.Appended t a) : t.phase = s.phase := by rw [h.frame]

theorem State.Appended.version_eq (h : s.Appended t a) : t.result.version = s.result.version := by rw [h.frame]

theorem State.Appended.dataCw_eq (h : s.Appended t a) : t.result.dataCw = s.result.dataCw := by rw [h.frame]

theorem State.Appended.trans (h1 : s.Appended t a) (h2 : t.Appended u b) : s.Appended u (a ++ b) where
  memory := h2.memory
  frame := by rw [h2.frame, h1.frame]
  bitLen := by rw [h2.bitLen, h1.bitLen, List.length_append, Nat.add_assoc]
  stream j hj := by
    rw [h2.stream j hj, h1.stream j hj, h1.bitLen, List.length_append]
    by_cases hold : j < s.result.bitLen.toNat
    · rw [if_neg (by omega), if_neg (by omega), if_neg (by omega)]
    rcases Nat.lt_or_ge j (s.result.bitLen.toNat + a.length) with hlt | hge
    · rw [if_neg (by omega), if_pos (by omega), if_pos (by omega), List.getD_append _ _ _ _ (by omega)]
    · rw [if_neg (c := _ ∧ j < s.result.bitLen.toNat + a.length) (by omega)]
      refine if_congr (by omega) ?_ rfl
      rw [List.getD_append_right _ _ _ _ (by omega), Nat.sub_add_eq]
  other x hx := (h2.other x hx).trans (h1.other x hx)

end

/-- Segments that are ready and fit the capacity together are appended in order. -/
theorem bsSegAll_appends {is : List Nat} {s : State} (hm : s.MemoryOk) (hp : s.phase.canBuild = true)
    (hready : ∀ i ∈ is, s.SegmentReady i)
    (hcap : s.result.bitLen.toNat + (is.flatMap s.segmentBits).length ≤ s.capacity) :
    ∃ t, bsSegAll is s = .ok t ∧ s.Appended t (is.flatMap s.segmentBits) := by
  induction is generalizing s with
  | nil => exact ⟨s, rfl, State.appended_nil hm⟩
  | cons i is ih =>
    obtain ⟨hi, his⟩ := List.forall_mem_cons.1 hready
    rw [List.flatMap_cons, List.length_append] at hcap
    have hbody := bsSegBody_of_ready hp hi (by omega)
    have happ := State.appended_appendBits hm (bits := s.segmentBits i) (by have := s.capacity_lt; omega)
    generalize s.appendBits (s.segmentBits i) = u at hbody happ
    have hkept : ∀ j ∈ is, u.SegmentReady j ∧ u.descriptor j = s.descriptor j ∧ u.segmentBits j = s.segmentBits j :=
      fun j hj => (his j hj).of_same hm happ.memory happ.other happ.operand_eq happ.version_eq
    have hbits : is.flatMap u.segmentBits = is.flatMap s.segmentBits :=
      List.flatMap_congr fun j hj => (hkept j hj).2.2
    obtain ⟨t, ht, happ'⟩ := ih happ.memory (happ.phase_eq ▸ hp) (fun j hj => (hkept j hj).1)
      (by rw [hbits, happ.bitLen, State.capacity, happ.dataCw_eq]; exact (Nat.add_assoc ..).trans_le hcap)
    exact ⟨t, (andThen_of_ok hbody).trans ht, List.flatMap_cons ▸ happ.trans (hbits ▸ happ')⟩

/-! ### The invariant within encode -/

/-- The invariant with no command in flight: what the steps of encode keep, whatever the latch and the status record hold. -/
def State.Sound (s : State) : Prop := (s.withStatus .reset).Inv

theorem State.Sound.memory {s : State} (h : s.Sound) : s.MemoryOk := State.Inv.memory (s := s.withStatus .reset) h

theorem State.Sound.phase {s : State} (h : s.Sound) : s.phase.Ok := State.Inv.phase (s := s.withStatus .reset) h

theorem State.Sound.symbol {s : State} (h : s.Sound) : s.SymbolOk := State.Inv.symbol (s := s.withStatus .reset) h

theorem State.Sound.matrix {s : State} (h : s.Sound) : s.MatrixOk := State.Inv.matrix (s := s.withStatus .reset) h

theorem State.Sound.margin {s : State} (h : s.Sound) : s.MarginOk := State.Inv.margin (s := s.withStatus .reset) h

theorem State.Sound.of_bodyOf {i : Instr} {s t : State} (hs : s.Sound) (hfree : StatusFree (bodyOf i))
    (h : bodyOf i s = .ok t) : t.Sound :=
  bodyOf_inv (i := i) hs (hfree State.reset h)

theorem State.Sound.of_bsSegAll {is : List Nat} {s t : State} (hs : s.Sound) (h : bsSegAll is s = .ok t) : t.Sound := by
  induction is generalizing s with
  | nil =>
    cases h
    exact hs
  | cons i is ih =>
    obtain ⟨u, hu, ht⟩ := andThen_ok h
    exact ih (hs.of_bodyOf (i := .bsSeg i) (statusFree_bsSegBody i) hu) ht

section
variable {s : State} {v : Nat}

/-- vsel and bs.clear establish the invariant on any memory: no flag but V is set. -/
theorem State.sound_cleared (hm : s.MemoryOk) (hv : s.chooseVersion = .ok v) : (s.selectVersion v).cleared.Sound := by
  have hreset : s.inputPart.Inv := (State.inv_resetRegisters hm).congr rfl
  have hvsel : vselBody s.inputPart = .ok (s.inputPart.selectVersion v) := by
    rw [vselBody, s.inputPart_chooseVersion, hv]
  exact State.Inv.congr (bsClearBody_inv (vselBody_inv hreset hvsel) (bsClearBody_eq _)) rfl

theorem State.cleared_bitLen : s.cleared.result.bitLen.toNat = 0 := rfl

theorem State.cleared_readByte (hm : s.MemoryOk) {x : Nat} (hx : ¬ (0x3000 ≤ x ∧ x < 0x4000)) :
    s.cleared.readByte x = s.readByte x :=
  (State.readByte_congr rfl rfl x).trans (State.readByte_zeroDcw_outside hm hx)

end

/-! ### The stream (R371, R374) -/

/-- The segments' bits in order, at version v (R208). -/
def State.segmentStream (s : State) (v : Nat) : List Bool :=
  (List.range s.operand.nseg.toNat).flatMap fun i =>
    emitSegment (s.descriptor i) v (s.segmentBytes (s.descriptor i))

theorem State.segmentStream_length (s : State) (v : Nat) : (s.segmentStream v).length = s.bitsAt v := by
  rw [State.segmentStream, List.length_flatMap, State.bitsAt]
  exact congrArg List.sum (List.map_congr_left fun i _ => emitSegment_length _ _ (s.segmentBytes_length _))

/-- The bits of version v at the level asked for. -/
abbrev State.capacityAt (s : State) (v : Nat) : Nat := 8 * dataCodewords v (.ofBits s.operand.cfgLevel)

/-- The whole stream: the segments' bits, the terminator and the padding. -/
def State.fullStream (s : State) (v : Nat) : List Bool :=
  s.segmentStream v ++ finishBits (s.segmentStream v).length (s.capacityAt v)

section
variable {s : State} {v : Nat} (hm : s.MemoryOk) (hv : s.chooseVersion = .ok v)
include hv

theorem State.segmentStream_fits : (s.segmentStream v).length ≤ s.capacityAt v := by
  obtain ⟨-, -, -, -, -, hbits⟩ := State.chooseVersion_ok hv
  rwa [s.segmentStream_length]

theorem State.fullStream_length : (s.fullStream v).length = s.capacityAt v := by
  have hfits := State.segmentStream_fits hv
  rw [State.fullStream, List.length_append, finishBits_length hfits (Nat.mul_mod_right ..), Nat.add_sub_cancel' hfits]

theorem State.capacity_selectVersion : (s.selectVersion v).capacity = s.capacityAt v := by
  obtain ⟨-, -, -, ⟨-, h40, -⟩, hacc⟩ := State.chooseVersion_ok hv
  obtain ⟨-, -, -, hdata, -⟩ := State.selectVersion_registers h40 hacc
  exact congrArg (8 * ·) hdata

/-- bs.finish after the segments. -/
theorem bsFinishBody_afterSegments {u : State} (happ : (s.selectVersion v).cleared.Appended u (s.segmentStream v)) :
    ∃ p, bsFinishBody u = .ok { p with phase := p.phase.afterFinish } ∧
      (s.selectVersion v).cleared.Appended p (s.fullStream v) := by
  have hlen : u.result.bitLen.toNat = (s.segmentStream v).length := by
    rw [happ.bitLen, State.cleared_bitLen, Nat.zero_add]
  have hcapacity : u.capacity = s.capacityAt v := by
    rw [State.capacity, happ.dataCw_eq]
    exact State.capacity_selectVersion hv
  have hfits : u.result.bitLen.toNat ≤ u.capacity := by
    rw [hlen, hcapacity]
    exact State.segmentStream_fits hv
  have hbuild : u.phase.canBuild = true := by
    rw [happ.phase_eq]
    rfl
  refine ⟨u.padded, (bsFinishBody_of_canBuild hbuild).trans (if_neg (Nat.not_lt.2 hfits)), ?_⟩
  have hpadded := happ.trans (State.appended_appendBits happ.memory (State.finishBits_fit hfits))
  rw [State.fullStream, ← hlen, ← hcapacity]
  exact hpadded

include hm

/-- Every segment of the chosen version is ready once the stream is cleared, and stands for the same bits. -/
theorem State.segmentReady_cleared {i : Nat} (hi : i < s.operand.nseg.toNat) :
    (s.selectVersion v).cleared.SegmentReady i ∧ (s.selectVersion v).cleared.segmentBits i =
      emitSegment (s.descriptor i) v (s.segmentBytes (s.descriptor i)) := by
  obtain ⟨hn, -, hchecked, ⟨-, h40, -⟩, hacc⟩ := State.chooseVersion_ok hv
  obtain ⟨hversion, -⟩ := State.selectVersion_registers h40 hacc
  have hready : (s.selectVersion v).SegmentReady i := ⟨hi, hn, hchecked i hi, by rw [hversion]; exact hacc.1 i hi⟩
  obtain ⟨hready', -, hbits⟩ := hready.of_same hm (State.sound_cleared hm hv).memory
    (fun x hx => State.cleared_readByte hm hx) rfl rfl
  exact ⟨hready', by rw [hbits, State.segmentBits, hversion]; rfl⟩

/-- The segments, one after another. -/
theorem bsSegAll_cleared : ∃ u, bsSegAll (List.range s.operand.nseg.toNat) (s.selectVersion v).cleared = .ok u ∧
    (s.selectVersion v).cleared.Appended u (s.segmentStream v) := by
  have hready := fun i (hi : i ∈ List.range s.operand.nseg.toNat) =>
    State.segmentReady_cleared hm hv (List.mem_range.1 hi)
  have hstream : (List.range s.operand.nseg.toNat).flatMap (s.selectVersion v).cleared.segmentBits =
    s.segmentStream v := List.flatMap_congr fun i hi => (hready i hi).2
  rw [← hstream]
  refine bsSegAll_appends (State.sound_cleared hm hv).memory rfl (fun i hi => (hready i hi).1) ?_
  rw [hstream, State.cleared_bitLen, Nat.zero_add]
  exact (State.segmentStream_fits hv).trans_eq (State.capacity_selectVersion hv).symm

end

/-- The commands that build the stream. -/
def streamSteps (n : Nat) : List Instr := .vsel :: .bsClear :: ((List.range n).map Instr.bsSeg ++ [.bsFinish])

/-- What they leave: the stream of version v, to its full capacity. -/
structure State.StreamBuilt (s t : State) (v : Nat) : Prop where
  sound : t.Sound
  frame : t = { s with
    result := { (s.selectVersion v).result with bitLen := t.result.bitLen }
    phase := { v := true, f := true, c := false, m := false, p := false, d := false, k := false }
    mem := t.mem }
  bitLen : t.result.bitLen.toNat = s.capacityAt v
  stream : ∀ j < s.capacityAt v, t.streamBit j = (s.fullStream v).getD j false
  other : ∀ x, ¬ (0x3000 ≤ x ∧ x < 0x4000) → t.readByte x = s.readByte x

theorem bodiesOf_streamSteps {s : State} {v : Nat} (hm : s.MemoryOk) (hv : s.chooseVersion = .ok v) :
    ∃ t, bodiesOf (streamSteps s.operand.nseg.toNat) s = .ok t ∧ s.StreamBuilt t v := by
  obtain ⟨u, hu, happ⟩ := bsSegAll_cleared hm hv
  obtain ⟨p, hp, hpadded⟩ := bsFinishBody_afterSegments hv happ
  have hvsel : vselBody s = .ok (s.selectVersion v) := by rw [vselBody, hv]
  have hcap : s.capacityAt v < 32768 := State.capacity_selectVersion hv ▸ State.capacity_lt _
  refine ⟨_, ?run, ((State.sound_cleared hm hv).of_bsSegAll hu).of_bodyOf (i := .bsFinish) statusFree_bsFinishBody hp, ?frame,
    ?bitLen, fun j hj => ?stream, fun x hx => ?other⟩
  case run =>
    refine (andThen_of_ok hvsel).trans ((andThen_of_ok (bsClearBody_eq _)).trans ?_)
    rw [bodiesOf_append, bodiesOf_bsSeg, andThen_of_ok hu]
    exact andThen_of_ok hp
  case frame =>
    rw [hpadded.phase_eq]
    exact congrArg (fun q : State => { q with phase := (s.selectVersion v).cleared.phase.afterFinish }) hpadded.frame
  case bitLen =>
    exact hpadded.bitLen.trans ((Nat.zero_add _).trans (State.fullStream_length hv))
  case stream =>
    refine (hpadded.stream j (hj.trans hcap)).trans (if_pos ⟨Nat.zero_le j, ?_⟩)
    rw [State.fullStream_length hv]
    exact hj.trans_le (Nat.le_add_left ..)
  case other =>
    exact ((State.readByte_congr rfl rfl x).trans (hpadded.other x hx)).trans (State.cleared_readByte hm hx)

end Sys2Proof.Machine
end

section
/-! PROOFS. The codeword and matrix stages of encode (47_control.md R371): each command that encode runs leaves what the
obligation of that command says it leaves. -/

namespace Sys2Proof.Machine

open Sys2Proof

/-! ### A command as a step of encode -/

/-- A command that completes and sets a flag of the phase has run its body. -/
theorem State.Sound.body_of_exec {i : Instr} {s t : State} (hs : s.Sound) (hfree : StatusFree (bodyOf i))
    (h : exec i s = .next t) (flag : Phase → Bool) (h0 : flag s.phase = false) (h1 : flag t.phase = true) :
    ∃ u, bodyOf i s = .ok u ∧ u.Sound ∧ s.BodyFrame u ∧ t = u.completeOk := by
  obtain ⟨u, hu, ht⟩ | ⟨e, -, rfl⟩ := finish_cases ((exec_eq_finish i s).symm.trans h)
  · exact ⟨u, hu, hs.of_bodyOf hfree hu, bodyOf_frame hu, ht⟩
  · cases h0.symm.trans h1

/-- The body's frame, with what is known of the result registers and the phase once the command has completed. -/
theorem State.BodyFrame.eq_of_completeOk {s t u : State} (h : s.BodyFrame u) (ht : u.completeOk = t) :
    u = { s with result := t.result, phase := t.phase, mem := u.mem } := by
  subst ht
  exact h

theorem State.readByte_completeOk (s : State) (x : Nat) : s.completeOk.readByte x = s.readByte x :=
  State.readByte_congr rfl rfl x

theorem State.moduleAt_completeOk (s : State) (r c : Nat) : s.completeOk.moduleAt r c = s.moduleAt r c :=
  State.moduleAt_congr rfl rfl r c

/-! ### ileave -/

/-- t is s with FCW the final sequence of DCW. -/
structure State.Interleaved (s t : State) : Prop where
  sound : t.Sound
  frame : t = { s with phase := { s.phase with c := true }, mem := t.mem }
  final : ∀ j, j < totalCodewords s.result.version.toNat → t.readByte (0x4000 + j) =
    (finalCodewords s.result.version.toNat s.level
      ((List.range s.result.dataCw.toNat).map fun k => s.readByte (0x3000 + k))).getD j 0
  other : ∀ x, ¬ (0x4000 ≤ x ∧ x < 0x4000 + totalCodewords s.result.version.toNat) → t.readByte x = s.readByte x

theorem ileaveBody_interleaves {s : State} (hs : s.Sound) (hf : s.phase.f = true) (hc : s.phase.c = false) :
    ∃ t, ileaveBody s = .ok t ∧ s.Interleaved t := by
  obtain ⟨t, ht, hframe, hfcw, hother⟩ := ileaveWritesFinalSequence s hs.memory hs.phase hs.symbol hf
  obtain ⟨u, hu, hsound, huframe, rfl⟩ :=
    hs.body_of_exec (i := .ileave) statusFree_ileaveBody ht Phase.c hc (by rw [hframe])
  exact ⟨u, hu, hsound, huframe.eq_of_completeOk hframe,
    fun j hj => (u.readByte_completeOk _).symm.trans (hfcw j hj),
    fun x hx => (u.readByte_completeOk x).symm.trans (hother x hx)⟩

/-! ### The matrix -/

/-- A module of the symbol lies in MX. -/
theorem not_module_of_outside_mx {n x : Nat} (hn : n ≤ 177) (hx : ¬ (0x8000 ≤ x ∧ x < 0xFA61)) :
    ¬ ∃ r c, r < n ∧ c < n ∧ x = 0x8000 + 177 * r + c := by
  rintro ⟨r, c, hr, hc, rfl⟩
  omega

theorem State.Sound.side_le {s : State} (hs : s.Sound) (hv : s.phase.v = true) : s.side ≤ 177 :=
  State.side_le_of_version (hs.symbol.of_v hv).2.1

theorem mxInitBody_clears {s : State} (hs : s.Sound) (hv : s.phase.v = true) (hm : s.phase.m = false) :
    ∃ t, mxInitBody s = .ok t ∧ t.Sound ∧
      t = { s with phase := { s.phase with m := true, p := false, d := false, k := false }, mem := t.mem } ∧
      (∀ x, ¬ (0x8000 ≤ x ∧ x < 0xFA61) → t.readByte x = s.readByte x) := by
  obtain ⟨t, ht, hframe, -, hother⟩ := mxInitClearsMatrix.2.2 s hs.memory hv
  obtain ⟨u, hu, hsound, huframe, rfl⟩ :=
    hs.body_of_exec (i := .mxInit) statusFree_mxInitBody ht Phase.m hm (by rw [hframe])
  exact ⟨u, hu, hsound, huframe.eq_of_completeOk hframe, fun x hx => (u.readByte_completeOk x).symm.trans (hother x hx)⟩

theorem mxFuncBody_places {s : State} (hs : s.Sound) (hm : s.phase.m = true) (hp : s.phase.p = false) :
    ∃ t, mxFuncBody s = .ok t ∧ t.Sound ∧ t = { s with phase := { s.phase with p := true }, mem := t.mem } ∧
      (∀ r c, r < s.side → c < s.side → t.moduleAt r c = placedModule s.result.version.toNat r c) ∧
      (∀ x, ¬ (0x8000 ≤ x ∧ x < 0xFA61) → t.readByte x = s.readByte x) := by
  obtain ⟨t, ht, hframe, hplaced, hother⟩ := mxFuncPlacesPatterns s hs.memory hs.phase hs.symbol hs.matrix hm hp
  obtain ⟨u, hu, hsound, huframe, rfl⟩ :=
    hs.body_of_exec (i := .mxFunc) statusFree_mxFuncBody ht Phase.p hp (by rw [hframe])
  obtain ⟨-, -, -, -, -, hmv⟩ := hs.phase
  have hN := hs.side_le (hmv hm)
  exact ⟨u, hu, hsound, huframe.eq_of_completeOk hframe,
    fun r c hr hc => (u.moduleAt_completeOk r c).symm.trans (hplaced r c hr hc),
    fun x hx => (u.readByte_completeOk x).symm.trans (hother x (not_module_of_outside_mx hN hx))⟩

/-- The modules that take the codewords' bits, in order: those mx.func leaves EMPTY (R297). -/
def dataPath (v : Nat) : List (Nat × Nat) :=
  (zigzagAll (sideOf v)).filter fun p => decide ((placedModule v p.1 p.2).role = .empty)

theorem dataPath_inside {v : Nat} (h1 : 1 ≤ v) {p : Nat × Nat} (hp : p ∈ dataPath v) :
    p.1 < sideOf v ∧ p.2 < sideOf v ∧ (placedModule v p.1 p.2).role = .empty := by
  obtain ⟨hp, he⟩ := List.mem_filter.1 hp
  obtain ⟨hr, hc, -⟩ := (mem_zigzagAll h1).1 hp
  exact ⟨hr, hc, of_decide_eq_true he⟩

theorem State.placementPath_eq_dataPath {s : State} (h1 : 1 ≤ s.result.version.toNat) (h : s.EmptyAsPlaced) :
    s.placementPath = dataPath s.result.version.toNat := by
  refine List.filter_congr fun p hp => ?_
  obtain ⟨hr, hc, -⟩ := (mem_zigzagAll h1).1 hp
  exact decide_eq_decide.2 (h _ hr _ hc)

theorem mxPlaceBody_fills {s : State} (hs : s.Sound) (hp : s.phase.p = true) (hc : s.phase.c = true)
    (hd : s.phase.d = false) :
    ∃ t, mxPlaceBody s = .ok t ∧ t.Sound ∧ t = { s with phase := { s.phase with d := true }, mem := t.mem } ∧
      (∀ k p, (dataPath s.result.version.toNat)[k]? = some p → t.moduleAt p.1 p.2 =
        ⟨decide (k < 8 * totalCodewords s.result.version.toNat) &&
          (s.readByte (0x4000 + k / 8)).getLsbD (7 - k % 8), .data⟩) ∧
      (∀ x, ¬ (0x8000 ≤ x ∧ x < 0xFA61) → t.readByte x = s.readByte x) := by
  obtain ⟨t, ht, hframe, -, hpath, -, hother⟩ :=
    mxPlaceFillsMatrix s hs.memory hs.phase hs.symbol hs.matrix hp hc hd
  obtain ⟨u, hu, hsound, huframe, rfl⟩ :=
    hs.body_of_exec (i := .mxPlace) statusFree_mxPlaceBody ht Phase.d hd (by rw [hframe])
  obtain ⟨hcf, hfv, -⟩ := hs.phase
  obtain ⟨h1, -, htotal⟩ := hs.symbol.of_v (hfv (hcf hc))
  have hN := hs.side_le (hfv (hcf hc))
  have hdata : s.placementPath = dataPath s.result.version.toNat :=
    State.placementPath_eq_dataPath h1 (hs.matrix.emptyAsPlaced hs.phase hp hd)
  refine ⟨u, hu, hsound, huframe.eq_of_completeOk hframe, fun k p hk => ?_, fun x hx => ?_⟩
  · rw [← htotal]
    exact (u.moduleAt_completeOk _ _).symm.trans (hpath k p ((congrArg (·[k]?) hdata).trans hk))
  · refine (u.readByte_completeOk x).symm.trans (hother x ?_)
    rintro ⟨p, hp, he⟩
    obtain ⟨hr, hc⟩ := State.placementPath_inside h1 p hp
    exact not_module_of_outside_mx hN hx ⟨p.1, p.2, hr, hc, he⟩

/-! ### mask.select -/

/-- A module that mx.func leaves EMPTY is no format module. -/
theorem not_format_of_empty {v : Nat} (h1 : 1 ≤ v) (h2 : v ≤ 40) {r c : Nat} (h : (placedModule v r c).role = .empty) :
    ¬ ∃ i, i < 15 ∧ ((r, c) = formatPos1 i ∨ (r, c) = formatPos2 (sideOf v) i) := by
  intro hformat
  cases h.symm.trans ((placedModule_reserved_iff h1 h2).2 (mem_formatModules.2 hformat))

/-- The penalties and the mask number mask.select leaves: the chosen mask's total is the sum of its parts, and the least,
at the lowest number among equals (R340). -/
abbrev ResultRegs.MaskChosen (x : ResultRegs) : Prop :=
  ∀ best : Fin 8, best.val = x.maskId.toNat →
    x.penalty[best].toNat = x.penN1.toNat + x.penN2.toNat + x.penN3.toNat + x.penN4.toNat ∧
    (∀ m : Fin 8, x.penalty[best].toNat ≤ x.penalty[m].toNat) ∧
    (∀ m : Fin 8, m < best → x.penalty[best].toNat < x.penalty[m].toNat)

/-- The matrix as mask.select leaves it. -/
structure State.Masked (s t : State) : Prop where
  format : ∀ i, i < 15 →
    t.moduleAt (formatPos1 i).1 (formatPos1 i).2 = ⟨(fmtWord s.level t.result.maskId.toNat).getLsbD i, .function⟩ ∧
    t.moduleAt (formatPos2 s.side i).1 (formatPos2 s.side i).2 =
      ⟨(fmtWord s.level t.result.maskId.toNat).getLsbD i, .function⟩
  data : ∀ r c b, r < s.side → c < s.side → (placedModule s.result.version.toNat r c).role = .empty →
    s.moduleAt r c = ⟨b, .data⟩ → t.moduleAt r c = ⟨b ^^ maskCondition t.result.maskId.toNat r c, .data⟩
  other : ∀ x, ¬ (0x8000 ≤ x ∧ x < 0xFA61) → t.readByte x = s.readByte x

theorem maskSelectBody_masks {s : State} (hs : s.Sound) (hd : s.phase.d = true) (hk : s.phase.k = false) :
    ∃ t, maskSelectBody s = .ok t ∧ t.Sound ∧ s.Masked t ∧ t.result.MaskChosen ∧
      t = { s with phase := { s.phase with k := true }, mem := t.mem, result := { s.result with
        maskId := t.result.maskId, penN1 := t.result.penN1, penN2 := t.result.penN2, penN3 := t.result.penN3,
        penN4 := t.result.penN4, penDark := t.result.penDark, penalty := t.result.penalty } } := by
  obtain ⟨t, u, e, best, ht, hu, he, hsame, hleast, hfirst, hframe⟩ :=
    maskSelectChoosesLeastPenalty s hs.phase hs.symbol hd hk
  obtain ⟨u', hu', hmask, huframe, hformat, hother, -, hbytes⟩ := maskApplyMasksMatrix s best.val hs.memory hs.phase
    hs.symbol hs.matrix hd hk (Nat.le_of_lt_succ best.isLt)
  obtain rfl : u' = u := Host.Outcome.next.inj (hu'.symm.trans hu)
  obtain ⟨e', _, he', -, -, -, -, -, -, hsum, -, -⟩ := maskEvalReportsScore s best hs.memory hs.phase hs.symbol hd hk
  obtain rfl : e' = e := Host.Outcome.next.inj (he'.symm.trans he)
  obtain ⟨f, hf, hpenalty⟩ := hsame best
  obtain rfl : f = e' := Host.Outcome.next.inj (hf.symm.trans he)
  have hphase : t.phase = { s.phase with k := true } := by rw [hframe, huframe]
  have hmem : t.mem = u'.mem := by rw [hframe]
  have hepoch : t.epoch = u'.epoch := by rw [hframe, huframe]
  have hid : t.result.maskId.toNat = best.val := by
    rw [hframe]
    exact hmask
  have hresult : t.result = { s.result with
      maskId := t.result.maskId, penN1 := t.result.penN1, penN2 := t.result.penN2, penN3 := t.result.penN3,
      penN4 := t.result.penN4, penDark := t.result.penDark, penalty := t.result.penalty } := by
    rw [hframe]
  have hchosen : t.result.MaskChosen := by
    intro best' hbest
    obtain rfl : best' = best := Fin.ext (hbest.trans hid)
    refine ⟨?_, hleast, hfirst⟩
    rw [← hpenalty, hsum, hframe]
  obtain ⟨w, hw, hsound, hwframe, rfl⟩ :=
    hs.body_of_exec (i := .maskSelect) statusFree_maskSelectBody ht Phase.k hk (by rw [hphase])
  have hmodule : ∀ r c, w.moduleAt r c = u'.moduleAt r c := State.moduleAt_congr hmem hepoch
  obtain ⟨-, -, -, hdp, hpm, hmv⟩ := hs.phase
  have hv := hmv (hpm (hdp hd))
  obtain ⟨h1, h2, -⟩ := hs.symbol.of_v hv
  refine ⟨w, hw, hsound, ⟨fun i hi => ?_, fun r c b hr hc hempty hb => ?_, fun x hx => ?_⟩, hchosen,
    Eq.trans hwframe
      (congrArg₂ (fun x p => ({ s with result := x, phase := p, mem := w.mem } : State)) hresult hphase)⟩
  · rw [hmodule, hmodule, show w.result.maskId.toNat = best.val from hid]
    exact hformat i hi
  · rw [hmodule, show w.result.maskId.toNat = best.val from hid, hother r c hr hc (not_format_of_empty h1 h2 hempty), hb]
    cases maskCondition best.val r c <;> simp
  · exact (State.readByte_congr hmem hepoch x).trans (hbytes x (not_module_of_outside_mx (hs.side_le hv) hx))

/-! ### The matrix stage -/

/-- The commands that build the matrix. -/
def matrixSteps : List Instr := [.mxInit, .mxFunc, .mxPlace, .maskSelect]

/-- What they leave, from a state whose final sequence is in FCW. -/
structure State.MatrixBuilt (s t : State) : Prop where
  sound : t.Sound
  frame : t = { s with
    phase := { s.phase with m := true, p := true, d := true, k := true }
    mem := t.mem
    result := { s.result with
      maskId := t.result.maskId, penN1 := t.result.penN1, penN2 := t.result.penN2, penN3 := t.result.penN3,
      penN4 := t.result.penN4, penDark := t.result.penDark, penalty := t.result.penalty } }
  chosen : t.result.MaskChosen
  format : ∀ i, i < 15 →
    t.moduleAt (formatPos1 i).1 (formatPos1 i).2 = ⟨(fmtWord s.level t.result.maskId.toNat).getLsbD i, .function⟩ ∧
    t.moduleAt (formatPos2 s.side i).1 (formatPos2 s.side i).2 =
      ⟨(fmtWord s.level t.result.maskId.toNat).getLsbD i, .function⟩
  data : ∀ k p, (dataPath s.result.version.toNat)[k]? = some p → t.moduleAt p.1 p.2 =
    ⟨(decide (k < 8 * totalCodewords s.result.version.toNat) && (s.readByte (0x4000 + k / 8)).getLsbD (7 - k % 8)) ^^
      maskCondition t.result.maskId.toNat p.1 p.2, .data⟩
  other : ∀ x, ¬ (0x8000 ≤ x ∧ x < 0xFA61) → t.readByte x = s.readByte x

/-- A bit of FCW is the same in a state that differs in MX only. -/
theorem codewordBit_of_same {s t : State} {n : Nat} (hn : n ≤ 4096)
    (h : ∀ x, ¬ (0x8000 ≤ x ∧ x < 0xFA61) → t.readByte x = s.readByte x) {k : Nat} :
    (decide (k < 8 * n) && (t.readByte (0x4000 + k / 8)).getLsbD (7 - k % 8)) =
      (decide (k < 8 * n) && (s.readByte (0x4000 + k / 8)).getLsbD (7 - k % 8)) := by
  by_cases hk : k < 8 * n
  · rw [h _ (by omega)]
  · rw [decide_eq_false hk, Bool.false_and, Bool.false_and]

theorem bodiesOf_matrixSteps {s : State} (hs : s.Sound) (hc : s.phase.c = true) (hm : s.phase.m = false) :
    ∃ t, bodiesOf matrixSteps s = .ok t ∧ s.MatrixBuilt t := by
  obtain ⟨hcf, hfv, -⟩ := hs.phase
  have hv := hfv (hcf hc)
  obtain ⟨h1, h2, -⟩ := hs.symbol.of_v hv
  obtain ⟨u1, hinit, hsound1, hframe1, hother1⟩ := mxInitBody_clears hs hv hm
  obtain ⟨u2, hfunc, hsound2, hframe2, -, hother2⟩ := mxFuncBody_places hsound1 (by rw [hframe1]) (by rw [hframe1])
  have hphase2 : u2.phase = { s.phase with m := true, p := true, d := false, k := false } := by rw [hframe2, hframe1]
  have hresult2 : u2.result = s.result := by rw [hframe2, hframe1]
  obtain ⟨u3, hplace, hsound3, hframe3, hdata, hother3⟩ :=
    mxPlaceBody_fills hsound2 (by rw [hphase2]) (by rw [hphase2]; exact hc) (by rw [hphase2])
  have hphase3 : u3.phase = { s.phase with m := true, p := true, d := true, k := false } := by rw [hframe3, hphase2]
  have hresult3 : u3.result = s.result := by rw [hframe3, hresult2]
  obtain ⟨t, hselect, hsound, ⟨hformat, hmask, hother⟩, hchosen, hframe⟩ :=
    maskSelectBody_masks hsound3 (by rw [hphase3]) (by rw [hphase3])
  have hbefore : ∀ x, ¬ (0x8000 ≤ x ∧ x < 0xFA61) → u2.readByte x = s.readByte x :=
    fun x hx => (hother2 x hx).trans (hother1 x hx)
  refine ⟨t, ?run, hsound, ?frame, hchosen, ?format, fun k p hk => ?data,
    fun x hx => ((hother x hx).trans (hother3 x hx)).trans (hbefore x hx)⟩
  case run =>
    exact (andThen_of_ok hinit).trans ((andThen_of_ok hfunc).trans ((andThen_of_ok hplace).trans (andThen_of_ok hselect)))
  case frame => rw [hframe, hframe3, hframe2, hframe1]
  case format =>
    rwa [State.level, State.side, hresult3] at hformat
  case data =>
    obtain ⟨hr, hcol, hempty⟩ := dataPath_inside h1 (List.mem_of_getElem? hk)
    have hfilled := hdata k p (by rwa [hresult2])
    rw [hresult2] at hfilled
    obtain ⟨-, htotal, -⟩ := sizes_lt h2 .L
    rw [codewordBit_of_same htotal.le hbefore] at hfilled
    exact hmask p.1 p.2 _ (by rwa [State.side, hresult3]) (by rwa [State.side, hresult3]) (by rwa [hresult3]) hfilled

end Sys2Proof.Machine
end

section
/-! PROOFS. The command encode and the host's sequence (47_control.md R371 to R374): its three stages, put together. -/

namespace Sys2Proof.Machine

open Sys2Proof

/-- encode is the stream, the final sequence and the matrix, each stage on what the one before has left. -/
theorem encodeBody_stages {s : State} {v : Nat} (hm : s.MemoryOk) (hv : s.chooseVersion = .ok v) :
    ∃ u w t, encodeBody s = .ok t ∧ s.StreamBuilt u v ∧ u.Interleaved w ∧ w.MatrixBuilt t := by
  obtain ⟨u, hstream, hu⟩ := bodiesOf_streamSteps hm hv
  obtain ⟨w, hileave, hw⟩ := ileaveBody_interleaves hu.sound (by rw [hu.frame]) (by rw [hu.frame])
  have hphase : w.phase = { v := true, f := true, c := true, m := false, p := false, d := false, k := false } := by
    rw [hw.frame, hu.frame]
  obtain ⟨t, hmatrix, ht⟩ := bodiesOf_matrixSteps hw.sound (by rw [hphase]) (by rw [hphase])
  have hsteps : encodeSteps s.operand.nseg.toNat = streamSteps s.operand.nseg.toNat ++ .ileave :: matrixSteps := by
    simp [encodeSteps, streamSteps, matrixSteps]
  refine ⟨u, w, t, ?_, hu, hw, ht⟩
  rw [encodeBody_eq_bodiesOf, hsteps, bodiesOf_append, andThen_of_ok hstream]
  exact (andThen_of_ok hileave).trans hmatrix

/-! ### R374 -/

/-- vsel succeeds exactly where it chooses a version. -/
theorem chooseVersion_of_exec_vsel {s u : State} {w : Word} (h : exec .vsel (s.accept w) = .next u)
    (herr : u.err = false) : ∃ v, s.chooseVersion = .ok v := by
  rw [← State.chooseVersion_congr (s := s) (t := s.accept w) rfl]
  cases hv : (s.accept w).chooseVersion with
  | ok v => exact ⟨v, rfl⟩
  | error e =>
    obtain rfl := Host.Outcome.next.inj ((exec_vsel_of_chooseVersion_error hv).symm.trans h)
    cases herr

/-- Settles O55: the latch and the status record are no input of a step, so the sequence of commands is the sequence of
their bodies, which is encode's; and past vsel no step of it fails. -/
theorem encodeEqualsStepSequence : Obligations.EncodeEqualsStepSequence := by
  unfold Obligations.EncodeEqualsStepSequence
  intro steps
  refine ⟨fun s t h => ?_, fun s u hm h herr => ?_⟩
  · obtain ⟨x, hx, rfl⟩ := (runCommands_encodeSteps s t).1 h
    exact exec_encode_accept hx _
  · obtain ⟨v, hv⟩ := chooseVersion_of_exec_vsel h herr
    obtain ⟨-, -, t, ht, -⟩ := encodeBody_stages hm hv
    exact ⟨t.succeeded, (runCommands_encodeSteps s _).2 ⟨t, ht, rfl⟩, exec_encode_accept ht _⟩

/-! ### What encode leaves -/

section
variable {s u w t : State} {v : Nat} (hv : s.chooseVersion = .ok v) (hu : s.StreamBuilt u v) (hw : u.Interleaved w)
  (ht : w.MatrixBuilt t)

include hv hu hw in
/-- The symbol the middle stages see is the one vsel chose. -/
theorem stages_symbol : (w.result.version.toNat = v ∧ w.level = .ofBits s.operand.cfgLevel) ∧
    u.result.version.toNat = v ∧ u.level = .ofBits s.operand.cfgLevel ∧
    u.result.dataCw.toNat = dataCodewords v (.ofBits s.operand.cfgLevel) := by
  obtain ⟨-, -, -, ⟨-, h40, -⟩, hacc⟩ := State.chooseVersion_ok hv
  obtain ⟨hversion, -, -, hdata, -⟩ := State.selectVersion_registers h40 hacc
  have hresult : w.result = u.result := by rw [hw.frame]
  rw [State.level, State.level, hresult, hu.frame]
  exact ⟨⟨hversion, rfl⟩, hversion, rfl, hdata⟩

include hw ht

/-- The DCW bytes are those of the stream. -/
theorem encoded_readByte_dcw {k : Nat} (hk : k < 4096) : t.readByte (0x3000 + k) = u.readByte (0x3000 + k) :=
  (ht.other _ (by omega)).trans (hw.other _ (by omega))

theorem encoded_streamBit {j : Nat} (hj : j < 32768) : t.streamBit j = u.streamBit j := by
  have hbyte := encoded_readByte_dcw hw ht (k := j / 8) (by omega)
  rw [State.readByte_dcw _ (by omega), State.readByte_dcw _ (by omega)] at hbyte
  rw [State.streamBit, State.streamBit, hbyte]

include hu

theorem encoded_frame : t = { s with
    result := t.result
    mem := t.mem
    phase := { v := true, f := true, c := true, m := true, p := true, d := true, k := true } } := by
  rw [ht.frame, hw.frame, hu.frame]

theorem encoded_phase :
    t.phase = { v := true, f := true, c := true, m := true, p := true, d := true, k := true } :=
  congrArg State.phase (encoded_frame hu hw ht)

/-- The result registers: vsel's, and those bs.finish and mask.select write. -/
theorem encoded_result : t.result = { (s.selectVersion v).result with
    bitLen := u.result.bitLen, maskId := t.result.maskId, penN1 := t.result.penN1, penN2 := t.result.penN2,
    penN3 := t.result.penN3, penN4 := t.result.penN4, penDark := t.result.penDark, penalty := t.result.penalty } := by
  rw [ht.frame, hw.frame, hu.frame]

include hv

theorem encoded_registers : t.result.version.toNat = v ∧ t.result.level = s.operand.cfgLevel ∧
    t.result.size.toNat = sideOf v ∧ t.result.dataCw.toNat = dataCodewords v (.ofBits s.operand.cfgLevel) ∧
    t.result.totalCw.toNat = totalCodewords v ∧ t.result.reqBits.toNat = (s.segmentStream v).length ∧
    t.result.bitLen.toNat = s.capacityAt v := by
  obtain ⟨-, -, -, ⟨-, h40, -⟩, hacc⟩ := State.chooseVersion_ok hv
  obtain ⟨hversion, hlevel, hsize, hdata, htotal, hreq⟩ := State.selectVersion_registers h40 hacc
  rw [encoded_result hu hw ht, s.segmentStream_length]
  exact ⟨hversion, hlevel, hsize, hdata, htotal, hreq, hu.bitLen⟩

theorem encoded_final {j : Nat} (hj : j < totalCodewords v) : t.readByte (0x4000 + j) =
    (finalCodewords v (.ofBits s.operand.cfgLevel)
      ((List.range (dataCodewords v (.ofBits s.operand.cfgLevel))).map fun k => t.readByte (0x3000 + k))).getD j 0 := by
  obtain ⟨-, hversion, hlevel, hdata⟩ := stages_symbol hv hu hw
  obtain ⟨-, -, -, ⟨-, h40, -⟩, -⟩ := State.chooseVersion_ok hv
  obtain ⟨hcw, htotal, -⟩ := sizes_lt h40 (.ofBits s.operand.cfgLevel)
  have hfinal := hw.final j (by rwa [hversion])
  rw [hversion, hlevel, hdata] at hfinal
  rw [ht.other _ (by omega), hfinal, List.map_congr_left fun k hk =>
    encoded_readByte_dcw hw ht ((List.mem_range.1 hk).trans hcw)]

theorem encoded_side : t.side = sideOf v := by
  obtain ⟨hversion, -⟩ := encoded_registers hv hu hw ht
  rw [State.side, hversion]

/-- A module of the symbol, as the phase says it may be once K is set. -/
theorem encoded_moduleOk {r c : Nat} (hr : r < t.side) (hc : c < t.side) :
    ModuleOk t.phase (placedModule v r c) (t.moduleAt r c) := by
  obtain ⟨hversion, -⟩ := encoded_registers hv hu hw ht
  rw [← hversion]
  exact ht.sound.matrix (by rw [encoded_phase hu hw ht]) r hr c hc

theorem encoded_role {r c : Nat} (hr : r < t.side) (hc : c < t.side) :
    (t.moduleAt r c).role = .function ∨ (t.moduleAt r c).role = .data := by
  have hphase := encoded_phase hu hw ht
  exact (encoded_moduleOk hv hu hw ht hr hc).role_of_k (placedModule_role_ne_data v r c) (by rw [hphase])
    (by rw [hphase]) (by rw [hphase])

theorem encoded_function {r c : Nat} (hr : r < t.side) (hc : c < t.side) (h : (placedModule v r c).role = .function) :
    t.moduleAt r c = placedModule v r c := by
  obtain ⟨-, hfunction, -⟩ := encoded_moduleOk hv hu hw ht hr hc
  exact hfunction (by rw [encoded_phase hu hw ht]) h

theorem encoded_format {i : Nat} (hi : i < 15) :
    t.moduleAt (formatPos1 i).1 (formatPos1 i).2 =
      ⟨(fmtWord (.ofBits s.operand.cfgLevel) t.result.maskId.toNat).getLsbD i, .function⟩ ∧
    t.moduleAt (formatPos2 t.side i).1 (formatPos2 t.side i).2 =
      ⟨(fmtWord (.ofBits s.operand.cfgLevel) t.result.maskId.toNat).getLsbD i, .function⟩ := by
  obtain ⟨⟨hversion, hlevel⟩, -⟩ := stages_symbol hv hu hw
  have hside : w.side = t.side := by rw [State.side, hversion, encoded_side hv hu hw ht]
  rw [← hlevel, ← hside]
  exact ht.format i hi

theorem encoded_data {k : Nat} {p : Nat × Nat} (hk : (dataPath v)[k]? = some p) : t.moduleAt p.1 p.2 =
    ⟨(decide (k < 8 * totalCodewords v) && (t.readByte (0x4000 + k / 8)).getLsbD (7 - k % 8)) ^^
      maskCondition t.result.maskId.toNat p.1 p.2, .data⟩ := by
  obtain ⟨⟨hversion, -⟩, -⟩ := stages_symbol hv hu hw
  obtain ⟨-, -, -, ⟨-, h40, -⟩, -⟩ := State.chooseVersion_ok hv
  obtain ⟨-, htotal, -⟩ := sizes_lt h40 .L
  have hdata := ht.data k p (by rwa [hversion])
  rw [hversion] at hdata
  rw [codewordBit_of_same htotal.le ht.other]
  exact hdata

theorem encoded_readByte {x : Nat} (hdcw : ¬ (0x3000 ≤ x ∧ x < 0x4000))
    (hfcw : ¬ (0x4000 ≤ x ∧ x < 0x4000 + totalCodewords v)) (hmx : ¬ (0x8000 ≤ x ∧ x < 0xFA61)) :
    t.readByte x = s.readByte x := by
  obtain ⟨-, hversion, -⟩ := stages_symbol hv hu hw
  exact ((ht.other x hmx).trans (hw.other x (by rwa [hversion]))).trans (hu.other x hdcw)

theorem encoded_stream {j : Nat} (hj : j < s.capacityAt v) : t.streamBit j = (s.fullStream v).getD j false := by
  have hcap : s.capacityAt v < 32768 := State.capacity_selectVersion hv ▸ State.capacity_lt _
  rw [encoded_streamBit hw ht (hj.trans hcap), hu.stream j hj]

end

/-- Settles O54: an error is vsel's; otherwise each clause is what one of the three stages leaves. -/
theorem encodeBuildsSymbol : Obligations.EncodeBuildsSymbol := by
  unfold Obligations.EncodeBuildsSymbol
  refine fun s hm => ⟨fun e he => ?error, fun v hv => ?success⟩
  case error =>
    have hvsel : vselBody s = .error e := by rw [vselBody, he]
    exact exec_of_body_error (i := .encode) (by rw [bodyOf, encodeBody, hvsel, andThen])
  case success =>
    intro l cw stream path
    obtain ⟨u, w, t, hbody, hu, hw, ht⟩ := encodeBody_stages hm hv
    obtain ⟨hversion, hlevel, hsize, hdata, htotal, hreq, hlen⟩ := encoded_registers hv hu hw ht
    have hframe := encoded_frame hu hw ht
    have hresult := encoded_result hu hw ht
    refine ⟨t.completeOk, exec_of_body_ok (i := .encode) hbody, congrArg State.completeOk hframe, ?word, hversion, hlevel,
      hsize, hdata, htotal, hreq, hlen, (congrArg ResultRegs.gfR hresult :), (congrArg ResultRegs.bchR hresult :),
      fun j hj => encoded_stream hv hu hw ht hj, fun j hj => ?final, fun r c hr hc => ?role, fun r c hr hc h => ?function,
      fun i hi => ?format, fun k p hk => ?data, ht.chosen, ht.sound.matrix, ht.sound.margin,
      fun x hdcw hfcw hmx => (t.readByte_completeOk x).trans (encoded_readByte hv hu hw ht hdcw hfcw hmx)⟩
    case word =>
      show t.phase.word = 0x7F
      rw [encoded_phase hu hw ht]
      decide
    case final => simpa only [State.readByte_completeOk] using encoded_final hv hu hw ht hj
    case role => exact encoded_role hv hu hw ht hr hc
    case function => exact encoded_function hv hu hw ht hr hc h
    case format => exact encoded_format hv hu hw ht hi
    case data => exact encoded_data hv hu hw ht hk

end Sys2Proof.Machine
end
